-- ==== Sys2Proof/Word.lean ====
section
/-! DEFINITION. Word.lean: the widths of the data the block moves and the names of its index types
(spec/00_scope.md R4, R6). All values are unsigned (R6). -/

namespace Sys2Proof

/-! The fixed sizes of 00_scope.md R4, each in one place (93_implementation_defined.md U1): the widths in the three
types, the counts as constants; FLOAT, SSR_ADDR and PRIMARY_DEFAULT stand in Config.lean. -/

/-- DATA_WIDTH: every datum is 8 bits. -/
abbrev Byte := BitVec 8

/-- ADDR_WIDTH: a memory address is 16 bits. -/
abbrev Addr := BitVec 16

/-- PORT_WIDTH: an I/O port number is 8 bits. -/
abbrev Port := BitVec 8

/-- N_PORTS, the entries of each I/O table. -/
abbrev Config.nPorts : Nat := 256
/-- N_PRIMARY. -/
abbrev Config.nPrimary : Nat := 4
/-- N_SECONDARY. -/
abbrev Config.nSecondary : Nat := 4
/-- N_PAGE. -/
abbrev Config.nPage : Nat := 4
/-- The device positions of SlotLayout (10_state.md R21, R22). -/
abbrev Config.nPositions : Nat := nPrimary * nSecondary * nPage
/-- PAGE_SHIFT; PAGE_SIZE is 2 to this power. -/
abbrev Config.pageShift : Nat := 14
/-- CACHE_LINE, the bytes of an aligned block. -/
abbrev Config.cacheLine : Nat := 256
/-- MUX_WINDOW, the ports of the mux window. -/
abbrev Config.muxWindow : Nat := 16
/-- MUX_IDS, the entries of the mux's table. -/
abbrev Config.muxIds : Nat := 256

/-- A primary slot, a secondary slot or a page: a number in [0,4) (10_state.md R21). -/
abbrev Quarter := BitVec 2

/-- A trace word (30_encoding.md R98). -/
abbrev Word := BitVec 32

/-- A device reference as an 8-bit operand: 0x00..0xFE are indices, 0xFF is NONE (30_encoding.md R97). -/
abbrev DevRef := BitVec 8

/-- The index of a top-level device, 0x00..0xFE (30_encoding.md R97). -/
abbrev DevIndex := Fin 255

/-- The index of a sub-device of the mux, in its own name space (30_encoding.md R97). -/
abbrev SubIndex := Fin 255

/-- The instance of the open type Time (00_scope.md R5) at which exec, step and State.reset stand, those of 30_encoding.md
R98: "word `i` is issued with TimeStamp `i`". Everything that only hands a TimeStamp on is over any type `Time`, and
whatever may depend on one over any totally ordered type `Time` (10_state.md R35, D26; log 2). -/
abbrev TraceTime := Nat

/-- A SlotCoordinate: primary, secondary, page (10_state.md R21). -/
structure Coord where
  ps : Quarter
  ss : Quarter
  pg : Quarter
  deriving DecidableEq, Repr

end Sys2Proof
end

