-- ==== Sys2Proof/Config.lean ====
section
/-! DEFINITION. Config.lean: what the machine being built fixes (00_scope.md R4, R5) and the behaviour of
the devices whose behaviour no source gives (46_device_contract.md R236), as constants without a body. -/

namespace Sys2Proof

/-- The open parameters of 00_scope.md R5 that are plain data (SUBSLOTTED stands in State as
SubslotFlag, 10_state.md R23; Dev and Sub are the device records of State). -/
structure Config where
  /-- NDEV: how many device indices exist, 1..255 (D25). -/
  nDev : Nat
  /-- IRQ_COUNT_MAX: `none` is unbounded, the default (D13). -/
  irqCountMax : Option Nat
  /-- MUX_BASE[7:4]; MUX_BASE is a multiple of 16 (D28), so its low four bits are 0. -/
  muxBase : BitVec 4
  /-- MUX_DEV: the index under which the mux attaches itself (D30). -/
  muxDev : DevIndex
  deriving DecidableEq, Repr

/-- FLOAT, the value of an unclaimed address or port (00_scope.md R4). -/
def Config.floatByte : Byte := 0xFF#8

/-- SSR_ADDR, the intercepted address (00_scope.md R4). -/
def Config.ssrAddr : Addr := 0xFFFF#16

/-- PRIMARY_DEFAULT for every page, as a value of PSR (00_scope.md R4, 10_state.md R24). -/
def Config.selectDefault : Byte := 0x00#8

/-- What a device may do to the bus from inside a call; nothing else is admitted (20_memory.md R81,
60_exceptions.md R270: the upcall type has only the three device constructors). -/
inductive Upcall where
  | irqUp
  | irqDn
  | psw (v : Byte)
  deriving DecidableEq, Repr, Inhabited

/-- What a call that returns nothing gives: the new device state and the upcalls, in the order
issued (46_device_contract.md R236). -/
structure Effect (σ : Type) where
  device : σ
  upcalls : List Upcall
  deriving DecidableEq, Repr, Inhabited

/-- What a call that returns a byte gives (46_device_contract.md R236). -/
structure Answer (σ : Type) where
  value : Byte
  device : σ
  upcalls : List Upcall
  deriving DecidableEq, Repr, Inhabited

/-! The external devices: `Dev[d]` and `Sub[j]` as uninterpreted functions of the device index, a code of
the device's own state, the operands and the TimeStamp (R236, U16), over any totally ordered type `Time`
(00_scope.md R5, D26). A claim that holds for an external device holds whatever the device computes (log 4). -/

opaque Config.extReset {Time : Type} [LinearOrder Time] : DevIndex → Nat → Time → Effect Nat
opaque Config.extReadMem {Time : Type} [LinearOrder Time] : DevIndex → Nat → Addr → Time → Answer Nat
opaque Config.extWriteMem {Time : Type} [LinearOrder Time] : DevIndex → Nat → Addr → Byte → Time → Effect Nat
opaque Config.extReadIO {Time : Type} [LinearOrder Time] : DevIndex → Nat → Port → Time → Answer Nat
opaque Config.extWriteIO {Time : Type} [LinearOrder Time] : DevIndex → Nat → Port → Byte → Time → Effect Nat
opaque Config.subReadIO {Time : Type} [LinearOrder Time] : SubIndex → Nat → Port → Time → Answer Nat
opaque Config.subWriteIO {Time : Type} [LinearOrder Time] : SubIndex → Nat → Port → Byte → Time → Effect Nat

/-- `Sub[j].reset(t)` of an external sub-device: a parameter (45_switched_mux.md R222,
93_implementation_defined.md U21). -/
opaque Config.subReset {Time : Type} [LinearOrder Time] : SubIndex → Nat → Time → Effect Nat

/-- The number of the 256-byte-aligned block of an address (46_device_contract.md R239, 20_memory.md R71). -/
def blockOf (addr : Addr) : BitVec 8 := addr.extractLsb' 8 8

/-- The place of an address in its block. -/
def blockOffset (addr : Addr) : BitVec 8 := addr.extractLsb' 0 8

/-- The bytes a cache-line pointer gives (00_scope.md R4 CACHE_LINE). -/
abbrev CacheLine := Vector Byte Config.cacheLine

/-- The byte at the pointer for an address of the block. -/
def CacheLine.at (bytes : CacheLine) (offset : BitVec 8) : Byte := bytes[offset.toNat]'offset.isLt

/-- What handing out a pointer to `bytes` promises of `readMem` on a device in state `st` (R239): on every
address of the block, at any time, no side effect, and the byte at the pointer. -/
def LineHolds {Time σ : Type} (readMem : σ → Addr → Time → Answer σ) (st : σ) (block : BitVec 8) (bytes : CacheLine) : Prop :=
  ∀ (addr : Addr) (t : Time), blockOf addr = block → readMem st addr t = ⟨bytes.at (blockOffset addr), st, []⟩

/-- A cache-line answer: `none` ("no fast path"), or a pointer with its promise (R239). -/
abbrev CacheLineAnswer {Time σ : Type} (readMem : σ → Addr → Time → Answer σ) (st : σ) (block : BitVec 8) : Type :=
  Option { bytes : CacheLine // LineHolds readMem st block bytes }

/-- `getReadCacheLine` of an external device: its own choice under the obligation of R239 (U15; log 19). -/
opaque Config.extReadCacheLine (Time : Type) [LinearOrder Time] : (d : DevIndex) → (st : Nat) → (block : BitVec 8) →
  CacheLineAnswer (Config.extReadMem (Time := Time) d) st block

/-- `getWriteCacheLine` of an external device, likewise. -/
opaque Config.extWriteCacheLine (Time : Type) [LinearOrder Time] : (d : DevIndex) → (st : Nat) → (block : BitVec 8) →
  CacheLineAnswer (Config.extReadMem (Time := Time) d) st block

/-- The byte IRQDEV and STUB answer to a memory read, which 95_test_vectors.md section 0 does not give
(DESIGN CHOICE, log 17: a free value). -/
opaque Config.freeMemByte {Time : Type} [LinearOrder Time] : DevIndex → Addr → Time → Byte

end Sys2Proof
end

