-- ==== Sys2Proof/Syntax.lean ====
section
/-! DEFINITION. Syntax.lean: the 20 operations of 30_encoding.md R91, one constructor per row of
spec/opcode_table.json. The TimeStamp operand is not part of the word (R98): State holds it. A device
operand is the 8-bit reference of the word; WellFormed excludes NONE (R97). -/

namespace Sys2Proof

inductive Instr where
  | mrd (addr : Addr)
  | mwr (addr : Addr) (v : Byte)
  | iord (port : Port)
  | iowr (port : Port) (v : Byte)
  | irqst
  | irqup
  | irqdn
  | psw (v : Byte)
  | rst
  | muxrst
  | regslot (ps ss pg : Quarter) (d : DevRef)
  | muxreg (id : Byte) (s : DevRef)
  | unregslot (ps ss pg : Quarter) (d : DevRef)
  | muxunreg (id : Byte)
  | regin (port : Port) (d : DevRef)
  | regout (port : Port) (d : DevRef)
  | unregin (port : Port) (d : DevRef)
  | unregout (port : Port) (d : DevRef)
  | destroy
  | muxdestroy
  deriving DecidableEq, Repr

end Sys2Proof
end

