-- ==== Sys2Proof/WellFormed.lean ====
section
/-! DEFINITION. WellFormed.lean: which operations and which configurations the spec admits. -/

namespace Sys2Proof

/-- A device operand is not NONE (30_encoding.md R97, R100; 44_configuration.md R197). -/
def Instr.wf : Instr → Bool
  | .mrd _ => true
  | .mwr _ _ => true
  | .iord _ => true
  | .iowr _ _ => true
  | .irqst => true
  | .irqup => true
  | .irqdn => true
  | .psw _ => true
  | .rst => true
  | .muxrst => true
  | .regslot _ _ _ d => d != 0xFF#8
  | .muxreg _ s => s != 0xFF#8
  | .unregslot _ _ _ d => d != 0xFF#8
  | .muxunreg _ => true
  | .regin _ d => d != 0xFF#8
  | .regout _ d => d != 0xFF#8
  | .unregin _ d => d != 0xFF#8
  | .unregout _ d => d != 0xFF#8
  | .destroy => true
  | .muxdestroy => true

/-- The constraints of 00_scope.md R5: NDEV is 1..255 and MUX_DEV is a device index of the machine. (That
MUX_BASE is a multiple of 16 is in the type of `muxBase`.) -/
def Config.wf (c : Config) : Bool :=
  1 ≤ c.nDev && c.nDev ≤ 255 && c.muxDev.val < c.nDev

end Sys2Proof
end

