-- ==== Sys2Proof/Decode.lean ====
section
/-! DEFINITION. Decode.lean: the trace-word encoding of 30_encoding.md R96 to R100, decoder and encoder.
The encoding is the spec's own (D24). Every word decodes on its own (R103). -/

namespace Sys2Proof

/-- The reasons a word is refused (30_encoding.md R100). -/
inductive DecodeError where
  /-- No operation has this `kind` and `sub`. -/
  | noSuchOperation
  /-- A bit that the operation's row requires to be zero is set. -/
  | mustBeZero
  /-- The device operand is 0xFF, NONE (R97). -/
  | noneOperand
  deriving DecidableEq, Repr

/-- The number of a coordinate, `{ps, ss, pg}` (30_encoding.md R96). -/
def Coord.number (c : Coord) : BitVec 6 := c.ps ++ c.ss ++ c.pg

/-! The four fields of a trace word (R98). -/

def Word.kind (w : Word) : BitVec 4 := w.extractLsb' 28 4
def Word.sub (w : Word) : BitVec 4 := w.extractLsb' 24 4
def Word.a (w : Word) : BitVec 16 := w.extractLsb' 8 16
def Word.d (w : Word) : BitVec 8 := w.extractLsb' 0 8

/-- A word from its four fields (R98). -/
def packWord (kind sub : BitVec 4) (a : BitVec 16) (d : BitVec 8) : Word := kind ++ sub ++ a ++ d

/-- A 16-bit operand that holds one byte in `a[7:0]` (R99). -/
def packByte (b : BitVec 8) : BitVec 16 := 0#8 ++ b

/-- A 16-bit operand that holds a coordinate in `a[5:0]` (R99). -/
def packCoord (ps ss pg : Quarter) : BitVec 16 := 0#10 ++ (Coord.number ⟨ps, ss, pg⟩)

/-- `x` if the operand bits are zero where the row says so, else a refusal (R99: every bit not covered by
a field must be zero). -/
def requireZero {n : Nat} (bits : BitVec n) (x : Except DecodeError Instr) : Except DecodeError Instr :=
  if bits = 0#n then x else .error .mustBeZero

/-- The byte in `a[7:0]`; `a[15:8]` must be zero. -/
def withByte (a : BitVec 16) (k : BitVec 8 → Except DecodeError Instr) : Except DecodeError Instr :=
  requireZero (a.extractLsb' 8 8) (k (a.extractLsb' 0 8))

/-- The coordinate in `a[5:0]`; `a[15:6]` must be zero. -/
def withCoord (a : BitVec 16) (k : Quarter → Quarter → Quarter → Except DecodeError Instr) :
    Except DecodeError Instr :=
  requireZero (a.extractLsb' 6 10) (k (a.extractLsb' 4 2) (a.extractLsb' 2 2) (a.extractLsb' 0 2))

/-- A device operand; 0xFF is refused (R97, R100). -/
def requireDevice (i : Instr) : Except DecodeError Instr :=
  if i.wf then .ok i else .error .noneOperand

/-- The table of 30_encoding.md R99, on the four fields of a word. -/
def decodeFields (kind sub : BitVec 4) (a : BitVec 16) (d : BitVec 8) : Except DecodeError Instr :=
  match sub.toNat, kind.toNat with
  | 0, 0x0 => requireZero d (.ok (.mrd a))
  | 0, 0x1 => .ok (.mwr a d)
  | 0, 0x2 => requireZero d (withByte a fun p => .ok (.iord p))
  | 0, 0x3 => withByte a fun p => .ok (.iowr p d)
  | 0, 0x4 => requireZero a (requireZero d (.ok .irqst))
  | 0, 0x5 => requireZero a (requireZero d (.ok .irqup))
  | 0, 0x6 => requireZero a (requireZero d (.ok .irqdn))
  | 0, 0x7 => requireZero a (.ok (.psw d))
  | 0, 0x8 => requireZero a (requireZero d (.ok .rst))
  | 1, 0x8 => requireZero a (requireZero d (.ok .muxrst))
  | 0, 0x9 => withCoord a fun ps ss pg => requireDevice (.regslot ps ss pg d)
  | 1, 0x9 => withByte a fun id => requireDevice (.muxreg id d)
  | 0, 0xA => withCoord a fun ps ss pg => requireDevice (.unregslot ps ss pg d)
  | 1, 0xA => requireZero d (withByte a fun id => .ok (.muxunreg id))
  | 0, 0xB => withByte a fun p => requireDevice (.regin p d)
  | 0, 0xC => withByte a fun p => requireDevice (.regout p d)
  | 0, 0xD => withByte a fun p => requireDevice (.unregin p d)
  | 0, 0xE => withByte a fun p => requireDevice (.unregout p d)
  | 0, 0xF => requireZero a (requireZero d (.ok .destroy))
  | 1, 0xF => requireZero a (requireZero d (.ok .muxdestroy))
  | _, _ => .error .noSuchOperation

/-- The operation a trace word spells, or the reason it spells none (R99, R100). -/
def decode (w : Word) : Except DecodeError Instr :=
  decodeFields (Word.kind w) (Word.sub w) (Word.a w) (Word.d w)

/-- The trace word of an operation (30_encoding.md R99). -/
def encode : Instr → Word
  | .mrd addr => packWord 0x0 0 addr 0
  | .mwr addr v => packWord 0x1 0 addr v
  | .iord p => packWord 0x2 0 (packByte p) 0
  | .iowr p v => packWord 0x3 0 (packByte p) v
  | .irqst => packWord 0x4 0 0 0
  | .irqup => packWord 0x5 0 0 0
  | .irqdn => packWord 0x6 0 0 0
  | .psw v => packWord 0x7 0 0 v
  | .rst => packWord 0x8 0 0 0
  | .muxrst => packWord 0x8 1 0 0
  | .regslot ps ss pg d => packWord 0x9 0 (packCoord ps ss pg) d
  | .muxreg id s => packWord 0x9 1 (packByte id) s
  | .unregslot ps ss pg d => packWord 0xA 0 (packCoord ps ss pg) d
  | .muxunreg id => packWord 0xA 1 (packByte id) 0
  | .regin p d => packWord 0xB 0 (packByte p) d
  | .regout p d => packWord 0xC 0 (packByte p) d
  | .unregin p d => packWord 0xD 0 (packByte p) d
  | .unregout p d => packWord 0xE 0 (packByte p) d
  | .destroy => packWord 0xF 0 0 0
  | .muxdestroy => packWord 0xF 1 0 0

/-- One row of the table of 30_encoding.md R99: the bits that must match, and their values. -/
structure OpcodeRow where
  mnemonic : String
  bits : Word
  mask : Word
  /-- The low byte is a device operand, for which 0xFF is refused (R100). -/
  device : Bool
  deriving DecidableEq, Repr

/-- The rows of 30_encoding.md R99 with `match` and `mask` as the table prints them. -/
def opcodeRows : List OpcodeRow :=
  [⟨"MRD", 0x00000000, 0xFF0000FF, false⟩, ⟨"MWR", 0x10000000, 0xFF000000, false⟩,
   ⟨"IORD", 0x20000000, 0xFFFF00FF, false⟩, ⟨"IOWR", 0x30000000, 0xFFFF0000, false⟩,
   ⟨"IRQST", 0x40000000, 0xFFFFFFFF, false⟩, ⟨"IRQUP", 0x50000000, 0xFFFFFFFF, false⟩,
   ⟨"IRQDN", 0x60000000, 0xFFFFFFFF, false⟩, ⟨"PSW", 0x70000000, 0xFFFFFF00, false⟩,
   ⟨"RST", 0x80000000, 0xFFFFFFFF, false⟩, ⟨"MUXRST", 0x81000000, 0xFFFFFFFF, false⟩,
   ⟨"REGSLOT", 0x90000000, 0xFFFFC000, true⟩, ⟨"MUXREG", 0x91000000, 0xFFFF0000, true⟩,
   ⟨"UNREGSLOT", 0xA0000000, 0xFFFFC000, true⟩, ⟨"MUXUNREG", 0xA1000000, 0xFFFF00FF, false⟩,
   ⟨"REGIN", 0xB0000000, 0xFFFF0000, true⟩, ⟨"REGOUT", 0xC0000000, 0xFFFF0000, true⟩,
   ⟨"UNREGIN", 0xD0000000, 0xFFFF0000, true⟩, ⟨"UNREGOUT", 0xE0000000, 0xFFFF0000, true⟩,
   ⟨"DESTROY", 0xF0000000, 0xFFFFFFFF, false⟩, ⟨"MUXDESTROY", 0xF1000000, 0xFFFFFFFF, false⟩]

/-- A word matches a row: the masked bits have the row's values (R99) and a device operand is not
0xFF (R100). -/
def OpcodeRow.matches (r : OpcodeRow) (w : Word) : Bool :=
  (w &&& r.mask == r.bits) && !(r.device && Word.d w == 0xFF#8)

/-- The name of an operation in 30_encoding.md R91 and spec/opcode_table.json. -/
def Instr.mnemonic : Instr → String
  | .mrd _ => "MRD"
  | .mwr _ _ => "MWR"
  | .iord _ => "IORD"
  | .iowr _ _ => "IOWR"
  | .irqst => "IRQST"
  | .irqup => "IRQUP"
  | .irqdn => "IRQDN"
  | .psw _ => "PSW"
  | .rst => "RST"
  | .muxrst => "MUXRST"
  | .regslot _ _ _ _ => "REGSLOT"
  | .muxreg _ _ => "MUXREG"
  | .unregslot _ _ _ _ => "UNREGSLOT"
  | .muxunreg _ => "MUXUNREG"
  | .regin _ _ => "REGIN"
  | .regout _ _ => "REGOUT"
  | .unregin _ _ => "UNREGIN"
  | .unregout _ _ => "UNREGOUT"
  | .destroy => "DESTROY"
  | .muxdestroy => "MUXDESTROY"

/-- The 32-bit word that the low `nbits` bits of `w` give, the bits above zero. -/
def tableWord (nbits w : Nat) : Word := BitVec.ofNat 32 (w % 2 ^ nbits)

/-- What the decoder reads from a word numbered as spec/opcode_table.json numbers it: one 32-bit trace
word (R98), never stored as bytes by the hardware (log 1). -/
def decodeTableWord (nbits w : Nat) : Option Instr :=
  match decode (tableWord nbits w) with
  | .ok i => some i
  | .error _ => none

/-! The pseudo-operations of 30_encoding.md R102, each a list of the operations it spells. -/

/-- `SSW v`. -/
def pseudoSsw (v : Byte) : List Instr := [.mwr Config.ssrAddr v]

/-- `SSRD`. -/
def pseudoSsrd : List Instr := [.mrd Config.ssrAddr]

/-- The pages `first..last` in ascending order. -/
def pageRange (first last : Quarter) : List Quarter :=
  ((List.range 4).filter fun n => first.toNat ≤ n && n ≤ last.toNat).map (BitVec.ofNat 2)

/-- `REGMEM ps.ss, first..last, D`. -/
def pseudoRegmem (ps ss first last : Quarter) (d : DevRef) : List Instr :=
  (pageRange first last).map fun pg => .regslot ps ss pg d

/-- `UNREGMEM ps.ss, first..last, D`. -/
def pseudoUnregmem (ps ss first last : Quarter) (d : DevRef) : List Instr :=
  (pageRange first last).map fun pg => .unregslot ps ss pg d

/-- `REGIO port, D`. -/
def pseudoRegio (port : Port) (d : DevRef) : List Instr := [.regin port d, .regout port d]

/-- `UNREGIO port, D`. -/
def pseudoUnregio (port : Port) (d : DevRef) : List Instr := [.unregin port d, .unregout port d]

end Sys2Proof
end

