-- ==== Sys2Proof/Machine/State.lean ====
section
/-! DEFINITION. State.lean: everything the spec gives the machine (10_state.md R20), the device states a
model carries beside it (R36), the model's own bookkeeping, and the reasons a step stops. -/

namespace Sys2Proof.Machine

/-- The bytes of a RAM device: (address, byte) in rising order of address, no entry equal to what an
unlisted address reads as, 0x00 (95_test_vectors.md section 0). -/
abbrev Memory := List Host.Cell

/-- The record `Dev[d]` of an attached device: which behaviour it has, with its own state
(46_device_contract.md R236). The named ones are the test devices of 95_test_vectors.md section 0; an
external device is one of which nothing is known but the contract. -/
inductive Device where
  | const (c : Byte)
  | ram (m : Memory)
  | latch (last : Byte)
  | sel (last : Byte)
  | irqDev (p : Bool)
  | stub (p : Bool)
  | rstUp
  | both
  /-- An unspecified device; its state as a code (log 4). -/
  | external (st : Nat)
  deriving DecidableEq, Repr

/-- The record `Sub[j]` of a sub-device of the mux (45_switched_mux.md R221). -/
inductive SubDevice where
  /-- LOGSUB of 95_test_vectors.md section 0. -/
  | logSub (last : Byte) (log : List (Port × Byte))
  /-- An unspecified sub-device; its state as a code (log 4). -/
  | external (st : Nat)
  deriving DecidableEq, Repr

/-- The fatal codes (60_exceptions.md R261). -/
inductive FatalCode where
  /-- IRQDN with irqCount = 0. -/
  | irqUnderflow
  /-- UNREGIN by a device that is not the owner. -/
  | unregInNotOwner
  /-- UNREGOUT by a device that is not the owner. -/
  | unregOutNotOwner
  /-- UNREGSLOT by a device that is not the owner. -/
  | unregSlotNotOwner
  /-- DESTROY with a claim still registered. -/
  | destroyOutstanding
  /-- MUXUNREG of an id with no sub-device. -/
  | muxUnregUnknown
  /-- MUXDESTROY with an id still registered. -/
  | muxDestroyOutstanding
  deriving DecidableEq, Repr

/-- A diagnostic record `(code, key, owner, rejected)` (60_exceptions.md R262, 10_state.md R33); the
constructor is the code. -/
inductive DiagRecord where
  | dupIn (port : Port) (owner rejected : DevIndex)
  | dupOut (port : Port) (owner rejected : DevIndex)
  | dupSlot (coord : Coord) (owner rejected : DevIndex)
  | dupMuxId (id : Byte) (owner rejected : SubIndex)
  deriving DecidableEq, Repr

/-- A call on a device or sub-device, with the operands it receives (46_device_contract.md R235). -/
inductive DeviceCall (Time : Type := TraceTime) where
  | reset (d : DevIndex) (t : Time)
  | readMem (d : DevIndex) (addr : Addr) (t : Time)
  | writeMem (d : DevIndex) (addr : Addr) (v : Byte) (t : Time)
  | readIO (d : DevIndex) (port : Port) (t : Time)
  | writeIO (d : DevIndex) (port : Port) (v : Byte) (t : Time)
  | subReadIO (j : SubIndex) (port : Port) (t : Time)
  | subWriteIO (j : SubIndex) (port : Port) (v : Byte) (t : Time)
  deriving DecidableEq, Repr

/-- The value an operation hands back to its caller (30_encoding.md R91, column "returns"). -/
inductive Returned where
  | nothing
  | byte (b : Byte)
  | bool (b : Bool)
  deriving DecidableEq, Repr

/-- The SwitchedDeviceMux (10_state.md R41); `alive` until MUXDESTROY (45_switched_mux.md R219). -/
structure Mux where
  selector : Byte
  table : Vector (Option SubIndex) Config.muxIds
  alive : Bool
  deriving DecidableEq, Repr

/-- A word of the trace with the TimeStamp under which the driver issues it (30_encoding.md R98, 00_scope.md
R5, R8). -/
structure TraceWord (Time : Type := TraceTime) where
  word : Word
  time : Time
  deriving DecidableEq, Repr

/-- The state of the machine whose TimeStamps are of the type `Time`, a parameter (00_scope.md R5, D26). `State`
alone is the state of exec and step, `State TraceTime`. -/
structure State (Time : Type := TraceTime) where
  /-- SlotLayout (10_state.md R22), indexed by the number of the coordinate (30_encoding.md R96);
  `none` is NONE. -/
  slotLayout : Vector (Option DevIndex) Config.nPositions
  /-- SubslotFlag (10_state.md R23), a strap: no operation writes it. -/
  subslotFlag : Vector Bool Config.nPrimary
  /-- PSR (10_state.md R24). -/
  psr : Byte
  /-- SSR[0..3] (10_state.md R25). -/
  ssr : Vector Byte Config.nPrimary
  /-- IOIn (10_state.md R29). -/
  ioIn : Vector (Option DevIndex) Config.nPorts
  /-- IOOut (10_state.md R29). -/
  ioOut : Vector (Option DevIndex) Config.nPorts
  /-- irqCount (10_state.md R30). -/
  irqCount : Nat
  /-- ResetOrder (10_state.md R32). -/
  resetOrder : List DevIndex
  /-- diagLog (10_state.md R33), oldest first. -/
  diagLog : List DiagRecord
  /-- alive (10_state.md R34). -/
  alive : Bool
  /-- fault (10_state.md R34). -/
  fault : Option FatalCode
  /-- mux.selector, mux.table (10_state.md R41). -/
  mux : Mux
  /-- The open parameters (00_scope.md R5); no operation writes them. -/
  config : Config
  /-- The device records (10_state.md R36). The record at MUX_DEV is unused: that device is `mux`. -/
  devices : Vector Device 255
  /-- The sub-device records (45_switched_mux.md R221). -/
  subDevices : Vector SubDevice 255
  /-- The model's own: the TimeStamp of the operation in progress, the last one issued (30_encoding.md R98; log 2). -/
  now : Time
  /-- The model's own: the trace words not yet issued, each with its TimeStamp (30_encoding.md R98; log 1,
  log 2). -/
  pending : List (TraceWord Time)
  /-- The model's own: the value the last completed operation returned (00_scope.md R8; log 6). -/
  returned : Returned
  /-- The model's own: every call made on a device or sub-device, oldest first (log 7). -/
  callLog : List (DeviceCall Time)
  deriving DecidableEq, Repr

/-- The reason a step ends in a fault (00_scope.md R8). -/
inductive Fault (Time : Type := TraceTime) where
  /-- A fatal invariant violation (60_exceptions.md R261, R263), raised by IRQDN, UNREGIN, UNREGOUT,
  UNREGSLOT, DESTROY, MUXUNREG, MUXDESTROY, and by an IRQDN upcall inside MRD, MWR, IORD, IOWR or RST. It
  carries the state at the fault: `fault` holds the code, earlier assignments of the operation stand.
  Safe: the machine stops, as the spec says (D14, log 5). -/
  | fatal (code : FatalCode) (faulted : State Time)
  deriving DecidableEq, Repr

/-- The reason an operation has no step (00_scope.md R8: "an operation that is not admitted at all"). -/
inductive Refusal where
  /-- Raised by exec for an operation without a meaning; none is left. Safe. -/
  | notModelled (mnemonic : String)
  /-- Raised by step: the word spells no operation (30_encoding.md R100, U8). Safe. -/
  | illegalWord (e : DecodeError)
  /-- Raised by REGSLOT, UNREGSLOT, REGIN, REGOUT, UNREGIN, UNREGOUT, MUXREG: the device operand is NONE
  (30_encoding.md R97). Safe. -/
  | noneOperand
  /-- Raised by the same operations but MUXREG: the operand is no device index 0..NDEV-1
  (44_configuration.md R197; log 10). Safe. -/
  | noSuchDevice
  /-- Raised by MRD and MWR when the visible device is the mux, whose memory methods are left undefined
  (45_switched_mux.md R210, U11; log 11). Safe. -/
  | muxMemory
  /-- Raised by MUXREG, MUXUNREG, MUXRST, MUXDESTROY after MUXDESTROY (45_switched_mux.md R219). Safe. -/
  | muxDestroyed
  /-- Raised by step, and by the reset of a sub-device from outside (log 31), while `fault` is set (10_state.md
  R34, U12). Safe. -/
  | blockFaulted (code : FatalCode)
  /-- Raised by step, and by the reset of a sub-device from outside (log 31), after DESTROY (10_state.md R34,
  U12). Safe. -/
  | blockDestroyed
  /-- Raised by step when no trace word is left: the trace has ended (70_reset_and_hazards.md R302;
  log 9). Safe. -/
  | traceEnded
  deriving DecidableEq, Repr

/-- A newly constructed mux (70_reset_and_hazards.md R286). -/
def Mux.reset : Mux where
  selector := 0
  table := Vector.replicate Config.muxIds none
  alive := true

/-- The parameters of State.reset: the conventions of 95_test_vectors.md section 0 and, for NDEV, the
largest value 00_scope.md R5 admits (DESIGN CHOICE, log 3). -/
def resetConfig : Config where
  nDev := 255
  irqCountMax := none
  muxBase := 0x4
  muxDev := 0x10

/-- The construction state (70_reset_and_hazards.md R286, 10_state.md R40), in which every register also
has its value after RST; `t` is the value of the model's own `now`. The straps and the devices are DESIGN
CHOICE (log 3, log 4); the model's own fields are DESIGN CHOICE (log 1, log 2, log 6, log 7). -/
def State.construction {Time : Type} (t : Time) : State Time where
  slotLayout := Vector.replicate Config.nPositions none
  subslotFlag := Vector.replicate Config.nPrimary false
  psr := Config.selectDefault
  ssr := Vector.replicate Config.nPrimary 0x00#8
  ioIn := Vector.replicate Config.nPorts none
  ioOut := Vector.replicate Config.nPorts none
  irqCount := 0
  resetOrder := []
  diagLog := []
  alive := true
  fault := none
  mux := Mux.reset
  config := resetConfig
  devices := Vector.replicate 255 (.external 0)
  subDevices := Vector.replicate 255 (.external 0)
  now := t
  pending := []
  returned := .nothing
  callLog := []

/-- The construction state at the TimeStamps of exec and step, before TimeStamp 1 (30_encoding.md R98; log 2). -/
def State.reset : State := State.construction 0

end Sys2Proof.Machine
end

