-- ==== Sys2Proof/Machine/Flags.lean ====
section
/-! DEFINITION. Flags.lean: the block's one status output (10_state.md R31). -/

namespace Sys2Proof.Machine

variable {Time : Type}

/-- `IRQ = (irqCount > 0)`: level, not edge (10_state.md R31). -/
def State.irq (s : State Time) : Bool := decide (0 < s.irqCount)

end Sys2Proof.Machine
end

