-- ==== Sys2Proof/Machine/Operands.lean ====
section
/-! DEFINITION. Operands.lean: the decode functions every access uses (20_memory.md R61, R62, R65;
10_state.md R26) and the reading of a device operand (30_encoding.md R97). -/

namespace Sys2Proof.Machine

variable {Time : Type}

/-- `page(addr) = addr[15:14]` (20_memory.md R61). -/
def page (addr : Addr) : Quarter := addr.extractLsb' Config.pageShift 2

/-- The field `r[2*pg+1 : 2*pg]` of a select register (10_state.md R24, R25). -/
def selectField (r : Byte) (pg : Quarter) : Quarter := r.extractLsb' (2 * pg.toNat) 2

/-- `SlotLayout[ps][ss][pg]` (10_state.md R22). -/
def State.slotAt (s : State Time) (c : Coord) : Option DevIndex := s.slotLayout[c.number.toNat]'c.number.isLt

/-- `SubslotFlag[ps]` (10_state.md R23). -/
def State.flagAt (s : State Time) (ps : Quarter) : Bool := s.subslotFlag[ps.toNat]'ps.isLt

/-- `SSR[ps]` (10_state.md R25). -/
def State.ssrAt (s : State Time) (ps : Quarter) : Byte := s.ssr[ps.toNat]'ps.isLt

/-- `IOIn[port]` (10_state.md R29). -/
def State.inAt (s : State Time) (port : Port) : Option DevIndex := s.ioIn[port.toNat]'port.isLt

/-- `IOOut[port]` (10_state.md R29). -/
def State.outAt (s : State Time) (port : Port) : Option DevIndex := s.ioOut[port.toNat]'port.isLt

/-- `mux.table[id]` (10_state.md R41). -/
def State.subAt (s : State Time) (id : Byte) : Option SubIndex := s.mux.table[id.toNat]'id.isLt

/-- The record `Dev[d]`. -/
def State.deviceAt (s : State Time) (d : DevIndex) : Device := s.devices[d.val]

/-- The record `Sub[j]`. -/
def State.subDeviceAt (s : State Time) (j : SubIndex) : SubDevice := s.subDevices[j.val]

/-- `primary(pg)` (10_state.md R26). -/
def State.primary (s : State Time) (pg : Quarter) : Quarter := selectField s.psr pg

/-- `secondary(pg)` (10_state.md R26): 0 for a slot that is not subslotted (D8). -/
def State.secondary (s : State Time) (pg : Quarter) : Quarter :=
  if s.flagAt (s.primary pg) then selectField (s.ssrAt (s.primary pg)) pg else 0

/-- The coordinate that page `pg` shows. -/
def State.coordOf (s : State Time) (pg : Quarter) : Coord := ⟨s.primary pg, s.secondary pg, pg⟩

/-- `visible(pg)` (10_state.md R26). -/
def State.visible (s : State Time) (pg : Quarter) : Option DevIndex := s.slotAt (s.coordOf pg)

/-- The primary slot selected for page 3, whose SSR address 0xFFFF reaches (20_memory.md R65, D6). -/
def State.primary3 (s : State Time) : Quarter := s.primary 3

/-- `Intercept(addr)` (20_memory.md R65). -/
def State.intercept (s : State Time) (addr : Addr) : Bool :=
  addr == Config.ssrAddr && s.flagAt s.primary3

/-- `ResolveMem(addr)` (20_memory.md R62). -/
def State.resolveMem (s : State Time) (addr : Addr) : Option DevIndex := s.visible (page addr)

/-- The offset of a port in the mux window, `port[3:0]` (30_encoding.md R95, D28). -/
def windowOffset (port : Port) : BitVec 4 := port.extractLsb' 0 4

/-- The port `MUX_BASE + i`; MUX_BASE is a multiple of 16 (45_switched_mux.md R220). -/
def windowPort (c : Config) (i : BitVec 4) : Port := c.muxBase ++ i

/-- The offsets of the window in ascending order (45_switched_mux.md R211). -/
def windowOffsets : List (BitVec 4) := (List.range Config.muxWindow).map (BitVec.ofNat 4)

/-- The index a device operand names, if it is not NONE (30_encoding.md R97). -/
def deviceIndex (d : DevRef) : Option DevIndex :=
  if h : d.toNat < 255 then some ⟨d.toNat, h⟩ else none

end Sys2Proof.Machine
end

