-- ==== Sys2Proof/Machine/Ops.lean ====
section
/-! DEFINITION. Ops.lean: the named operations over the cells of a RAM, the registers and the tables; the
one way to raise a fatal (60_exceptions.md R263); upcalls (20_memory.md R81); claims and ResetOrder
(44_configuration.md R192, R193). -/

namespace Sys2Proof.Machine

variable {Time : Type}

/-! ## The cells of a RAM device (95_test_vectors.md section 0) -/

/-- What an address that is not listed reads as ("0x00 if never written"). -/
def Memory.unwritten : Byte := 0x00#8

/-- The byte at address `a`. -/
def Memory.read : Memory → Nat → Byte
  | [], _ => Memory.unwritten
  | (b, w) :: m, a => if a = b then w else Memory.read m a

/-- Store `v` at `a`, keeping the canonical form. -/
def Memory.write : Memory → Nat → Byte → Memory
  | [], a, v => if v = Memory.unwritten then [] else [(a, v)]
  | (b, w) :: m, a, v =>
    if a < b then (if v = Memory.unwritten then (b, w) :: m else (a, v) :: (b, w) :: m)
    else if a = b then (if v = Memory.unwritten then m else (b, v) :: m)
    else (b, w) :: Memory.write m a v

/-- The canonical form above address `lo`: rising addresses, no entry equal to the unwritten value. -/
def Memory.wfFrom : Nat → Memory → Bool
  | _, [] => true
  | lo, (b, w) :: m => decide (lo ≤ b) && decide (b < 65536) && (w != Memory.unwritten) && Memory.wfFrom (b + 1) m

/-- The canonical form of a RAM's cells. -/
def Memory.wf (m : Memory) : Bool := Memory.wfFrom 0 m

/-- The canonical form of a device's memory; only RAM has one. -/
def Device.memoryWf : Device → Bool
  | .ram m => Memory.wf m
  | _ => true

/-! ## Outcomes -/

/-- The outcome of one operation. -/
abbrev Result (Time : Type := TraceTime) := Host.Outcome (State Time) (Fault Time) Refusal

/-- Go on with `k` if the first part gives a next state; a fault or a refusal stops the operation. -/
def andThen (r : Result Time) (k : State Time → Result Time) : Result Time :=
  match r with
  | .next s => k s
  | .fault f => .fault f
  | .refused q => .refused q

/-! ## Registers and tables -/

def State.setSlot (s : State Time) (c : Coord) (d : Option DevIndex) : State Time :=
  { s with slotLayout := s.slotLayout.set c.number.toNat d c.number.isLt }
def State.setPsr (s : State Time) (v : Byte) : State Time := { s with psr := v }
def State.setSsr (s : State Time) (ps : Quarter) (v : Byte) : State Time := { s with ssr := s.ssr.set ps.toNat v ps.isLt }
def State.clearSsr (s : State Time) : State Time := { s with ssr := Vector.replicate Config.nPrimary 0x00#8 }
def State.setIn (s : State Time) (port : Port) (d : Option DevIndex) : State Time :=
  { s with ioIn := s.ioIn.set port.toNat d port.isLt }
def State.setOut (s : State Time) (port : Port) (d : Option DevIndex) : State Time :=
  { s with ioOut := s.ioOut.set port.toNat d port.isLt }
def State.setIrqCount (s : State Time) (n : Nat) : State Time := { s with irqCount := n }
def State.setResetOrder (s : State Time) (l : List DevIndex) : State Time := { s with resetOrder := l }
/-- `diag(code, …)`: append one record; the operation continues (00_scope.md R7). -/
def State.logDiag (s : State Time) (r : DiagRecord) : State Time := { s with diagLog := s.diagLog ++ [r] }
def State.setAlive (s : State Time) (b : Bool) : State Time := { s with alive := b }
def State.setFault (s : State Time) (f : Option FatalCode) : State Time := { s with fault := f }
def State.setSelector (s : State Time) (v : Byte) : State Time := { s with mux := { s.mux with selector := v } }
def State.setSub (s : State Time) (id : Byte) (j : Option SubIndex) : State Time :=
  { s with mux := { s.mux with table := s.mux.table.set id.toNat j id.isLt } }
def State.setMuxAlive (s : State Time) (b : Bool) : State Time := { s with mux := { s.mux with alive := b } }
def State.setDevice (s : State Time) (d : DevIndex) (dev : Device) : State Time :=
  { s with devices := s.devices.set d.val dev }
def State.setSubDevice (s : State Time) (j : SubIndex) (dev : SubDevice) : State Time :=
  { s with subDevices := s.subDevices.set j.val dev }
/-- Record a call made on a device (log 7). -/
def State.logCall (s : State Time) (c : DeviceCall Time) : State Time := { s with callLog := s.callLog ++ [c] }
def State.setReturned (s : State Time) (r : Returned) : State Time := { s with returned := r }

/-- An operation that returns nothing completes. -/
def finish (s : State Time) : Result Time := .next (s.setReturned .nothing)

/-- `return v` of a byte (00_scope.md R7). -/
def answer (v : Byte) (s : State Time) : Result Time := .next (s.setReturned (.byte v))

/-- `return b` of a boolean (00_scope.md R7). -/
def answerBool (b : Bool) (s : State Time) : Result Time := .next (s.setReturned (.bool b))

/-- `raise Fatal(code)` (60_exceptions.md R263): `fault` is set to the code, nothing else is assigned, and
the machine stops there; there is no handler, no saved state and no return (R268). -/
def raiseFatal (code : FatalCode) (s : State Time) : Result Time := .fault (.fatal code (s.setFault (some code)))

/-- Why no operation has a step: a fault is set, or the block was destroyed (10_state.md R34). -/
def State.blocked (s : State Time) : Option Refusal :=
  match s.fault with
  | some c => some (.blockFaulted c)
  | none => if s.alive then none else some .blockDestroyed

/-! ## The interrupt counter (43_interrupt_aggregator.md R170, R171) -/

/-- The count after a raise: absorbed at IRQ_COUNT_MAX, never if unbounded (R170, R176). -/
def raisedCount (bound : Option Nat) (n : Nat) : Nat :=
  match bound with
  | none => n + 1
  | some m => if n < m then n + 1 else n

/-- The body of IRQUP (R170). -/
def raiseIrq (s : State Time) : State Time := s.setIrqCount (raisedCount s.config.irqCountMax s.irqCount)

/-- The body of IRQDN (R171): lowering at count 0 is fatal. -/
def lowerIrq (s : State Time) : Result Time :=
  if s.irqCount = 0 then raiseFatal .irqUnderflow s else .next (s.setIrqCount (s.irqCount - 1))

/-! ## Upcalls (20_memory.md R81) -/

def runUpcall (u : Upcall) (s : State Time) : Result Time :=
  match u with
  | .irqUp => .next (raiseIrq s)
  | .irqDn => lowerIrq s
  | .psw v => .next (s.setPsr v)

/-- The upcalls of one device call, in the order issued, applied when the call returns (R81). -/
def runUpcalls : List Upcall → State Time → Result Time
  | [], s => .next s
  | u :: us, s => andThen (runUpcall u s) (runUpcalls us)

/-- The count after a list of upcalls, `none` if one of them lowers at 0 (R170, R171). -/
def countAfter (bound : Option Nat) : List Upcall → Nat → Option Nat
  | [], n => some n
  | .irqUp :: us, n => countAfter bound us (raisedCount bound n)
  | .irqDn :: us, n => if n = 0 then none else countAfter bound us (n - 1)
  | .psw _ :: us, n => countAfter bound us n

/-- PSR after a list of upcalls: the last PSW wins (R81, R140). -/
def psrAfter : List Upcall → Byte → Byte
  | [], v => v
  | .irqUp :: us, v => psrAfter us v
  | .irqDn :: us, v => psrAfter us v
  | .psw w :: us, _ => psrAfter us w

/-! ## Device operands, claims and ResetOrder (44_configuration.md) -/

/-- Go on with the device an operand names: NONE is refused (30_encoding.md R97), and so is an operand
that is no device index 0..NDEV-1 (R197; log 10). -/
def withDevice (d : DevRef) (s : State Time) (k : DevIndex → Result Time) : Result Time :=
  match deviceIndex d with
  | none => .refused .noneOperand
  | some i => if i.val < s.config.nDev then k i else .refused .noSuchDevice

/-- `Owns(d)`: the number of entries of SlotLayout, IOIn and IOOut equal to `d` (R193). -/
def State.owns (s : State Time) (d : DevIndex) : Nat :=
  s.slotLayout.toList.count (some d) + s.ioIn.toList.count (some d) + s.ioOut.toList.count (some d)

/-- A device that owned nothing goes to the end of ResetOrder at its first claim (R193). -/
def State.enroll (s : State Time) (d : DevIndex) : State Time :=
  if s.owns d = 0 then s.setResetOrder (s.resetOrder ++ [d]) else s

/-- A device that owns nothing any more leaves ResetOrder (R193). -/
def State.strike (s : State Time) (d : DevIndex) : State Time :=
  if s.owns d = 0 then s.setResetOrder (s.resetOrder.filter fun e => e ≠ d) else s

/-- The body of REGIN (R185): the first owner keeps the port, a second is reported (R192). -/
def claimIn (port : Port) (d : DevIndex) (s : State Time) : State Time :=
  match s.inAt port with
  | some owner => s.logDiag (.dupIn port owner d)
  | none => (s.enroll d).setIn port (some d)

/-- The body of REGOUT (R186). -/
def claimOut (port : Port) (d : DevIndex) (s : State Time) : State Time :=
  match s.outAt port with
  | some owner => s.logDiag (.dupOut port owner d)
  | none => (s.enroll d).setOut port (some d)

/-- The body of REGSLOT (R189). -/
def claimSlot (c : Coord) (d : DevIndex) (s : State Time) : State Time :=
  match s.slotAt c with
  | some owner => s.logDiag (.dupSlot c owner d)
  | none => (s.enroll d).setSlot c (some d)

/-- The body of UNREGIN (R187): only the owner may release. -/
def releaseIn (port : Port) (d : DevIndex) (s : State Time) : Result Time :=
  if s.inAt port = some d then .next ((s.setIn port none).strike d) else raiseFatal .unregInNotOwner s

/-- The body of UNREGOUT (R188). -/
def releaseOut (port : Port) (d : DevIndex) (s : State Time) : Result Time :=
  if s.outAt port = some d then .next ((s.setOut port none).strike d) else raiseFatal .unregOutNotOwner s

/-- The body of UNREGSLOT (R190). -/
def releaseSlot (c : Coord) (d : DevIndex) (s : State Time) : Result Time :=
  if s.slotAt c = some d then .next ((s.setSlot c none).strike d) else raiseFatal .unregSlotNotOwner s

/-- Some claim is still registered: the test of R191's pseudocode, which does not look at the mux's table. Corner case
(c) says that this table must be empty too; where they differ, DESIGN CHOICE, log 30: the pseudocode. -/
def State.hasClaims (s : State Time) : Bool :=
  s.slotLayout.toList.any Option.isSome || s.ioIn.toList.any Option.isSome || s.ioOut.toList.any Option.isSome

/-! ## The mux window (45_switched_mux.md R211, R212, R217, R218) -/

/-- Some table entry is present; `windowClaimed` is this (10_state.md R41, R217). -/
def State.muxOccupied (s : State Time) : Bool := s.mux.table.toList.any Option.isSome

/-- REGIN then REGOUT of the window port at offset `i`, in the name of the mux (R211). -/
def claimWindowPort (s : State Time) (i : BitVec 4) : State Time :=
  claimOut (windowPort s.config i) s.config.muxDev (claimIn (windowPort s.config i) s.config.muxDev s)

/-- The 32 claims, ascending port, In before Out (R211, D29). -/
def claimWindow (s : State Time) : State Time := windowOffsets.foldl claimWindowPort s

/-- UNREGIN then UNREGOUT of the window ports at the given offsets; the first fatal stops the rest
(R212, R218, 60_exceptions.md R267). -/
def releasePorts : List (BitVec 4) → State Time → Result Time
  | [], s => .next s
  | i :: is, s =>
    andThen (releaseIn (windowPort s.config i) s.config.muxDev s) fun s1 =>
    andThen (releaseOut (windowPort s1.config i) s1.config.muxDev s1) fun s2 =>
    releasePorts is s2

def releaseWindow (s : State Time) : Result Time := releasePorts windowOffsets s

/-- The MUX* operations are refused once the mux has ceased to exist (R219). -/
def withMux (s : State Time) (k : State Time → Result Time) : Result Time :=
  if s.mux.alive then k s else .refused .muxDestroyed

end Sys2Proof.Machine
end

