-- ==== Sys2Proof/Machine/Devices.lean ====
section
/-! DEFINITION. Devices.lean: what each device record answers to a call of the contract
(46_device_contract.md R235, R236). The named devices are those of 95_test_vectors.md section 0; an
external device answers by the uninterpreted functions of Config. -/

namespace Sys2Proof.Machine

variable {Time : Type} [LinearOrder Time]

/-- A device that only answers a byte. -/
def Device.says (dev : Device) (v : Byte) : Answer Device := ⟨v, dev, []⟩

/-- A device that ignores a call. -/
def Device.ignores (dev : Device) : Effect Device := ⟨dev, []⟩

def externalAnswer (a : Answer Nat) : Answer Device := ⟨a.value, .external a.device, a.upcalls⟩
def externalEffect (e : Effect Nat) : Effect Device := ⟨.external e.device, e.upcalls⟩

/-- A request bit as a byte: 0x00 or 0x01. -/
def bitByte (p : Bool) : Byte := if p then 0x01#8 else 0x00#8

/-- `writeIO` of IRQDEV and STUB on the request bit: the new bit, and a raise or a lower when it
changes. -/
def requestWrite (p : Bool) (v : Byte) : Effect Bool :=
  match v.getLsbD 0, p with
  | true, false => ⟨true, [.irqUp]⟩
  | false, true => ⟨false, [.irqDn]⟩
  | _, _ => ⟨p, []⟩

/-- `Dev[d].readMem(addr, t)`. The memory methods of IRQDEV and STUB are not given: a free byte
(log 17). -/
def Device.readMem (dev : Device) (d : DevIndex) (addr : Addr) (t : Time) : Answer Device :=
  match dev with
  | .const c => dev.says c
  | .ram m => dev.says (Memory.read m addr.toNat)
  | .latch _ => dev.says Config.floatByte
  | .sel _ => dev.says Config.floatByte
  | .irqDev _ => dev.says (Config.freeMemByte d addr t)
  | .stub _ => dev.says (Config.freeMemByte d addr t)
  | .rstUp => dev.says 0xFF#8
  | .both => dev.says 0xFF#8
  | .external st => externalAnswer (Config.extReadMem d st addr t)

/-- `Dev[d].writeMem(addr, v, t)`. -/
def Device.writeMem (dev : Device) (d : DevIndex) (addr : Addr) (v : Byte) (t : Time) : Effect Device :=
  match dev with
  | .ram m => ⟨.ram (Memory.write m addr.toNat v), []⟩
  | .external st => externalEffect (Config.extWriteMem d st addr v t)
  | .const _ | .latch _ | .sel _ | .irqDev _ | .stub _ | .rstUp | .both => dev.ignores

/-- `Dev[d].readIO(port, t)`. -/
def Device.readIO (dev : Device) (d : DevIndex) (port : Port) (t : Time) : Answer Device :=
  match dev with
  | .const c => dev.says c
  | .ram _ => dev.says 0xFF#8
  | .latch last => dev.says last
  | .sel last => dev.says last
  | .irqDev p => dev.says (bitByte p)
  | .stub p => dev.says (bitByte p)
  | .rstUp => dev.says 0xFF#8
  | .both => dev.says 0xFF#8
  | .external st => externalAnswer (Config.extReadIO d st port t)

/-- `Dev[d].writeIO(port, v, t)`. -/
def Device.writeIO (dev : Device) (d : DevIndex) (port : Port) (v : Byte) (t : Time) : Effect Device :=
  match dev with
  | .const _ | .ram _ | .rstUp => dev.ignores
  | .latch _ => ⟨.latch v, []⟩
  | .sel _ => ⟨.sel v, [.psw v]⟩
  | .irqDev p => ⟨.irqDev (requestWrite p v).device, (requestWrite p v).upcalls⟩
  | .stub p => ⟨.stub (requestWrite p v).device, (requestWrite p v).upcalls⟩
  | .both => ⟨.both, [.irqUp, .psw v, .irqUp, .irqDn]⟩
  | .external st => externalEffect (Config.extWriteIO d st port v t)

/-- `Dev[d].reset(t)`. -/
def Device.reset (dev : Device) (d : DevIndex) (t : Time) : Effect Device :=
  match dev with
  | .const _ | .ram _ | .stub _ | .both => dev.ignores
  | .latch _ => ⟨.latch 0x00#8, []⟩
  | .sel _ => ⟨.sel 0x00#8, []⟩
  | .irqDev p => if p then ⟨.irqDev false, [.irqDn]⟩ else ⟨.irqDev false, []⟩
  | .rstUp => ⟨.rstUp, [.irqUp, .psw 0xFF#8]⟩
  | .external st => externalEffect (Config.extReset d st t)

/-- `Sub[j].readIO(port, t)` (45_switched_mux.md R221). -/
def SubDevice.readIO (dev : SubDevice) (j : SubIndex) (port : Port) (t : Time) : Answer SubDevice :=
  match dev with
  | .logSub last log => ⟨last, .logSub last log, []⟩
  | .external st =>
    let a := Config.subReadIO j st port t
    ⟨a.value, .external a.device, a.upcalls⟩

/-- `Sub[j].writeIO(port, v, t)` (45_switched_mux.md R221). -/
def SubDevice.writeIO (dev : SubDevice) (j : SubIndex) (port : Port) (v : Byte) (t : Time) : Effect SubDevice :=
  match dev with
  | .logSub _ log => ⟨.logSub v (log ++ [(port, v)]), []⟩
  | .external st =>
    let e := Config.subWriteIO j st port v t
    ⟨.external e.device, e.upcalls⟩

/-- `Sub[j].reset(t)`, a parameter (45_switched_mux.md R222, 93_implementation_defined.md U21). LOGSUB is
"never reset" (95_test_vectors.md section 0): its record ignores the call. -/
def SubDevice.reset (dev : SubDevice) (j : SubIndex) (t : Time) : Effect SubDevice :=
  match dev with
  | .logSub last log => ⟨.logSub last log, []⟩
  | .external st =>
    let e := Config.subReset j st t
    ⟨.external e.device, e.upcalls⟩

end Sys2Proof.Machine
end

