-- ==== Sys2Proof/Machine/Forward.lean ====
section
/-! DEFINITION. Forward.lean: the calls the bus makes on a device (20_memory.md R69, R81), the mux as a
device (45_switched_mux.md R213 to R215) and the calls the mux makes on a sub-device. -/

namespace Sys2Proof.Machine

variable {Time : Type}

/-- What a top-level device's answer to a call that returns nothing does: its state, then its upcalls. -/
def applyEffect (d : DevIndex) (e : Effect Device) (s : State Time) : Result Time :=
  runUpcalls e.upcalls (s.setDevice d e.device)

/-- The same for a sub-device. -/
def applySubEffect (j : SubIndex) (e : Effect SubDevice) (s : State Time) : Result Time :=
  runUpcalls e.upcalls (s.setSubDevice j e.device)

/-- `return Sub[j].readIO(port, t)`. -/
def callSubReadIO [LinearOrder Time] (j : SubIndex) (port : Port) (s : State Time) : Result Time :=
  let r := (s.subDeviceAt j).readIO j port s.now
  andThen (applySubEffect j ⟨r.device, r.upcalls⟩ (s.logCall (.subReadIO j port s.now))) (answer r.value)

/-- `Sub[j].writeIO(port, v, t)`. -/
def callSubWriteIO [LinearOrder Time] (j : SubIndex) (port : Port) (v : Byte) (s : State Time) : Result Time :=
  andThen (applySubEffect j ((s.subDeviceAt j).writeIO j port v s.now) (s.logCall (.subWriteIO j port v s.now)))
    finish

/-- `Sub[j].reset(t)` by whoever resets sub-devices: the spec names no such agent and no operation of the bus or
of the mux does it (45_switched_mux.md R222, 91_not_in_source.md N14). The spec does not say with which
TimeStamp either: DESIGN CHOICE, log 29: it is an argument. Nor does it say whether the call acts while `fault` is
set or after DESTROY, when the upcalls it makes, being operations, have no step (10_state.md R34): DESIGN CHOICE,
log 31: it is refused as an operation is, so that `fault` keeps its code. -/
def resetSubDevice [LinearOrder Time] (j : SubIndex) (t : Time) (s : State Time) : Result Time :=
  match s.blocked with
  | some r => .refused r
  | none => applySubEffect j ((s.subDeviceAt j).reset j t) s

/-- `MUX.readIO(port, t)` (R215): any offset goes to the selected sub-device, else the bus floats. -/
def muxReadIO [LinearOrder Time] (port : Port) (s : State Time) : Result Time :=
  match s.subAt s.mux.selector with
  | some j => callSubReadIO j port s
  | none => answer Config.floatByte s

/-- `MUX.writeIO(port, v, t)` (R214): offset 0 sets the selector, any other goes to the selected
sub-device, else it is ignored. -/
def muxWriteIO [LinearOrder Time] (port : Port) (v : Byte) (s : State Time) : Result Time :=
  if windowOffset port = 0 then finish (s.setSelector v)
  else
    match s.subAt s.mux.selector with
    | some j => callSubWriteIO j port v s
    | none => finish s

/-- `MUX.reset(t)` (R213): the selector is 0, the table is untouched. -/
def muxReset (s : State Time) : State Time := s.setSelector 0x00#8

/-- `return Dev[d].readMem(addr, t)`. The mux's memory methods are left undefined: refused (R210,
U11). -/
def callReadMem [LinearOrder Time] (d : DevIndex) (addr : Addr) (s : State Time) : Result Time :=
  if d = s.config.muxDev then .refused .muxMemory
  else
    let r := (s.deviceAt d).readMem d addr s.now
    andThen (applyEffect d ⟨r.device, r.upcalls⟩ (s.logCall (.readMem d addr s.now))) (answer r.value)

/-- `Dev[d].writeMem(addr, v, t)`. -/
def callWriteMem [LinearOrder Time] (d : DevIndex) (addr : Addr) (v : Byte) (s : State Time) : Result Time :=
  if d = s.config.muxDev then .refused .muxMemory
  else
    andThen (applyEffect d ((s.deviceAt d).writeMem d addr v s.now) (s.logCall (.writeMem d addr v s.now))) finish

/-- `return Dev[d].readIO(port, t)`; the device MUX_DEV is the mux (R210). -/
def callReadIO [LinearOrder Time] (d : DevIndex) (port : Port) (s : State Time) : Result Time :=
  if d = s.config.muxDev then muxReadIO port (s.logCall (.readIO d port s.now))
  else
    let r := (s.deviceAt d).readIO d port s.now
    andThen (applyEffect d ⟨r.device, r.upcalls⟩ (s.logCall (.readIO d port s.now))) (answer r.value)

/-- `Dev[d].writeIO(port, v, t)`; the device MUX_DEV is the mux (R210). -/
def callWriteIO [LinearOrder Time] (d : DevIndex) (port : Port) (v : Byte) (s : State Time) : Result Time :=
  if d = s.config.muxDev then muxWriteIO port v (s.logCall (.writeIO d port v s.now))
  else
    andThen (applyEffect d ((s.deviceAt d).writeIO d port v s.now) (s.logCall (.writeIO d port v s.now))) finish

/-- `Dev[d].reset(t)`; the mux's reset clears its selector (70_reset_and_hazards.md R285, R213). -/
def callReset [LinearOrder Time] (d : DevIndex) (s : State Time) : Result Time :=
  if d = s.config.muxDev then .next (muxReset (s.logCall (.reset d s.now)))
  else applyEffect d ((s.deviceAt d).reset d s.now) (s.logCall (.reset d s.now))

end Sys2Proof.Machine
end

