-- ==== Sys2Proof/Machine/Access.lean ====
section
/-! DEFINITION. Access.lean: MRD, MWR (40_memory_access.md) and IORD, IOWR (42_io_access.md). -/

namespace Sys2Proof.Machine

variable {Time : Type} [LinearOrder Time]

/-- MRD (R120): the intercept first, then the floating bus, then the device (R122). -/
def execMrd (addr : Addr) (s : State Time) : Result Time :=
  if s.intercept addr then answer (s.ssrAt s.primary3 ^^^ 0xFF#8) s
  else
    match s.resolveMem addr with
    | none => answer Config.floatByte s
    | some d => callReadMem d addr s

/-- MWR (R121): the intercepted arm writes SSR[primary(3)] and calls no device. -/
def execMwr (addr : Addr) (v : Byte) (s : State Time) : Result Time :=
  if s.intercept addr then finish (s.setSsr s.primary3 v)
  else
    match s.resolveMem addr with
    | none => finish s
    | some d => callWriteMem d addr v s

/-- IORD (R160). -/
def execIord (port : Port) (s : State Time) : Result Time :=
  match s.inAt port with
  | none => answer Config.floatByte s
  | some d => callReadIO d port s

/-- IOWR (R161). -/
def execIowr (port : Port) (v : Byte) (s : State Time) : Result Time :=
  match s.outAt port with
  | none => finish s
  | some d => callWriteIO d port v s

end Sys2Proof.Machine
end

