-- ==== Sys2Proof/Machine/Interrupt.lean ====
section
/-! DEFINITION. Interrupt.lean: IRQST, IRQUP, IRQDN (43_interrupt_aggregator.md). -/

namespace Sys2Proof.Machine

variable {Time : Type}

/-- IRQST (R172): reading the status clears nothing. -/
def execIrqst (s : State Time) : Result Time := answerBool s.irq s

/-- IRQUP (R170). -/
def execIrqup (s : State Time) : Result Time := finish (raiseIrq s)

/-- IRQDN (R171). -/
def execIrqdn (s : State Time) : Result Time := andThen (lowerIrq s) finish

end Sys2Proof.Machine
end

