-- ==== Sys2Proof/Machine/MuxOps.lean ====
section
/-! DEFINITION. MuxOps.lean: the mux's registration and teardown (45_switched_mux.md R211, R212, R219). -/

namespace Sys2Proof.Machine

variable {Time : Type}

/-- The body of MUXREG for a sub-device index (R211): a taken id is reported, the first registration
claims the window. -/
def muxRegister (id : Byte) (j : SubIndex) (s : State Time) : State Time :=
  match s.subAt id with
  | some owner => s.logDiag (.dupMuxId id owner j)
  | none => (if s.muxOccupied then s else claimWindow s).setSub id (some j)

/-- MUXREG (R211); the sub-device operand 0xFF is refused (30_encoding.md R97). -/
def execMuxreg (id : Byte) (j : DevRef) (s : State Time) : Result Time :=
  withMux s fun s =>
    match deviceIndex j with
    | none => .refused .noneOperand
    | some j => finish (muxRegister id j s)

/-- MUXUNREG (R212): the last one out releases the window (R218). -/
def execMuxunreg (id : Byte) (s : State Time) : Result Time :=
  withMux s fun s =>
    match s.subAt id with
    | none => raiseFatal .muxUnregUnknown s
    | some _ =>
      let s1 := s.setSub id none
      if s1.muxOccupied then finish s1 else andThen (releaseWindow s1) finish

/-- MUXDESTROY (R219). -/
def execMuxdestroy (s : State Time) : Result Time :=
  withMux s fun s =>
    if s.muxOccupied then raiseFatal .muxDestroyOutstanding s else finish (s.setMuxAlive false)

end Sys2Proof.Machine
end

