-- ==== Sys2Proof/Machine/Registration.lean ====
section
/-! DEFINITION. Registration.lean: attaching and detaching devices, and teardown (44_configuration.md). -/

namespace Sys2Proof.Machine

variable {Time : Type}

/-- REGSLOT (R189). -/
def execRegslot (ps ss pg : Quarter) (d : DevRef) (s : State Time) : Result Time :=
  withDevice d s fun i => finish (claimSlot ⟨ps, ss, pg⟩ i s)

/-- UNREGSLOT (R190). -/
def execUnregslot (ps ss pg : Quarter) (d : DevRef) (s : State Time) : Result Time :=
  withDevice d s fun i => andThen (releaseSlot ⟨ps, ss, pg⟩ i s) finish

/-- REGIN (R185). -/
def execRegin (port : Port) (d : DevRef) (s : State Time) : Result Time :=
  withDevice d s fun i => finish (claimIn port i s)

/-- REGOUT (R186). -/
def execRegout (port : Port) (d : DevRef) (s : State Time) : Result Time :=
  withDevice d s fun i => finish (claimOut port i s)

/-- UNREGIN (R187). -/
def execUnregin (port : Port) (d : DevRef) (s : State Time) : Result Time :=
  withDevice d s fun i => andThen (releaseIn port i s) finish

/-- UNREGOUT (R188). -/
def execUnregout (port : Port) (d : DevRef) (s : State Time) : Result Time :=
  withDevice d s fun i => andThen (releaseOut port i s) finish

/-- DESTROY (R191; an id left in the mux's table with no claim left: log 30). -/
def execDestroy (s : State Time) : Result Time :=
  if s.hasClaims then raiseFatal .destroyOutstanding s else finish (s.setAlive false)

end Sys2Proof.Machine
end

