-- ==== Sys2Proof/Machine/Reset.lean ====
section
/-! DEFINITION. Reset.lean: RST (70_reset_and_hazards.md R285) and MUXRST (45_switched_mux.md R213). -/

namespace Sys2Proof.Machine

variable {Time : Type}

/-- `Dev[d].reset(t)` for each device of the list, first to last (R285). -/
def resetDevices [LinearOrder Time] : List DevIndex → State Time → Result Time
  | [], s => .next s
  | d :: ds, s => andThen (callReset d s) (resetDevices ds)

/-- The bus's own registers, cleared after the devices are reset (R285, D9, D11). -/
def clearRegisters (s : State Time) : State Time := ((s.setIrqCount 0).setPsr Config.selectDefault).clearSsr

/-- RST (R285). -/
def execRst [LinearOrder Time] (s : State Time) : Result Time :=
  andThen (resetDevices s.resetOrder s) fun s1 => finish (clearRegisters s1)

/-- MUXRST (45_switched_mux.md R213): the trace word calls the mux's reset directly. -/
def execMuxrst (s : State Time) : Result Time := withMux s fun s => finish (muxReset s)

end Sys2Proof.Machine
end

