-- ==== Sys2Proof/Machine/Select.lean ====
section
/-! DEFINITION. Select.lean: PSW (41_select_registers.md R140). ActiveMapping follows, being a function of
the registers (10_state.md R26). -/

namespace Sys2Proof.Machine

variable {Time : Type}

/-- PSW (R140). -/
def execPsw (v : Byte) (s : State Time) : Result Time := finish (s.setPsr v)

end Sys2Proof.Machine
end

