-- ==== Sys2Proof/Machine/Dispatch.lean ====
section
/-! DEFINITION. Dispatch.lean: the meaning of each operation of 30_encoding.md R91. -/

namespace Sys2Proof.Machine

def exec (i : Instr) (s : State) : Host.Outcome State Fault Refusal :=
  match i with
  | .mrd addr => Sys2Proof.Machine.execMrd addr s
  | .mwr addr v => Sys2Proof.Machine.execMwr addr v s
  | .iord port => Sys2Proof.Machine.execIord port s
  | .iowr port v => Sys2Proof.Machine.execIowr port v s
  | .irqst => Sys2Proof.Machine.execIrqst s
  | .irqup => Sys2Proof.Machine.execIrqup s
  | .irqdn => Sys2Proof.Machine.execIrqdn s
  | .psw v => Sys2Proof.Machine.execPsw v s
  | .rst => Sys2Proof.Machine.execRst s
  | .muxrst => Sys2Proof.Machine.execMuxrst s
  | .regslot ps ss pg d => Sys2Proof.Machine.execRegslot ps ss pg d s
  | .muxreg id j => Sys2Proof.Machine.execMuxreg id j s
  | .unregslot ps ss pg d => Sys2Proof.Machine.execUnregslot ps ss pg d s
  | .muxunreg id => Sys2Proof.Machine.execMuxunreg id s
  | .regin port d => Sys2Proof.Machine.execRegin port d s
  | .regout port d => Sys2Proof.Machine.execRegout port d s
  | .unregin port d => Sys2Proof.Machine.execUnregin port d s
  | .unregout port d => Sys2Proof.Machine.execUnregout port d s
  | .destroy => Sys2Proof.Machine.execDestroy s
  | .muxdestroy => Sys2Proof.Machine.execMuxdestroy s

end Sys2Proof.Machine
end

