-- ==== Sys2Proof/Machine/Fetch.lean ====
section
/-! DEFINITION. Fetch.lean: issuing the next trace word (30_encoding.md R98). -/

namespace Sys2Proof.Machine

variable {Time : Type}

/-- The state in which the operation of the trace word `w` runs: `w` is taken from the trace, of which `rest`
is left, and its TimeStamp is the one every forwarded call carries (10_state.md R35, 20_memory.md R69). -/
def State.issue (s : State Time) (w : TraceWord Time) (rest : List (TraceWord Time)) : State Time :=
  { s with pending := rest, now := w.time }

/-- One step of a machine whose operations run by `run`: no operation has a step while a fault is set or after
DESTROY (10_state.md R34); a word that spells no operation is refused (30_encoding.md R100). -/
def runNext (run : Instr → State Time → Result Time) (s : State Time) : Result Time :=
  match s.blocked with
  | some r => .refused r
  | none =>
    match s.pending with
    | [] => .refused .traceEnded
    | w :: rest =>
      match decode w.word with
      | .error e => .refused (.illegalWord e)
      | .ok i => run i (s.issue w rest)

/-- Words with the TimeStamps `t + 1`, `t + 2`, …: "word `i` is issued with TimeStamp `i`, counting from 1"
(R98) for `t = 0`. -/
def numbered : TraceTime → List Word → List TraceWord
  | _, [] => []
  | t, w :: ws => ⟨w, t + 1⟩ :: numbered (t + 1) ws

/-- The state in which `w` is the next word of the trace, with the next TimeStamp of R98's numbering. -/
def State.withNext (s : State) (w : Word) : State := { s with pending := ⟨w, s.now + 1⟩ :: s.pending.tail }

end Sys2Proof.Machine
end

