-- ==== Sys2Proof/Machine/Step.lean ====
section
/-! DEFINITION. Step.lean: one step issues the next word of the trace (30_encoding.md R98). -/

namespace Sys2Proof.Machine

/-- One step issues the next word of the trace and runs its operation. -/
def step (s : State) : Host.Outcome State Fault Refusal := runNext exec s

/-- `s` with the given table word as the next word of the trace (log 1). -/
def State.withFetchWord (s : State) (nbits w : Nat) : State := s.withNext (tableWord nbits w)

end Sys2Proof.Machine
end

