-- ==== Sys2Proof/Machine/Mapping.lean ====
section
/-! DEFINITION. Mapping.lean: an implementation that STORES ActiveMapping and updates it by the rules of
41_select_registers.md R143, beside the derived ActiveMapping of 10_state.md R26 that State uses. "The
stored fields must equal the functions ... at the end of every operation; that equality is ... the thing
to prove of such an implementation." -/

namespace Sys2Proof.Machine

variable {Time : Type}

/-- One entry of ActiveMapping (10_state.md R26). -/
structure PageMap where
  primary : Quarter
  secondary : Quarter
  visible : Option DevIndex
  deriving DecidableEq, Repr

/-- A stored ActiveMapping: one entry per page. -/
abbrev StoredMapping := Vector PageMap Config.nPage

/-- The entry of a page. -/
def StoredMapping.at (m : StoredMapping) (pg : Quarter) : PageMap := m[pg.toNat]'pg.isLt

/-- A mapping from its entries. -/
def StoredMapping.of (f : Quarter → PageMap) : StoredMapping := #v[f 0, f 1, f 2, f 3]

/-- ActiveMapping as the functions of 10_state.md R26. -/
def State.activeMapping (s : State Time) : StoredMapping :=
  StoredMapping.of fun pg => ⟨s.primary pg, s.secondary pg, s.visible pg⟩

/-- After `PSR <- v`: all four pages, from the newly selected slots (R143, R140). -/
def StoredMapping.afterPsw (s : State Time) (v : Byte) : StoredMapping :=
  StoredMapping.of fun pg =>
    let ps := selectField v pg
    let ss := if s.flagAt ps then selectField (s.ssrAt ps) pg else 0
    ⟨ps, ss, s.slotAt ⟨ps, ss, pg⟩⟩

/-- After `SSR[ps] <- v`: the pages with stored primary `ps` (R143, R141). -/
def StoredMapping.afterSsr (m : StoredMapping) (s : State Time) (ps : Quarter) (v : Byte) : StoredMapping :=
  StoredMapping.of fun pg =>
    if (m.at pg).primary = ps then ⟨ps, selectField v pg, s.slotAt ⟨ps, selectField v pg, pg⟩⟩ else m.at pg

/-- After REGSLOT or UNREGSLOT at `c`, with `t` the state it leaves: reload `visible` if the coordinate is
the selected one (R143). -/
def StoredMapping.afterSlot (m : StoredMapping) (t : State Time) (c : Coord) : StoredMapping :=
  StoredMapping.of fun pg =>
    if pg = c.pg ∧ (m.at pg).primary = c.ps ∧ (m.at pg).secondary = c.ss then
      { m.at pg with visible := t.slotAt c }
    else m.at pg

/-- After RST: as after `PSR <- 0` with every SSR zero (R143). -/
def StoredMapping.afterRst (s : State Time) : StoredMapping :=
  StoredMapping.of fun pg => ⟨0, 0, s.slotAt ⟨0, 0, pg⟩⟩

/-- After an access whose device may have issued PSW upcalls: recomputed if PSR changed (R143; R140 corner
case (b): writing the value PSR already holds changes nothing). -/
def StoredMapping.afterUpcalls (m : StoredMapping) (s t : State Time) : StoredMapping :=
  if t.psr = s.psr then m else StoredMapping.afterPsw t t.psr

/-- The stored mapping after the operation `i` that took `s` to `t`. -/
def StoredMapping.after (m : StoredMapping) (i : Instr) (s t : State Time) : StoredMapping :=
  match i with
  | .mrd _ => m.afterUpcalls s t
  | .mwr addr v => if s.intercept addr then m.afterSsr s s.primary3 v else m.afterUpcalls s t
  | .iord _ => m.afterUpcalls s t
  | .iowr _ _ => m.afterUpcalls s t
  | .psw v => StoredMapping.afterPsw s v
  | .rst => StoredMapping.afterRst s
  | .regslot ps ss pg _ => m.afterSlot t ⟨ps, ss, pg⟩
  | .unregslot ps ss pg _ => m.afterSlot t ⟨ps, ss, pg⟩
  | .irqst | .irqup | .irqdn | .muxrst | .muxreg _ _ | .muxunreg _ | .regin _ _ | .regout _ _ | .unregin _ _
  | .unregout _ _ | .destroy | .muxdestroy => m

end Sys2Proof.Machine
end

