-- ==== Sys2Proof/Machine/Observe.lean ====
section
/-! DEFINITION. Observe.lean: the parts of the Device contract that no operation calls: the peek family
(46_device_contract.md R238, R240, R252; 45_switched_mux.md R216) and the cache-line hints (R239,
20_memory.md R80). They are observations of a state, not operations. -/

namespace Sys2Proof.Machine

variable {Time : Type}

/-- A driver may hold a pointer for the block of `addr` (20_memory.md R80): never for 0xFF00..0xFFFF while
the primary slot selected for page 3 is subslotted. -/
def State.pointerAllowed (s : State Time) (addr : Addr) : Bool :=
  !(blockOf addr == 0xFF#8 && s.flagAt s.primary3)

variable [LinearOrder Time]

/-- `Dev[d].peekMem(addr, t)`: "numerically equal to what readMem would return at that instant", no
side effect (R238). -/
def Device.peekMem (dev : Device) (d : DevIndex) (addr : Addr) (t : Time) : Byte := (dev.readMem d addr t).value

/-- `Dev[d].peekIO(port, t)` (R238, R240). -/
def Device.peekIO (dev : Device) (d : DevIndex) (port : Port) (t : Time) : Byte := (dev.readIO d port t).value

/-- `Sub[j].peekIO(port, t)` (45_switched_mux.md R221). -/
def SubDevice.peekIO (dev : SubDevice) (j : SubIndex) (port : Port) (t : Time) : Byte := (dev.readIO j port t).value

/-- `MUX.peekIO(port, t)` (R216). -/
def State.muxPeekIO (s : State Time) (port : Port) (t : Time) : Byte :=
  match s.subAt s.mux.selector with
  | some j => (s.subDeviceAt j).peekIO j port t
  | none => Config.floatByte

/-- `PeekMem(addr)` (R252); no value where the visible device is the mux, whose memory methods are left
undefined (R210). R252 does not say where its `t` comes from: DESIGN CHOICE, log 28: it is an argument. -/
def State.peekMem (s : State Time) (addr : Addr) (t : Time) : Option Byte :=
  if s.intercept addr then some (s.ssrAt s.primary3 ^^^ 0xFF#8)
  else
    match s.resolveMem addr with
    | none => some Config.floatByte
    | some d => if d = s.config.muxDev then none else some ((s.deviceAt d).peekMem d addr t)

/-- What a pointer to `bytes` for a block promises of a device (R239), at TimeStamps of the type `Time`. -/
def Device.LinePromise (Time : Type) [LinearOrder Time] (dev : Device) (d : DevIndex) (block : BitVec 8)
    (bytes : CacheLine) : Prop :=
  LineHolds (fun dev addr (t : Time) => dev.readMem d addr t) dev block bytes

/-- A cache-line answer of a device: `none`, or a pointer with its promise (R239). -/
abbrev Device.LineAnswer (Time : Type) [LinearOrder Time] (dev : Device) (d : DevIndex) (block : BitVec 8) : Type :=
  Option { bytes : CacheLine // dev.LinePromise Time d block bytes }

/-- The promise of an external device's record is the promise of its device. -/
theorem Device.linePromise_external {d : DevIndex} {st : Nat} {block : BitVec 8} {bytes : CacheLine}
    (h : LineHolds (Config.extReadMem (Time := Time) d) st block bytes) :
    (Device.external st).LinePromise Time d block bytes := by
  intro addr t ha
  show externalAnswer (Config.extReadMem d st addr t) = _
  rw [h addr t ha]
  rfl

/-- An external device's cache-line answer as its record's. -/
def Device.externalLine {d : DevIndex} {st : Nat} {block : BitVec 8}
    (a : CacheLineAnswer (Config.extReadMem (Time := Time) d) st block) :
    (Device.external st).LineAnswer Time d block :=
  a.map fun p => ⟨p.val, Device.linePromise_external p.property⟩

/-- `getReadCacheLine`: every test device answers none (95_test_vectors.md section 0), and so does the
sentinel (R241); an external device answers as it likes under R239 (U15). -/
def Device.readCacheLine (Time : Type) [LinearOrder Time] (dev : Device) (d : DevIndex) (block : BitVec 8) :
    dev.LineAnswer Time d block :=
  match dev with
  | .external st => Device.externalLine (Config.extReadCacheLine Time d st block)
  | .const _ | .ram _ | .latch _ | .sel _ | .irqDev _ | .stub _ | .rstUp | .both => none

/-- `getWriteCacheLine`, likewise: R239 speaks of each of the two. -/
def Device.writeCacheLine (Time : Type) [LinearOrder Time] (dev : Device) (d : DevIndex) (block : BitVec 8) :
    dev.LineAnswer Time d block :=
  match dev with
  | .external st => Device.externalLine (Config.extWriteCacheLine Time d st block)
  | .const _ | .ram _ | .latch _ | .sel _ | .irqDev _ | .stub _ | .rstUp | .both => none

/-- The sentinel as a device object (R241): every read and peek gives 0xFF, writes and reset do nothing, the
cache-line methods answer none. The tables hold `none` for it, and no call is made on it. -/
def sentinel : Device := .const Config.floatByte

end Sys2Proof.Machine
end

