-- ==== Sys2Proof/Machine/Perform.lean ====
section
/-! DEFINITION. Perform.lean: the machine over any totally ordered type `Time` (00_scope.md R5, D26). exec
(Dispatch.lean) is `perform` and step (Step.lean) is `stepOver` at TraceTime, by the same meanings. -/

namespace Sys2Proof.Machine

variable {Time : Type} [LinearOrder Time]

/-- The meaning of each operation, over any totally ordered type of TimeStamps. -/
def perform (i : Instr) (s : State Time) : Result Time :=
  match i with
  | .mrd addr => execMrd addr s
  | .mwr addr v => execMwr addr v s
  | .iord port => execIord port s
  | .iowr port v => execIowr port v s
  | .irqst => execIrqst s
  | .irqup => execIrqup s
  | .irqdn => execIrqdn s
  | .psw v => execPsw v s
  | .rst => execRst s
  | .muxrst => execMuxrst s
  | .regslot ps ss pg d => execRegslot ps ss pg d s
  | .muxreg id j => execMuxreg id j s
  | .unregslot ps ss pg d => execUnregslot ps ss pg d s
  | .muxunreg id => execMuxunreg id s
  | .regin port d => execRegin port d s
  | .regout port d => execRegout port d s
  | .unregin port d => execUnregin port d s
  | .unregout port d => execUnregout port d s
  | .destroy => execDestroy s
  | .muxdestroy => execMuxdestroy s

/-- One step, over any totally ordered type of TimeStamps. -/
def stepOver (s : State Time) : Result Time := runNext perform s

end Sys2Proof.Machine
end

