-- ==== Sys2Proof/Safety.lean ====
section
/-! DEFINITION. Safety.lean: what a good run is (70_reset_and_hazards.md R302), the invariant of the block,
and the words claims about sequences of operations use. -/

namespace Sys2Proof.Machine

variable {Time : Type}

/-- `k` steps; it stops at the first fault or refusal. -/
def stepN : Nat → State → Result
  | 0, s => .next s
  | k + 1, s => andThen (step s) (stepN k)

/-- A run of a trace is good when every word of it completed and `fault` is empty at its end (R302). -/
def GoodRun (s : State) : Prop := ∃ k t, stepN k s = .next t ∧ t.pending = [] ∧ t.fault = none

/-- A good run that includes teardown (R302). -/
def GoodTeardown (s : State) : Prop :=
  ∃ k t, stepN k s = .next t ∧ t.pending = [] ∧ t.fault = none ∧ t.alive = false

/-- The operations of a list, one after the other (20_memory.md R76). -/
def execAll : List Instr → State → Result
  | [], s => .next s
  | i :: is, s => andThen (exec i s) (execAll is)

/-- The operation ends in the fatal code `c` (60_exceptions.md R263). -/
def EndsIn (r : Result Time) (c : FatalCode) : Prop := ∃ t, r = .fault (.fatal c t)

/-- The TimeStamp a call carries (20_memory.md R69). -/
def DeviceCall.time : DeviceCall Time → Time
  | .reset _ t => t
  | .readMem _ _ t => t
  | .writeMem _ _ _ t => t
  | .readIO _ _ t => t
  | .writeIO _ _ _ t => t
  | .subReadIO _ _ t => t
  | .subWriteIO _ _ _ t => t

/-- Time order (20_memory.md R77, 70_reset_and_hazards.md R293), a premise of claims about time (D26): in the total
order of the open type Time (10_state.md R35) the TimeStamps of the calls made, of the last operation issued and of
the words still to be issued are non-decreasing. -/
def TimeOrdered [LinearOrder Time] (s : State Time) : Prop :=
  (s.callLog.map DeviceCall.time ++ s.now :: s.pending.map TraceWord.time).Pairwise (· ≤ ·)

/-- Every RAM keeps the canonical form. -/
def State.memoriesWf (s : State Time) : Prop := ∀ d : DevIndex, Device.memoryWf (s.deviceAt d) = true

/-- The invariant of the block. -/
structure State.Inv (s : State Time) : Prop where
  /-- The parameters are admitted (00_scope.md R5). -/
  config : s.config.wf = true
  /-- irqCount is a number in 0..IRQ_COUNT_MAX (10_state.md R30). -/
  irqBound : ∀ m, s.config.irqCountMax = some m → s.irqCount ≤ m
  /-- The SSR of a slot that is not subslotted is 0x00 at all times (10_state.md R28). -/
  plainSsr : ∀ ps, s.flagAt ps = false → s.ssrAt ps = 0x00#8
  /-- ResetOrder holds each device index at most once (10_state.md R32). -/
  resetNodup : s.resetOrder.Nodup
  /-- ResetOrder holds exactly the devices that own a claim (44_configuration.md R193). -/
  resetOwners : ∀ d, d ∈ s.resetOrder ↔ s.owns d ≠ 0
  /-- Only devices of the machine own claims (44_configuration.md R197). -/
  ownersExist : ∀ d, s.owns d ≠ 0 → d.val < s.config.nDev
  /-- A mux that has ceased to exist has no sub-device left (45_switched_mux.md R219). -/
  muxGone : s.mux.alive = false → ∀ id, s.subAt id = none
  /-- Every RAM keeps its canonical form (log 4). -/
  memories : s.memoriesWf

/-- The fatal codes an operation may end in (60_exceptions.md R261): its own, and F_IRQ_UNDERFLOW for an
operation that calls a device. -/
def fatalCodes : Instr → List FatalCode
  | .mrd _ => [.irqUnderflow]
  | .mwr _ _ => [.irqUnderflow]
  | .iord _ => [.irqUnderflow]
  | .iowr _ _ => [.irqUnderflow]
  | .irqst => []
  | .irqup => []
  | .irqdn => [.irqUnderflow]
  | .psw _ => []
  | .rst => [.irqUnderflow]
  | .muxrst => []
  | .regslot _ _ _ _ => []
  | .muxreg _ _ => []
  | .unregslot _ _ _ _ => [.unregSlotNotOwner]
  | .muxunreg _ => [.muxUnregUnknown, .unregInNotOwner, .unregOutNotOwner]
  | .regin _ _ => []
  | .regout _ _ => []
  | .unregin _ _ => [.unregInNotOwner]
  | .unregout _ _ => [.unregOutNotOwner]
  | .destroy => [.destroyOutstanding]
  | .muxdestroy => [.muxDestroyOutstanding]

/-- The roles of 60_exceptions.md R270; MUXRST is issued by the bus or by a test (30_encoding.md R91). -/
inductive Role where
  | driver
  | device
  | builder
  | bus
  deriving DecidableEq, Repr

/-- Who may issue an operation (60_exceptions.md R270). -/
def role : Instr → Role
  | .mrd _ => .driver
  | .mwr _ _ => .driver
  | .iord _ => .driver
  | .iowr _ _ => .driver
  | .irqst => .driver
  | .irqup => .device
  | .irqdn => .device
  | .psw _ => .device
  | .rst => .driver
  | .muxrst => .bus
  | .regslot _ _ _ _ => .builder
  | .muxreg _ _ => .builder
  | .unregslot _ _ _ _ => .builder
  | .muxunreg _ => .builder
  | .regin _ _ => .builder
  | .regout _ _ => .builder
  | .unregin _ _ => .builder
  | .unregout _ _ => .builder
  | .destroy => .builder
  | .muxdestroy => .builder

/-- The operations in which the bus calls devices (46_device_contract.md R235). -/
def callsDevices : Instr → Bool
  | .mrd _ | .mwr _ _ | .iord _ | .iowr _ _ | .rst => true
  | .irqst | .irqup | .irqdn | .psw _ | .muxrst | .regslot _ _ _ _ | .muxreg _ _ | .unregslot _ _ _ _ | .muxunreg _
  | .regin _ _ | .regout _ _ | .unregin _ _ | .unregout _ _ | .destroy | .muxdestroy => false

/-- The registrations and unregistrations (44_configuration.md, 45_switched_mux.md R211, R212). -/
def isRegistration : Instr → Bool
  | .regslot _ _ _ _ | .muxreg _ _ | .unregslot _ _ _ _ | .muxunreg _ | .regin _ _ | .regout _ _ | .unregin _ _
  | .unregout _ _ => true
  | .mrd _ | .mwr _ _ | .iord _ | .iowr _ _ | .rst | .irqst | .irqup | .irqdn | .psw _ | .muxrst | .destroy
  | .muxdestroy => false

/-- The upcalls that the resets of the devices of a list make, in order, each device being reset in the
state `s` holds for it (the mux makes none). -/
def resetUpcalls [LinearOrder Time] (s : State Time) (ds : List DevIndex) : List Upcall :=
  ds.flatMap fun d => if d = s.config.muxDev then [] else ((s.deviceAt d).reset d s.now).upcalls

/-- The upcalls of the call an operation makes on a device or a sub-device, if it makes one (20_memory.md R81); for
RST those of all its resets, for IRQUP and IRQDN the operation itself. -/
def upcallsOf [LinearOrder Time] (i : Instr) (s : State Time) : List Upcall :=
  match i with
  | .mrd addr =>
    match s.intercept addr, s.visible (page addr) with
    | false, some d => if d = s.config.muxDev then [] else ((s.deviceAt d).readMem d addr s.now).upcalls
    | false, none => []
    | true, _ => []
  | .mwr addr v =>
    match s.intercept addr, s.visible (page addr) with
    | false, some d => if d = s.config.muxDev then [] else ((s.deviceAt d).writeMem d addr v s.now).upcalls
    | false, none => []
    | true, _ => []
  | .iord port =>
    match s.inAt port with
    | none => []
    | some d =>
      if d = s.config.muxDev then
        match s.subAt s.mux.selector with
        | none => []
        | some j => ((s.subDeviceAt j).readIO j port s.now).upcalls
      else ((s.deviceAt d).readIO d port s.now).upcalls
  | .iowr port v =>
    match s.outAt port with
    | none => []
    | some d =>
      if d = s.config.muxDev then
        if port.extractLsb' 0 4 = 0#4 then []
        else
          match s.subAt s.mux.selector with
          | none => []
          | some j => ((s.subDeviceAt j).writeIO j port v s.now).upcalls
      else ((s.deviceAt d).writeIO d port v s.now).upcalls
  | .rst => resetUpcalls s s.resetOrder
  | .irqup => [.irqUp]
  | .irqdn => [.irqDn]
  | .irqst | .psw _ | .muxrst | .regslot _ _ _ _ | .muxreg _ _ | .unregslot _ _ _ _ | .muxunreg _ | .regin _ _
  | .regout _ _ | .unregin _ _ | .unregout _ _ | .destroy | .muxdestroy => []

/-- The mux owns every entry of its window below offset `i` (45_switched_mux.md R218). -/
def State.ownsWindowBelow (s : State Time) (i : BitVec 4) : Prop :=
  ∀ k, k < i → s.inAt (windowPort s.config k) = some s.config.muxDev ∧
    s.outAt (windowPort s.config k) = some s.config.muxDev

/-! ## The OR reading of the interrupt line (43_interrupt_aggregator.md R173) -/

/-- The request bits of the devices. -/
abbrev RequestBits := Vector Bool 255

/-- A device sets its request bit: IRQUP only from 0 to 1, IRQDN only from 1 to 0 (R173). -/
def requestOps (bits : RequestBits) (d : DevIndex) (b : Bool) : List Instr :=
  match bits[d.val], b with
  | false, true => [.irqup]
  | true, false => [.irqdn]
  | false, false => []
  | true, true => []

/-- The bits after a sequence of changes. -/
def bitsAfter : List (DevIndex × Bool) → RequestBits → RequestBits
  | [], bits => bits
  | (d, b) :: es, bits => bitsAfter es (bits.set d.val b)

/-- The operations that a sequence of changes issues under the discipline. -/
def disciplinedOps : List (DevIndex × Bool) → RequestBits → List Instr
  | [], _ => []
  | (d, b) :: es, bits => requestOps bits d b ++ disciplinedOps es (bits.set d.val b)

end Sys2Proof.Machine
end

