-- ==== Sys2Proof/Certificates/Slice0/Obligations.lean ====
section
/-! DEFINITION. Obligations.lean: the statements about the model, from the numbered rules of spec/. A next
state written `{ s with … }` is the whole frame: every field not named is unchanged. `returned` and
`callLog` are the model's own records of an operation's result and of the calls it made (log 6, log 7). -/

open Sys2Proof Sys2Proof.Machine

/-! ## The encoding -/

/-- 30_encoding.md R99 and the words of 95_test_vectors.md section 2.1 (the encoding is the spec's own,
D24): the word of each operation decodes to it. -/
def Obligations.WordsOfTheEncodingTableDecode : Prop :=
  decode 0x00C00000 = .ok (.mrd 0xC000) ∧ decode 0x10FFFF10 = .ok (.mwr 0xFFFF 0x10) ∧
  decode 0x2000A800 = .ok (.iord 0xA8) ∧ decode 0x3000A8F0 = .ok (.iowr 0xA8 0xF0) ∧
  decode 0x40000000 = .ok .irqst ∧ decode 0x50000000 = .ok .irqup ∧ decode 0x60000000 = .ok .irqdn ∧
  decode 0x700000F0 = .ok (.psw 0xF0) ∧ decode 0x80000000 = .ok .rst ∧ decode 0x81000000 = .ok .muxrst ∧
  decode 0x90003605 = .ok (.regslot 3 1 2 5) ∧ decode 0x91000501 = .ok (.muxreg 5 1) ∧
  decode 0xA0003605 = .ok (.unregslot 3 1 2 5) ∧ decode 0xA1000900 = .ok (.muxunreg 9) ∧
  decode 0xB0009802 = .ok (.regin 0x98 2) ∧ decode 0xC000A807 = .ok (.regout 0xA8 7) ∧
  decode 0xD0009802 = .ok (.unregin 0x98 2) ∧ decode 0xE000A807 = .ok (.unregout 0xA8 7) ∧
  decode 0xF0000000 = .ok .destroy ∧ decode 0xF1000000 = .ok .muxdestroy

/-- R98, R99 (the spec's own encoding, D24): no operand bit is dropped, for every operation and every
value of its operands. -/
def Obligations.DecodeOfEncodeIsTheOperation : Prop :=
  ∀ i : Instr, i.wf = true → decode (encode i) = .ok i

/-- R99 "every bit of the word not covered by a field is in the mask and must be zero": a word that
decodes is the one word of its operation, which is well formed. -/
def Obligations.EncodeOfDecodeIsTheWord : Prop :=
  ∀ (w : Word) (i : Instr), decode w = .ok i → encode i = w ∧ i.wf = true

/-- R99: the decoder gives an operation exactly to the words that match the operation's row, by the
`match` and `mask` the table prints (and R100: a device operand is not 0xFF). -/
def Obligations.DecodingAgreesWithTheOpcodeTable : Prop :=
  ∀ (w : Word) (r : OpcodeRow), r ∈ opcodeRows →
    (r.matches w = true ↔ ∃ i, decode w = .ok i ∧ i.mnemonic = r.mnemonic)

/-- R100 (D24): a word outside the table spells no operation and has no step; every address, port and
value is legal. -/
def Obligations.WordsOutsideTheTableAreRefused : Prop :=
  (∀ w : Word, (∀ r ∈ opcodeRows, r.matches w = false) →
    ∃ e, decode w = .error e ∧
      ∀ (s : State) (t : TraceTime) (ws : List TraceWord), s.blocked = none → s.pending = ⟨w, t⟩ :: ws →
        step s = .refused (.illegalWord e)) ∧
  (∀ w : Word, 1 < (Word.sub w).toNat → ∃ e, decode w = .error e) ∧
  (∀ w : Word, Word.sub w = 1#4 → Word.kind w ≠ 0x8#4 → Word.kind w ≠ 0x9#4 → Word.kind w ≠ 0xA#4 → Word.kind w ≠ 0xF#4 →
    ∃ e, decode w = .error e) ∧
  (∀ (w : Word) (r : OpcodeRow), r ∈ opcodeRows → r.device = true → w &&& r.mask = r.bits → Word.d w = 0xFF#8 →
    decode w = .error .noneOperand) ∧
  (∀ (addr : Addr) (port : Port) (v : Byte),
    decode (0x00#8 ++ addr ++ 0x00#8) = .ok (.mrd addr) ∧ decode (0x10#8 ++ addr ++ v) = .ok (.mwr addr v) ∧
    decode (0x2000#16 ++ port ++ 0x00#8) = .ok (.iord port) ∧ decode (0x3000#16 ++ port ++ v) = .ok (.iowr port v) ∧
    decode (0x700000#24 ++ v) = .ok (.psw v))

/-! ## Steps, faults, the construction state -/

/-- A step runs the operation its word spells (R98), in the state from which that word was taken and
whose TimeStamp is the one the word carries (log 1, log 2). -/
def Obligations.StepRunsTheDecodedOperation : Prop :=
  ∀ (s : State) (w : Word) (t : TraceTime) (ws : List TraceWord) (i : Instr), s.fault = none → s.alive = true →
    s.pending = ⟨w, t⟩ :: ws → decode w = .ok i → step s = exec i { s with pending := ws, now := t }

/-- 10_state.md R34 (D14, D34; the refusals are log 8): `alive` holds from construction until DESTROY
succeeds, `fault` is empty until a fatal and then holds its code, and while either stands no
operation has a step. -/
def Obligations.FaultAndAliveGateEveryStep : Prop :=
  State.reset.alive = true ∧ State.reset.fault = none ∧
  (∀ (i : Instr) (s t : State), exec i s = .next t →
    t.fault = s.fault ∧ (i ≠ .destroy → t.alive = s.alive) ∧ (i = .destroy → t.alive = false)) ∧
  (∀ (i : Instr) (s t : State) (c : FatalCode), exec i s = .fault (.fatal c t) → t.fault = some c) ∧
  (∀ (s : State) (c : FatalCode), s.fault = some c → step s = .refused (.blockFaulted c)) ∧
  (∀ s : State, s.fault = none → s.alive = false → step s = .refused .blockDestroyed)

/-- 60_exceptions.md R261 (the names of the codes are the spec's own, D14): each operation ends only in its
own codes; IRQDN and the builder's operations end in each of theirs exactly when the table's cause holds,
MUXUNREG also in the codes of the release of a window port that the mux does not own; and a fatal
records its code and nothing else (that DESTROY does not look at the mux's table is the model's choice, log 30). -/
def Obligations.FatalCodesHaveTheirCauses : Prop :=
  (∀ (i : Instr) (s : State) (f : Fault), exec i s = .fault f →
    ∃ c t, f = .fatal c t ∧ c ∈ fatalCodes i ∧ t.fault = some c) ∧
  (∀ s t : State, exec .irqdn s = .fault (.fatal .irqUnderflow t) ↔
    s.irqCount = 0 ∧ t = { s with fault := some .irqUnderflow }) ∧
  (∀ (s t : State) (port : Port) (d : DevRef), exec (.unregin port d) s = .fault (.fatal .unregInNotOwner t) ↔
    (∃ i, deviceIndex d = some i ∧ i.val < s.config.nDev ∧ s.inAt port ≠ some i) ∧
    t = { s with fault := some .unregInNotOwner }) ∧
  (∀ (s t : State) (port : Port) (d : DevRef), exec (.unregout port d) s = .fault (.fatal .unregOutNotOwner t) ↔
    (∃ i, deviceIndex d = some i ∧ i.val < s.config.nDev ∧ s.outAt port ≠ some i) ∧
    t = { s with fault := some .unregOutNotOwner }) ∧
  (∀ (s t : State) (ps ss pg : Quarter) (d : DevRef),
    exec (.unregslot ps ss pg d) s = .fault (.fatal .unregSlotNotOwner t) ↔
      (∃ i, deviceIndex d = some i ∧ i.val < s.config.nDev ∧ s.slotAt ⟨ps, ss, pg⟩ ≠ some i) ∧
      t = { s with fault := some .unregSlotNotOwner }) ∧
  (∀ s t : State, exec .destroy s = .fault (.fatal .destroyOutstanding t) ↔
    ((∃ c, s.slotAt c ≠ none) ∨ (∃ p, s.inAt p ≠ none) ∨ ∃ p, s.outAt p ≠ none) ∧
    t = { s with fault := some .destroyOutstanding }) ∧
  (∀ (s t : State) (id : Byte), exec (.muxunreg id) s = .fault (.fatal .muxUnregUnknown t) ↔
    s.mux.alive = true ∧ s.subAt id = none ∧ t = { s with fault := some .muxUnregUnknown }) ∧
  (∀ s t : State, exec .muxdestroy s = .fault (.fatal .muxDestroyOutstanding t) ↔
    s.mux.alive = true ∧ (∃ id, s.subAt id ≠ none) ∧ t = { s with fault := some .muxDestroyOutstanding }) ∧
  (∀ (s : State) (id : Byte),
    (EndsIn (exec (.muxunreg id) s) .unregInNotOwner ↔
      s.mux.alive = true ∧ s.subAt id ≠ none ∧ (∀ k, k ≠ id → s.subAt k = none) ∧
      ∃ i, s.inAt (windowPort s.config i) ≠ some s.config.muxDev ∧ s.ownsWindowBelow i) ∧
    (EndsIn (exec (.muxunreg id) s) .unregOutNotOwner ↔
      s.mux.alive = true ∧ s.subAt id ≠ none ∧ (∀ k, k ≠ id → s.subAt k = none) ∧
      ∃ i, s.inAt (windowPort s.config i) = some s.config.muxDev ∧
        s.outAt (windowPort s.config i) ≠ some s.config.muxDev ∧ s.ownsWindowBelow i))

/-- 70_reset_and_hazards.md R286 (the register values at construction are the spec's decision D10,
log 13): the construction state. -/
def Obligations.ResetStateIsTheConstructionState : Prop :=
  (∀ c, State.reset.slotAt c = none) ∧ (∀ p, State.reset.inAt p = none) ∧ (∀ p, State.reset.outAt p = none) ∧
  State.reset.resetOrder = [] ∧ State.reset.diagLog = [] ∧ State.reset.alive = true ∧ State.reset.fault = none ∧
  State.reset.psr = 0x00#8 ∧ (∀ ps, State.reset.ssrAt ps = 0x00#8) ∧ State.reset.irqCount = 0 ∧
  State.reset.irq = false ∧ State.reset.mux.selector = 0x00#8 ∧ (∀ id, State.reset.subAt id = none) ∧
  (∀ pg, State.reset.primary pg = 0#2 ∧ State.reset.secondary pg = 0#2 ∧ State.reset.visible pg = none)

/-- The invariant of StepKeepsTheInvariant holds at construction: R286's empty tables and count 0. That the SSR
are zero at construction is the spec's decision D9, D10 (log 13); that NDEV and IRQ_COUNT_MAX are admitted values
rests on the model's choice of the parameters of State.reset (log 3). -/
def Obligations.ResetStateMeetsTheInvariant : Prop := State.reset.Inv

/-- The invariant of the block, kept by every step from every state that has it: irqCount within its bound
(R30), SSR of plain slots zero (R28), ResetOrder without repeats and exactly the owners (R32, R193), only
devices of the machine own claims (R197), a destroyed mux is empty (R219), RAM canonical (log 4). -/
def Obligations.StepKeepsTheInvariant : Prop :=
  ∀ s t : State, s.Inv → step s = .next t → t.Inv

/-- 10_state.md R23 (D16), 00_scope.md R5: the straps and the parameters are constant. -/
def Obligations.StrapsAndParametersNeverChange : Prop :=
  ∀ s t : State, step s = .next t → t.subslotFlag = s.subslotFlag ∧ t.config = s.config

/-- 70_reset_and_hazards.md R285 (clearing SSR is D9, devices before registers is D11, each device once is
D12): RST resets every device of ResetOrder, in order, with its TimeStamp, then clears the registers; it
faults exactly when a device lowers at count 0. -/
def Obligations.RstResetsDevicesThenRegisters : Prop :=
  ∀ s : State, s.resetOrder.Nodup →
    (∀ n, countAfter s.config.irqCountMax (resetUpcalls s s.resetOrder) s.irqCount = some n →
      ∃ t, exec .rst s = .next t ∧
        t = { s with devices := t.devices, irqCount := 0, psr := 0x00#8, ssr := t.ssr,
                     mux := { s.mux with selector := t.mux.selector },
                     callLog := s.callLog ++ s.resetOrder.map (fun d => .reset d s.now), returned := .nothing } ∧
        (∀ ps, t.ssrAt ps = 0x00#8) ∧ t.irq = false ∧
        (∀ pg, t.primary pg = 0#2 ∧ t.secondary pg = 0#2 ∧ t.visible pg = s.slotAt ⟨0#2, 0#2, pg⟩) ∧
        (∀ d, t.deviceAt d =
          if d ∈ s.resetOrder ∧ d ≠ s.config.muxDev then ((s.deviceAt d).reset d s.now).device else s.deviceAt d) ∧
        t.mux.selector = if s.config.muxDev ∈ s.resetOrder then 0x00#8 else s.mux.selector) ∧
    (countAfter s.config.irqCountMax (resetUpcalls s s.resetOrder) s.irqCount = none →
      ∃ t, exec .rst s = .fault (.fatal .irqUnderflow t))

/-! ## Memory accesses and the mapping -/

/-- 20_memory.md R61: the page of an address is its top two bits, the offset the other fourteen. -/
def Obligations.PageOfAnAddress : Prop :=
  ∀ addr : Addr,
    page addr = addr.extractLsb' 14 2 ∧
    addr.toNat = (page addr).toNat * 0x4000 + (addr.extractLsb' 0 14).toNat ∧
    (page addr = 0#2 ↔ addr.toNat ≤ 0x3FFF) ∧ (page addr = 1#2 ↔ 0x4000 ≤ addr.toNat ∧ addr.toNat ≤ 0x7FFF) ∧
    (page addr = 2#2 ↔ 0x8000 ≤ addr.toNat ∧ addr.toNat ≤ 0xBFFF) ∧ (page addr = 3#2 ↔ 0xC000 ≤ addr.toNat)

/-- 20_memory.md R66: through a page mapped to an unregistered coordinate, and not intercepted, a read
returns 0xFF and a write changes nothing. -/
def Obligations.FloatingMemoryAccess : Prop :=
  ∀ (s : State) (addr : Addr) (v : Byte) (c : Coord), s.primary (page addr) = c.ps → s.secondary (page addr) = c.ss →
    page addr = c.pg → s.slotAt c = none → s.intercept addr = false →
    exec (.mrd addr) s = .next { s with returned := .byte 0xFF#8 } ∧
    exec (.mwr addr v) s = .next { s with returned := .nothing }

/-- 40_memory_access.md R122: the intercept wins over forwarding and over the floating bus; only when it
fails is `visible` consulted, and only when that is NONE does the access float. -/
def Obligations.MemoryAccessPrecedence : Prop :=
  ∀ (s : State) (addr : Addr) (v : Byte),
    (s.intercept addr = true →
      exec (.mrd addr) s = .next { s with returned := .byte (s.ssrAt (s.primary 3#2) ^^^ 0xFF#8) } ∧
      exec (.mwr addr v) s = .next { s with ssr := (s.setSsr (s.primary 3#2) v).ssr, returned := .nothing }) ∧
    (s.intercept addr = false → s.visible (page addr) = none →
      exec (.mrd addr) s = .next { s with returned := .byte 0xFF#8 } ∧
      exec (.mwr addr v) s = .next { s with returned := .nothing }) ∧
    (∀ d, s.intercept addr = false → s.visible (page addr) = some d →
      exec (.mrd addr) s = callReadMem d addr s ∧ exec (.mwr addr v) s = callWriteMem d addr v s)

/-- R123 (c), 41_select_registers.md R142 (the slot that 0xFFFF reaches is D6): 0xFFFF is intercepted
exactly while the slot of page 3 is subslotted, and a value written there reads back inverted at once. -/
def Obligations.SecondarySelectReadsBackInverted : Prop :=
  ∀ (s : State) (v : Byte),
    (∀ addr, s.intercept addr = true ↔ addr = 0xFFFF#16 ∧ s.flagAt (s.primary 3#2) = true) ∧
    (s.flagAt (s.primary 3#2) = true →
      ∃ t, exec (.mwr 0xFFFF#16 v) s = .next t ∧ exec (.mrd 0xFFFF#16) t = .next { t with returned := .byte (~~~v) } ∧
        t.devices = s.devices ∧ t.callLog = s.callLog)

/-- 41_select_registers.md R141: the secondary select write changes the mapping of exactly the pages of
that primary slot; the other fields apply as soon as a PSW selects the slot for their page. -/
def Obligations.SecondarySelectWriteUpdatesTheMapping : Prop :=
  ∀ (s : State) (v : Byte), s.flagAt (s.primary 3#2) = true →
    ∃ t, exec (.mwr 0xFFFF#16 v) s = .next t ∧
      t = { s with ssr := t.ssr, returned := .nothing } ∧
      (∀ ps, t.ssrAt ps = if ps = s.primary 3#2 then v else s.ssrAt ps) ∧
      (∀ pg, t.primary pg = s.primary pg ∧
        (s.primary pg = s.primary 3#2 → t.secondary pg = selectField v pg ∧
          t.visible pg = s.slotAt ⟨s.primary 3#2, selectField v pg, pg⟩) ∧
        (s.primary pg ≠ s.primary 3#2 → t.secondary pg = s.secondary pg ∧ t.visible pg = s.visible pg)) ∧
      (∀ w, ∃ u, exec (.psw w) t = .next u ∧
        ∀ pg, selectField w pg = s.primary 3#2 → u.secondary pg = selectField v pg)

/-- R120, R160 with R81 (D19) and R69 (D18): a read that reaches a device calls it once with the operands
unchanged, returns its byte, and leaves its upcalls applied in order; it completes whenever none of them lowers
at count 0. -/
def Obligations.ForwardedReadsComplete : Prop :=
  (∀ (s : State) (addr : Addr) (d : DevIndex) (n : Nat), s.intercept addr = false → s.resolveMem addr = some d →
    d ≠ s.config.muxDev →
    countAfter s.config.irqCountMax ((s.deviceAt d).readMem d addr s.now).upcalls s.irqCount = some n →
      exec (.mrd addr) s =
        .next { s with devices := (s.setDevice d ((s.deviceAt d).readMem d addr s.now).device).devices, irqCount := n,
                       psr := psrAfter ((s.deviceAt d).readMem d addr s.now).upcalls s.psr,
                       callLog := s.callLog ++ [.readMem d addr s.now],
                       returned := .byte ((s.deviceAt d).readMem d addr s.now).value }) ∧
  (∀ (s : State) (port : Port) (d : DevIndex) (n : Nat), s.inAt port = some d → d ≠ s.config.muxDev →
    countAfter s.config.irqCountMax ((s.deviceAt d).readIO d port s.now).upcalls s.irqCount = some n →
      exec (.iord port) s =
        .next { s with devices := (s.setDevice d ((s.deviceAt d).readIO d port s.now).device).devices, irqCount := n,
                       psr := psrAfter ((s.deviceAt d).readIO d port s.now).upcalls s.psr,
                       callLog := s.callLog ++ [.readIO d port s.now],
                       returned := .byte ((s.deviceAt d).readIO d port s.now).value })

/-- R121, R161 with R81 (D19) and R69 (D18): a write that reaches a device calls it once with the operands
unchanged and leaves its upcalls applied in order; it completes whenever none of them lowers at count 0, and an
I/O write faults when one does. -/
def Obligations.ForwardedWritesComplete : Prop :=
  (∀ (s : State) (addr : Addr) (v : Byte) (d : DevIndex) (n : Nat), s.intercept addr = false →
    s.resolveMem addr = some d → d ≠ s.config.muxDev →
    countAfter s.config.irqCountMax ((s.deviceAt d).writeMem d addr v s.now).upcalls s.irqCount = some n →
      exec (.mwr addr v) s =
        .next { s with devices := (s.setDevice d ((s.deviceAt d).writeMem d addr v s.now).device).devices, irqCount := n,
                       psr := psrAfter ((s.deviceAt d).writeMem d addr v s.now).upcalls s.psr,
                       callLog := s.callLog ++ [.writeMem d addr v s.now], returned := .nothing }) ∧
  (∀ (s : State) (port : Port) (v : Byte) (d : DevIndex), s.outAt port = some d → d ≠ s.config.muxDev →
    (∀ n, countAfter s.config.irqCountMax ((s.deviceAt d).writeIO d port v s.now).upcalls s.irqCount = some n →
      exec (.iowr port v) s =
        .next { s with devices := (s.setDevice d ((s.deviceAt d).writeIO d port v s.now).device).devices, irqCount := n,
                       psr := psrAfter ((s.deviceAt d).writeIO d port v s.now).upcalls s.psr,
                       callLog := s.callLog ++ [.writeIO d port v s.now], returned := .nothing }) ∧
    (countAfter s.config.irqCountMax ((s.deviceAt d).writeIO d port v s.now).upcalls s.irqCount = none →
      ∃ t, exec (.iowr port v) s = .fault (.fatal .irqUnderflow t)))

/-- 20_memory.md R79 (D23) on the RAM of 95_test_vectors.md section 0: a byte written is seen by the next
read of that address through the same mapping, and every other byte of every RAM is unchanged. -/
def Obligations.RamReadsBackWhatWasWritten : Prop :=
  ∀ (s : State) (addr : Addr) (v : Byte) (d : DevIndex) (m : Memory), s.intercept addr = false →
    s.resolveMem addr = some d → d ≠ s.config.muxDev → s.deviceAt d = .ram m → Memory.wf m = true →
    ∃ t m', exec (.mwr addr v) s = .next t ∧
      t = { s with devices := t.devices, callLog := s.callLog ++ [.writeMem d addr v s.now], returned := .nothing } ∧
      t.deviceAt d = .ram m' ∧ Memory.wf m' = true ∧
      (∀ a : Addr, Memory.read m' a.toNat = if a = addr then v else Memory.read m a.toNat) ∧
      (∀ e, e ≠ d → t.deviceAt e = s.deviceAt e) ∧
      exec (.mrd addr) t =
        .next { t with callLog := t.callLog ++ [.readMem d addr t.now], returned := .byte v }

/-- R123 (d): a memory access that is not intercepted and whose page shows a device calls that device, once,
and changes no other device's state; any other memory access calls no device. -/
def Obligations.MemoryAccessCallsOnlyTheVisibleDevice : Prop :=
  ∀ (s t : State) (addr : Addr) (v : Byte),
    (exec (.mrd addr) s = .next t →
      t.subDevices = s.subDevices ∧ t.mux = s.mux ∧
      (((s.intercept addr = true ∨ s.visible (page addr) = none) ∧ t.callLog = s.callLog ∧ t.devices = s.devices) ∨
       ∃ d, s.intercept addr = false ∧ s.visible (page addr) = some d ∧
        t.callLog = s.callLog ++ [.readMem d addr s.now] ∧ ∀ e, e ≠ d → t.deviceAt e = s.deviceAt e)) ∧
    (exec (.mwr addr v) s = .next t →
      t.subDevices = s.subDevices ∧ t.mux = s.mux ∧
      (((s.intercept addr = true ∨ s.visible (page addr) = none) ∧ t.callLog = s.callLog ∧ t.devices = s.devices) ∨
       ∃ d, s.intercept addr = false ∧ s.visible (page addr) = some d ∧
        t.callLog = s.callLog ++ [.writeMem d addr v s.now] ∧ ∀ e, e ≠ d → t.deviceAt e = s.deviceAt e))

/-- 10_state.md R39 with 60_exceptions.md R270 (D31): no operation of the driver, of a device or of the bus
writes a table, a strap, ResetOrder or diagLog, whatever the devices do when they are called. -/
def Obligations.OnlyTheBuilderWritesTables : Prop :=
  ∀ (i : Instr) (s t : State), role i ≠ .builder → exec i s = .next t →
    t.slotLayout = s.slotLayout ∧ t.ioIn = s.ioIn ∧ t.ioOut = s.ioOut ∧ t.resetOrder = s.resetOrder ∧
    t.diagLog = s.diagLog ∧ t.subslotFlag = s.subslotFlag ∧ t.mux.table = s.mux.table ∧
    t.mux.alive = s.mux.alive ∧ t.alive = s.alive ∧ t.config = s.config

/-- Who writes the registers (R24, R25, R30 "Written by"; R81 for upcalls; R294: the SSR reached is that of
`primary(3)` and no other), and who writes the selector of the mux: its reset (R213) and a write at offset 0 of
a port it owns (R214), not MUXREG (R211 (c)) and not MUXUNREG (R212). -/
def Obligations.RegistersHaveFewWriters : Prop :=
  ∀ (i : Instr) (s t : State), exec i s = .next t →
    (t.ssr ≠ s.ssr → i = .rst ∨
      ∃ addr v, i = .mwr addr v ∧ s.intercept addr = true ∧ ∀ ps, ps ≠ s.primary 3#2 → t.ssrAt ps = s.ssrAt ps) ∧
    (t.psr ≠ s.psr → (∃ v, i = .psw v) ∨ callsDevices i = true) ∧
    (t.irqCount ≠ s.irqCount → i = .irqup ∨ i = .irqdn ∨ callsDevices i = true) ∧
    (t.mux.selector ≠ s.mux.selector → i = .muxrst ∨ i = .rst ∨
      ∃ port v, i = .iowr port v ∧ s.outAt port = some s.config.muxDev ∧ port.extractLsb' 0 4 = 0#4 ∧
        t.mux.selector = v)

/-- 20_memory.md R80 (D20): the device a page shows changes only when PSR changes, on an intercepted write,
on RST, and on REGSLOT and UNREGSLOT. -/
def Obligations.VisibleDeviceChangesOnlyWhereListed : Prop :=
  ∀ (i : Instr) (s t : State) (pg : Quarter), exec i s = .next t → t.visible pg ≠ s.visible pg →
    t.psr ≠ s.psr ∨ i = .rst ∨ (∃ addr v, i = .mwr addr v ∧ s.intercept addr = true) ∨
    (∃ ps ss d, i = .regslot ps ss pg d) ∨ ∃ ps ss d, i = .unregslot ps ss pg d

/-- 20_memory.md R80 (D20) with 46_device_contract.md R239: reading through a pointer that a device may hand
out and a driver may hold is indistinguishable from the read operation. The promise in the premise is the one
every answer of readCacheLine and writeCacheLine carries. -/
def Obligations.FastPathReadIsIndistinguishable : Prop :=
  ∀ (s : State) (addr : Addr) (d : DevIndex) (bytes : CacheLine), s.resolveMem addr = some d →
    d ≠ s.config.muxDev → s.pointerAllowed addr = true → (s.deviceAt d).LinePromise TraceTime d (blockOf addr) bytes →
    exec (.mrd addr) s =
      .next { s with callLog := s.callLog ++ [.readMem d addr s.now],
                     returned := .byte (bytes.at (blockOffset addr)) }

/-- 41_select_registers.md R143, R144: an implementation that stores ActiveMapping and updates it by the
rules of R143 holds the functions of R26 after every operation. -/
def Obligations.StoredMappingFollowsTheRegisters : Prop :=
  ∀ (i : Instr) (s t : State) (m : StoredMapping), exec i s = .next t → m = s.activeMapping →
    m.after i s t = t.activeMapping

/-- 41_select_registers.md R140 (PSR is D3, its layout D4): PSW stores the byte and every page follows: its
primary slot from the byte, its secondary slot from that slot's own SSR, its device from SlotLayout. -/
def Obligations.PswSelectsPrimarySlots : Prop :=
  ∀ (s : State) (v : Byte), ∃ t, exec (.psw v) s = .next t ∧ t = { s with psr := v, returned := .nothing } ∧
    ∀ pg : Quarter,
      t.primary pg = v.extractLsb' (2 * pg.toNat) 2 ∧
      (s.flagAt (t.primary pg) = true → t.secondary pg = (s.ssrAt (t.primary pg)).extractLsb' (2 * pg.toNat) 2) ∧
      (s.flagAt (t.primary pg) = false → t.secondary pg = 0#2) ∧
      t.visible pg = s.slotAt ⟨t.primary pg, t.secondary pg, pg⟩

/-! ## I/O accesses -/

/-- 20_memory.md R68: an unclaimed port reads as 0xFF and discards writes; no diagnostic, no state
change. -/
def Obligations.FloatingPortAccess : Prop :=
  ∀ (s : State) (port : Port) (v : Byte),
    (s.inAt port = none → exec (.iord port) s = .next { s with returned := .byte 0xFF#8 }) ∧
    (s.outAt port = none → exec (.iowr port v) s = .next { s with returned := .nothing })

/-- 42_io_access.md R162: every I/O access either reaches exactly one device or floats, and the two
directions of a port never interact. -/
def Obligations.PortDirectionsAreIndependent : Prop :=
  ∀ (s t : State) (port : Port) (v : Byte) (d : DevRef),
    (exec (.iord port) s = .next t →
      (s.inAt port = none ∧ t.callLog = s.callLog ∧ t.returned = .byte 0xFF#8) ∨
      ∃ e calls, s.inAt port = some e ∧ t.callLog = s.callLog ++ .readIO e port s.now :: calls ∧
        (calls = [] ∨ e = s.config.muxDev ∧ ∃ j, calls = [.subReadIO j port s.now])) ∧
    (exec (.iowr port v) s = .next t →
      (s.outAt port = none ∧ t.callLog = s.callLog) ∨
      ∃ e calls, s.outAt port = some e ∧ t.callLog = s.callLog ++ .writeIO e port v s.now :: calls ∧
        (calls = [] ∨ e = s.config.muxDev ∧ ∃ j, calls = [.subWriteIO j port v s.now])) ∧
    (exec (.regin port d) s = .next t ∨ exec (.unregin port d) s = .next t ∨ exec (.iord port) s = .next t →
      t.ioOut = s.ioOut) ∧
    (exec (.regout port d) s = .next t ∨ exec (.unregout port d) s = .next t ∨ exec (.iowr port v) s = .next t →
      t.ioIn = s.ioIn)

/-! ## The interrupt aggregator -/

/-- 43_interrupt_aggregator.md R170: IRQUP adds one raise, absorbed at IRQ_COUNT_MAX; IRQ becomes true
(with a bound of 0 there is no count above zero to reach). -/
def Obligations.IrqupRaisesTheCount : Prop :=
  (∀ w, decode w = .ok .irqup ↔ w = 0x50000000#32) ∧
  ∀ s : State, ∃ t, exec .irqup s = .next t ∧ t = { s with irqCount := t.irqCount, returned := .nothing } ∧
    (s.config.irqCountMax = none → t.irqCount = s.irqCount + 1) ∧
    (∀ m, s.config.irqCountMax = some m → s.irqCount < m → t.irqCount = s.irqCount + 1) ∧
    (∀ m, s.config.irqCountMax = some m → m ≤ s.irqCount → t.irqCount = s.irqCount) ∧
    (s.config.irqCountMax ≠ some 0 → t.irq = true)

/-- 43_interrupt_aggregator.md R171: IRQDN takes one raise away and is fatal at count 0; IRQ becomes false
exactly when the count goes from 1 to 0; after RST it faults. -/
def Obligations.IrqdnLowersTheCount : Prop :=
  (∀ w, decode w = .ok .irqdn ↔ w = 0x60000000#32) ∧
  ∀ s : State,
    (s.irqCount = 0 → exec .irqdn s = .fault (.fatal .irqUnderflow { s with fault := some .irqUnderflow })) ∧
    (s.irqCount ≠ 0 →
      exec .irqdn s = .next { s with irqCount := s.irqCount - 1, returned := .nothing } ∧
      (({ s with irqCount := s.irqCount - 1, returned := .nothing } : State).irq = false ↔ s.irqCount = 1)) ∧
    (∀ t, exec .rst s = .next t → ∃ u, exec .irqdn t = .fault (.fatal .irqUnderflow u))

/-- 43_interrupt_aggregator.md R172: IRQST reports count > 0 and changes nothing; N raises then N lowers
leave it false, N then N-1 leave it true, for N up to IRQ_COUNT_MAX. -/
def Obligations.IrqstReportsTheLine : Prop :=
  (∀ w, decode w = .ok .irqst ↔ w = 0x40000000#32) ∧
  (∀ s : State, exec .irqst s = .next { s with returned := .bool (decide (0 < s.irqCount)) }) ∧
  ∀ (s : State) (n : Nat), s.irqCount = 0 → (∀ m, s.config.irqCountMax = some m → n ≤ m) →
    (∃ t, execAll (List.replicate n .irqup ++ List.replicate n .irqdn) s = .next t ∧
      exec .irqst t = .next { t with returned := .bool false }) ∧
    (1 ≤ n → ∃ t, execAll (List.replicate n .irqup ++ List.replicate (n - 1) .irqdn) s = .next t ∧
      exec .irqst t = .next { t with returned := .bool true })

/-- 43_interrupt_aggregator.md R176 (D13): above a finite bound the raises are absorbed, and as many lowers
end in F_IRQ_UNDERFLOW. -/
def Obligations.BoundedCounterAbsorbsRaises : Prop :=
  ∀ (s : State) (n m : Nat), s.irqCount = 0 → s.config.irqCountMax = some m → m < n →
    (∃ t, execAll (List.replicate n .irqup) s = .next t ∧ t.irqCount = m) ∧
    ∃ t, execAll (List.replicate n .irqup ++ List.replicate n .irqdn) s = .fault (.fatal .irqUnderflow t)

/-- 43_interrupt_aggregator.md R173 (unbounded counter, D13), for raises and lowers issued as the operations
IRQUP and IRQDN between accesses (upcalls made inside an access or a reset are not in this statement): if every
device raises only when its request bit goes from 0 to 1 and lowers only when it goes from 1 to 0, then irqCount
is the number of bits that are 1 and IRQ is their OR. -/
def Obligations.DisciplinedLineIsTheOr : Prop :=
  ∀ (es : List (DevIndex × Bool)) (bits : RequestBits) (s : State), s.config.irqCountMax = none →
    s.irqCount = bits.toList.count true →
    ∃ t, execAll (disciplinedOps es bits) s = .next t ∧ t.irqCount = (bitsAfter es bits).toList.count true ∧
      (t.irq = true ↔ ∃ d : DevIndex, (bitsAfter es bits)[d.val] = true)

/-! ## Attaching and detaching devices -/

/-- 44_configuration.md R198: a registration or unregistration does not change PSR, SSR or irqCount and
does not call the device. -/
def Obligations.RegistrationsLeaveRegistersAndDevices : Prop :=
  ∀ (i : Instr) (s t : State), isRegistration i = true → exec i s = .next t →
    t.psr = s.psr ∧ t.ssr = s.ssr ∧ t.irqCount = s.irqCount ∧ t.devices = s.devices ∧
    t.subDevices = s.subDevices ∧ t.callLog = s.callLog

/-- 44_configuration.md R185: REGIN claims an unclaimed port; a claimed one keeps its owner and the
conflict is reported. -/
def Obligations.ReginClaimsAPort : Prop :=
  (∀ (w : Word) (port : Port) (d : DevRef),
    decode w = .ok (.regin port d) ↔ d ≠ 0xFF#8 ∧ w = 0xB000#16 ++ port ++ d) ∧
  ∀ (s : State) (port : Port) (d : DevRef) (i : DevIndex), deviceIndex d = some i → i.val < s.config.nDev →
    (s.inAt port = none →
      exec (.regin port d) s =
        .next { s with ioIn := s.ioIn.set port.toNat (some i) port.isLt,
                       resetOrder := if s.owns i = 0 then s.resetOrder ++ [i] else s.resetOrder,
                       returned := .nothing }) ∧
    (∀ owner, s.inAt port = some owner →
      exec (.regin port d) s = .next { s with diagLog := s.diagLog ++ [.dupIn port owner i], returned := .nothing })

/-- 44_configuration.md R186: REGOUT is REGIN on the other table. -/
def Obligations.RegoutClaimsAPort : Prop :=
  (∀ (w : Word) (port : Port) (d : DevRef),
    decode w = .ok (.regout port d) ↔ d ≠ 0xFF#8 ∧ w = 0xC000#16 ++ port ++ d) ∧
  ∀ (s : State) (port : Port) (d : DevRef) (i : DevIndex), deviceIndex d = some i → i.val < s.config.nDev →
    (s.outAt port = none →
      exec (.regout port d) s =
        .next { s with ioOut := s.ioOut.set port.toNat (some i) port.isLt,
                       resetOrder := if s.owns i = 0 then s.resetOrder ++ [i] else s.resetOrder,
                       returned := .nothing }) ∧
    (∀ owner, s.outAt port = some owner →
      exec (.regout port d) s =
        .next { s with diagLog := s.diagLog ++ [.dupOut port owner i], returned := .nothing })

/-- 44_configuration.md R189 (any secondary slot is accepted, D17): REGSLOT places a device at an empty
coordinate, visible at once if the coordinate is selected; a taken one keeps its owner. -/
def Obligations.RegslotPlacesADevice : Prop :=
  ∀ (s : State) (ps ss pg : Quarter) (d : DevRef) (i : DevIndex), deviceIndex d = some i → i.val < s.config.nDev →
    (s.slotAt ⟨ps, ss, pg⟩ = none →
      ∃ t, exec (.regslot ps ss pg d) s = .next t ∧
        t = { s with slotLayout := t.slotLayout,
                     resetOrder := if s.owns i = 0 then s.resetOrder ++ [i] else s.resetOrder,
                     returned := .nothing } ∧
        (∀ c, t.slotAt c = if c = ⟨ps, ss, pg⟩ then some i else s.slotAt c) ∧
        (s.primary pg = ps → s.secondary pg = ss → t.visible pg = some i)) ∧
    (∀ owner, s.slotAt ⟨ps, ss, pg⟩ = some owner →
      exec (.regslot ps ss pg d) s =
        .next { s with diagLog := s.diagLog ++ [.dupSlot ⟨ps, ss, pg⟩ owner i], returned := .nothing })

/-- 44_configuration.md R187 (the caller is an operand, D33): UNREGIN by the owner releases the port, and
the device leaves ResetOrder with its last claim; by anyone else it is fatal. -/
def Obligations.UnreginReleasesAPort : Prop :=
  ∀ (s : State) (port : Port) (d : DevRef) (i : DevIndex), deviceIndex d = some i → i.val < s.config.nDev →
    (s.inAt port = some i →
      exec (.unregin port d) s =
        .next { s with ioIn := s.ioIn.set port.toNat none port.isLt,
                       resetOrder := if s.owns i = 1 then s.resetOrder.filter (fun e => e ≠ i) else s.resetOrder,
                       returned := .nothing }) ∧
    (s.inAt port ≠ some i →
      exec (.unregin port d) s = .fault (.fatal .unregInNotOwner { s with fault := some .unregInNotOwner }))

/-- 44_configuration.md R188: UNREGOUT is UNREGIN on the other table. -/
def Obligations.UnregoutReleasesAPort : Prop :=
  (∀ (w : Word) (port : Port) (d : DevRef),
    decode w = .ok (.unregout port d) ↔ d ≠ 0xFF#8 ∧ w = 0xE000#16 ++ port ++ d) ∧
  ∀ (s : State) (port : Port) (d : DevRef) (i : DevIndex), deviceIndex d = some i → i.val < s.config.nDev →
    (s.outAt port = some i →
      exec (.unregout port d) s =
        .next { s with ioOut := s.ioOut.set port.toNat none port.isLt,
                       resetOrder := if s.owns i = 1 then s.resetOrder.filter (fun e => e ≠ i) else s.resetOrder,
                       returned := .nothing }) ∧
    (s.outAt port ≠ some i →
      exec (.unregout port d) s = .fault (.fatal .unregOutNotOwner { s with fault := some .unregOutNotOwner }))

/-- 44_configuration.md R190 (the owner precondition for slots is the spec's derivation): UNREGSLOT by the
owner empties the coordinate, whose page floats at once if it was selected; by anyone else it is fatal. -/
def Obligations.UnregslotRemovesADevice : Prop :=
  ∀ (s : State) (ps ss pg : Quarter) (d : DevRef) (i : DevIndex), deviceIndex d = some i → i.val < s.config.nDev →
    (s.slotAt ⟨ps, ss, pg⟩ = some i →
      ∃ t, exec (.unregslot ps ss pg d) s = .next t ∧
        t = { s with slotLayout := t.slotLayout,
                     resetOrder := if s.owns i = 1 then s.resetOrder.filter (fun e => e ≠ i) else s.resetOrder,
                     returned := .nothing } ∧
        (∀ c, t.slotAt c = if c = ⟨ps, ss, pg⟩ then none else s.slotAt c) ∧
        (s.primary pg = ps → s.secondary pg = ss → t.visible pg = none)) ∧
    (s.slotAt ⟨ps, ss, pg⟩ ≠ some i →
      exec (.unregslot ps ss pg d) s =
        .fault (.fatal .unregSlotNotOwner { s with fault := some .unregSlotNotOwner }))

/-- 44_configuration.md R199 (the spec's derivation): a registration that was rejected creates no claim, and
unregistering it is fatal. -/
def Obligations.RejectedRegistrationCannotBeReleased : Prop :=
  ∀ (s : State) (d : DevRef) (i owner : DevIndex), deviceIndex d = some i → i.val < s.config.nDev → owner ≠ i →
    (∀ port, s.inAt port = some owner →
      ∃ t u, exec (.regin port d) s = .next t ∧ exec (.unregin port d) t = .fault (.fatal .unregInNotOwner u)) ∧
    (∀ port, s.outAt port = some owner →
      ∃ t u, exec (.regout port d) s = .next t ∧ exec (.unregout port d) t = .fault (.fatal .unregOutNotOwner u)) ∧
    (∀ ps ss pg, s.slotAt ⟨ps, ss, pg⟩ = some owner →
      ∃ t u, exec (.regslot ps ss pg d) s = .next t ∧
        exec (.unregslot ps ss pg d) t = .fault (.fatal .unregSlotNotOwner u))

/-- 44_configuration.md R199, R193 (D12), 70_reset_and_hazards.md R297: a registration of a port, a coordinate or
a sub-device, matched by its unregistration, leaves the block as it was, ResetOrder included. The first
sub-device must find the whole window free, else MUXUNREG is fatal (45_switched_mux.md R218). -/
def Obligations.MatchedRegistrationLeavesNoTrace : Prop :=
  (∀ (s : State) (d : DevRef) (i : DevIndex), s.Inv → deviceIndex d = some i → i.val < s.config.nDev →
    (∀ port, s.inAt port = none → ∃ t, exec (.regin port d) s = .next t ∧
      exec (.unregin port d) t = .next { s with returned := .nothing }) ∧
    (∀ port, s.outAt port = none → ∃ t, exec (.regout port d) s = .next t ∧
      exec (.unregout port d) t = .next { s with returned := .nothing }) ∧
    (∀ ps ss pg, s.slotAt ⟨ps, ss, pg⟩ = none → ∃ t, exec (.regslot ps ss pg d) s = .next t ∧
      exec (.unregslot ps ss pg d) t = .next { s with returned := .nothing })) ∧
  (∀ (s : State) (id : Byte) (r : DevRef) (j : SubIndex), s.Inv → s.mux.alive = true → deviceIndex r = some j →
    s.subAt id = none →
    ((∃ k, s.subAt k ≠ none) ∨
      ∀ i, s.inAt (windowPort s.config i) = none ∧ s.outAt (windowPort s.config i) = none) →
    ∃ t, exec (.muxreg id r) s = .next t ∧ exec (.muxunreg id) t = .next { s with returned := .nothing })

/-- 44_configuration.md R192, R196: a claim has at most one owner, and no operation takes a claim from its
owner but the owner's own release. -/
def Obligations.OwnersAreNeverDisplaced : Prop :=
  ∀ (i : Instr) (s t : State), exec i s = .next t →
    (∀ p d, s.inAt p = some d → t.inAt p = some d ∨
      (t.inAt p = none ∧ ((∃ r, i = .unregin p r ∧ deviceIndex r = some d) ∨ ∃ id, i = .muxunreg id ∧ d = s.config.muxDev))) ∧
    (∀ p d, s.outAt p = some d → t.outAt p = some d ∨
      (t.outAt p = none ∧ ((∃ r, i = .unregout p r ∧ deviceIndex r = some d) ∨ ∃ id, i = .muxunreg id ∧ d = s.config.muxDev))) ∧
    (∀ c d, s.slotAt c = some d → t.slotAt c = some d ∨
      (t.slotAt c = none ∧ ∃ r, i = .unregslot c.ps c.ss c.pg r ∧ deviceIndex r = some d))

/-- 44_configuration.md R191 (after it no operation has a step, D34; the count is not examined, D36):
DESTROY is fatal with a claim outstanding, else the block is no longer alive and nothing steps. That it looks at the
three tables alone, and so succeeds with an id left in the mux's table when no claim is left, is R191's pseudocode
taken over its corner case (c): the model's choice (log 30). -/
def Obligations.DestroyNeedsEmptyTables : Prop :=
  ∀ s : State,
    (((∃ c, s.slotAt c ≠ none) ∨ (∃ p, s.inAt p ≠ none) ∨ ∃ p, s.outAt p ≠ none) →
      exec .destroy s = .fault (.fatal .destroyOutstanding { s with fault := some .destroyOutstanding })) ∧
    ((∀ c, s.slotAt c = none) → (∀ p, s.inAt p = none) → (∀ p, s.outAt p = none) →
      exec .destroy s = .next { s with alive := false, returned := .nothing } ∧
      ∃ r, step { s with alive := false, returned := .nothing } = .refused r)

/-- 10_state.md R33 (the record format is D15): diagLog only grows, and nothing in the block reads it: what
an operation does, and what it appends, is the same whatever the log held. -/
def Obligations.DiagnosticsAreNeverRead : Prop :=
  ∀ (i : Instr) (s t : State), exec i s = .next t →
    ∃ new, t.diagLog = s.diagLog ++ new ∧
      ∀ log : List DiagRecord, exec i { s with diagLog := log } = .next { t with diagLog := log ++ new }

/-- 30_encoding.md R97 (D25), 44_configuration.md R197: NONE cannot be registered or named as a caller; an
operand that is no device index of the machine is refused too, by each of the six operations (log 10). -/
def Obligations.NoneCannotBeRegistered : Prop :=
  ∀ (s : State) (ps ss pg : Quarter) (port : Port) (id : Byte),
    exec (.regslot ps ss pg 0xFF#8) s = .refused .noneOperand ∧ exec (.unregslot ps ss pg 0xFF#8) s = .refused .noneOperand ∧
    exec (.regin port 0xFF#8) s = .refused .noneOperand ∧ exec (.regout port 0xFF#8) s = .refused .noneOperand ∧
    exec (.unregin port 0xFF#8) s = .refused .noneOperand ∧ exec (.unregout port 0xFF#8) s = .refused .noneOperand ∧
    (s.mux.alive = true → exec (.muxreg id 0xFF#8) s = .refused .noneOperand) ∧
    (∀ d i, deviceIndex d = some i → s.config.nDev ≤ i.val →
      exec (.regslot ps ss pg d) s = .refused .noSuchDevice ∧ exec (.unregslot ps ss pg d) s = .refused .noSuchDevice ∧
      exec (.regin port d) s = .refused .noSuchDevice ∧ exec (.regout port d) s = .refused .noSuchDevice ∧
      exec (.unregin port d) s = .refused .noSuchDevice ∧ exec (.unregout port d) s = .refused .noSuchDevice)

/-! ## The mux -/

/-- 45_switched_mux.md R211, R217 (the order of the claims is D29): a taken id is reported; the first
registration claims every free entry of the window, in the mux's own name, and reports the others; later
ones reuse the claim. -/
def Obligations.MuxregClaimsTheWindow : Prop :=
  ∀ (s : State) (id : Byte) (r : DevRef) (j : SubIndex), s.mux.alive = true → deviceIndex r = some j →
    (∀ owner, s.subAt id = some owner →
      exec (.muxreg id r) s = .next { s with diagLog := s.diagLog ++ [.dupMuxId id owner j], returned := .nothing }) ∧
    (s.subAt id = none → (∃ k, s.subAt k ≠ none) →
      exec (.muxreg id r) s =
        .next { s with mux := { s.mux with table := s.mux.table.set id.toNat (some j) id.isLt }, returned := .nothing }) ∧
    ((∀ k, s.subAt k = none) →
      ∃ t, exec (.muxreg id r) s = .next t ∧
        t = { s with ioIn := t.ioIn, ioOut := t.ioOut, resetOrder := t.resetOrder, diagLog := t.diagLog,
                     mux := { s.mux with table := s.mux.table.set id.toNat (some j) id.isLt }, returned := .nothing } ∧
        (∀ i, t.inAt (windowPort s.config i) = some ((s.inAt (windowPort s.config i)).getD s.config.muxDev) ∧
          t.outAt (windowPort s.config i) = some ((s.outAt (windowPort s.config i)).getD s.config.muxDev)) ∧
        (∀ p, (∀ i, p ≠ windowPort s.config i) → t.inAt p = s.inAt p ∧ t.outAt p = s.outAt p) ∧
        t.resetOrder =
          (if s.owns s.config.muxDev = 0 ∧
              (∃ i, s.inAt (windowPort s.config i) = none ∨ s.outAt (windowPort s.config i) = none)
            then s.resetOrder ++ [s.config.muxDev] else s.resetOrder) ∧
        t.diagLog = s.diagLog ++ windowOffsets.flatMap fun i =>
          ((s.inAt (windowPort s.config i)).toList.map fun o => .dupIn (windowPort s.config i) o s.config.muxDev) ++
          ((s.outAt (windowPort s.config i)).toList.map fun o => .dupOut (windowPort s.config i) o s.config.muxDev))

/-- 45_switched_mux.md R212, R218 (no tolerance at release, D29): MUXUNREG of an unknown id is fatal; the
window is released when the table becomes empty, and releasing an entry the mux never obtained is
fatal. -/
def Obligations.MuxunregReleasesTheWindow : Prop :=
  ∀ (s : State) (id : Byte), s.mux.alive = true →
    (s.subAt id = none →
      exec (.muxunreg id) s = .fault (.fatal .muxUnregUnknown { s with fault := some .muxUnregUnknown })) ∧
    (s.subAt id ≠ none → (∃ k, k ≠ id ∧ s.subAt k ≠ none) →
      exec (.muxunreg id) s =
        .next { s with mux := { s.mux with table := s.mux.table.set id.toNat none id.isLt }, returned := .nothing }) ∧
    (s.subAt id ≠ none → (∀ k, k ≠ id → s.subAt k = none) →
      (∀ i, s.inAt (windowPort s.config i) = some s.config.muxDev ∧
        s.outAt (windowPort s.config i) = some s.config.muxDev) →
      ∃ t, exec (.muxunreg id) s = .next t ∧
        t = { s with ioIn := t.ioIn, ioOut := t.ioOut, resetOrder := t.resetOrder,
                     mux := { s.mux with table := s.mux.table.set id.toNat none id.isLt }, returned := .nothing } ∧
        (∀ k, t.subAt k = none) ∧
        (∀ i, t.inAt (windowPort s.config i) = none ∧ t.outAt (windowPort s.config i) = none) ∧
        (∀ p, (∀ i, p ≠ windowPort s.config i) → t.inAt p = s.inAt p ∧ t.outAt p = s.outAt p) ∧
        t.resetOrder =
          if t.owns s.config.muxDev = 0 then s.resetOrder.filter (fun e => e ≠ s.config.muxDev) else s.resetOrder) ∧
    (s.subAt id ≠ none → (∀ k, k ≠ id → s.subAt k = none) →
      (∃ i, s.inAt (windowPort s.config i) ≠ some s.config.muxDev ∨
        s.outAt (windowPort s.config i) ≠ some s.config.muxDev) →
      ∃ c t, exec (.muxunreg id) s = .fault (.fatal c t) ∧ (c = .unregInNotOwner ∨ c = .unregOutNotOwner) ∧
        ∀ k, t.subAt k = none)

/-- 45_switched_mux.md R213: the mux's reset sets the selector to 0 and leaves the table; RST calls it if
and only if MUX_DEV is in ResetOrder (of a destroyed mux too, DEDUCED, log 12). -/
def Obligations.MuxResetClearsTheSelector : Prop :=
  (∀ w, decode w = .ok .muxrst ↔ w = 0x81000000#32) ∧
  (∀ s : State, s.mux.alive = true →
    exec .muxrst s = .next { s with mux := { s.mux with selector := 0x00#8 }, returned := .nothing }) ∧
  (∀ s t : State, exec .rst s = .next t →
    t.mux = { s.mux with selector := if s.config.muxDev ∈ s.resetOrder then 0x00#8 else s.mux.selector } ∧
    ∃ calls, t.callLog = s.callLog ++ calls ∧
      (DeviceCall.reset s.config.muxDev s.now ∈ calls ↔ s.config.muxDev ∈ s.resetOrder))

/-- 45_switched_mux.md R214: a write at offset 0 of the mux sets the selector and reaches no sub-device; at
any other offset it is forwarded verbatim to the selected sub-device, else ignored. That the sub-device's upcalls
are applied to irqCount and PSR is R81 (D19) and R221 with log 16 and log 18 (DEDUCED), PSW among them by log 16; that
a write through a claim left in the name of a destroyed mux does the same is log 12 (DEDUCED). -/
def Obligations.MuxWriteSelectsOrForwards : Prop :=
  ∀ (s : State) (port : Port) (v : Byte), s.outAt port = some s.config.muxDev →
    (port.extractLsb' 0 4 = 0#4 →
      exec (.iowr port v) s =
        .next { s with mux := { s.mux with selector := v },
                       callLog := s.callLog ++ [.writeIO s.config.muxDev port v s.now], returned := .nothing }) ∧
    (port.extractLsb' 0 4 ≠ 0#4 → s.subAt s.mux.selector = none →
      exec (.iowr port v) s =
        .next { s with callLog := s.callLog ++ [.writeIO s.config.muxDev port v s.now], returned := .nothing }) ∧
    (∀ j n, port.extractLsb' 0 4 ≠ 0#4 → s.subAt s.mux.selector = some j →
      countAfter s.config.irqCountMax ((s.subDeviceAt j).writeIO j port v s.now).upcalls s.irqCount = some n →
      exec (.iowr port v) s =
        .next { s with subDevices := (s.setSubDevice j ((s.subDeviceAt j).writeIO j port v s.now).device).subDevices,
                       irqCount := n, psr := psrAfter ((s.subDeviceAt j).writeIO j port v s.now).upcalls s.psr,
                       callLog := s.callLog ++
                         [.writeIO s.config.muxDev port v s.now, .subWriteIO j port v s.now],
                       returned := .nothing }) ∧
    (∀ j, port.extractLsb' 0 4 ≠ 0#4 → s.subAt s.mux.selector = some j →
      exec (.iowr port v) s = callSubWriteIO j port v (s.logCall (.writeIO s.config.muxDev port v s.now)))

/-- 45_switched_mux.md R215 (a read at offset 0 is forwarded too, D27): a read of the mux at any offset goes
to the selected sub-device, else the bus floats. That the sub-device's upcalls are applied to irqCount and PSR is
R81 (D19) and R221 with log 16 and log 18 (DEDUCED), PSW among them by log 16; that a read through a claim left in the
name of a destroyed mux does the same is log 12 (DEDUCED). -/
def Obligations.MuxReadForwards : Prop :=
  ∀ (s : State) (port : Port), s.inAt port = some s.config.muxDev →
    (s.subAt s.mux.selector = none →
      exec (.iord port) s =
        .next { s with callLog := s.callLog ++ [.readIO s.config.muxDev port s.now], returned := .byte 0xFF#8 }) ∧
    (∀ j n, s.subAt s.mux.selector = some j →
      countAfter s.config.irqCountMax ((s.subDeviceAt j).readIO j port s.now).upcalls s.irqCount = some n →
      exec (.iord port) s =
        .next { s with subDevices := (s.setSubDevice j ((s.subDeviceAt j).readIO j port s.now).device).subDevices,
                       irqCount := n, psr := psrAfter ((s.subDeviceAt j).readIO j port s.now).upcalls s.psr,
                       callLog := s.callLog ++ [.readIO s.config.muxDev port s.now, .subReadIO j port s.now],
                       returned := .byte ((s.subDeviceAt j).readIO j port s.now).value }) ∧
    (∀ j, s.subAt s.mux.selector = some j →
      exec (.iord port) s = callSubReadIO j port (s.logCall (.readIO s.config.muxDev port s.now)))

/-- 45_switched_mux.md R219 (that the violation is fatal is D30): MUXDESTROY is fatal with an id still
registered, else the mux ceases to exist and later MUX* operations are refused. -/
def Obligations.MuxDestroyNeedsAnEmptyTable : Prop :=
  ∀ s : State, s.mux.alive = true →
    ((∃ id, s.subAt id ≠ none) →
      exec .muxdestroy s =
        .fault (.fatal .muxDestroyOutstanding { s with fault := some .muxDestroyOutstanding })) ∧
    ((∀ id, s.subAt id = none) →
      ∃ t, exec .muxdestroy s = .next t ∧
        t = { s with mux := { s.mux with alive := false }, returned := .nothing } ∧
        ∀ id r, exec (.muxreg id r) t = .refused .muxDestroyed ∧ exec (.muxunreg id) t = .refused .muxDestroyed ∧
          exec .muxrst t = .refused .muxDestroyed ∧ exec .muxdestroy t = .refused .muxDestroyed)

/-- 45_switched_mux.md R210, 93_implementation_defined.md U11: the mux has no memory methods; an access that
would reach them is refused (log 11). -/
def Obligations.MuxHasNoMemory : Prop :=
  ∀ (s : State) (addr : Addr) (v : Byte), s.intercept addr = false → s.visible (page addr) = some s.config.muxDev →
    exec (.mrd addr) s = .refused .muxMemory ∧ exec (.mwr addr v) s = .refused .muxMemory

/-- 46_device_contract.md R238, R252 (D32), 45_switched_mux.md R216: a peek at the instant of a read, that is with
the read's TimeStamp, gives the byte the read returns (that PeekMem takes its TimeStamp as an argument is the
model's choice, log 28; the clause on the mux's peekIO is about a destroyed mux too, DEDUCED, log 12). -/
def Obligations.PeekAgreesWithRead : Prop :=
  ∀ s t : State,
    (∀ addr, exec (.mrd addr) s = .next t → ∃ b, s.peekMem addr s.now = some b ∧ t.returned = .byte b) ∧
    (∀ port, s.inAt port = some s.config.muxDev → exec (.iord port) s = .next t →
      t.returned = .byte (s.muxPeekIO port s.now))

/-! ## Calls: the underflow, the TimeStamp -/

/-- 60_exceptions.md R261 with 20_memory.md R81 and 43_interrupt_aggregator.md R171: an operation ends in
F_IRQ_UNDERFLOW exactly when one of the lowers it makes, its own or an upcall of a device it calls, finds the
count at 0, those before it counted (that upcalls count as they do when the call returns is log 18, and those of a
sub-device log 16, both DEDUCED). -/
def Obligations.UnderflowExactlyWhenALowerFindsZero : Prop :=
  ∀ (i : Instr) (s : State), (i = .rst → s.resetOrder.Nodup) →
    (EndsIn (exec i s) .irqUnderflow ↔ countAfter s.config.irqCountMax (upcallsOf i s) s.irqCount = none)

/-- 20_memory.md R69, R77, 10_state.md R35, 00_scope.md R5 (D26: time order is a premise), over any totally ordered
type Time: every call an operation makes carries the operation's TimeStamp unchanged, so that a trace in time order
calls the devices in time order; and an operation that calls no device does not depend on the TimeStamp. -/
def Obligations.TimestampsAreCarriedUnchanged : Prop :=
  ∀ (Time : Type) [LinearOrder Time],
    (∀ (s t : State Time) (w : TraceWord Time) (ws : List (TraceWord Time)), s.pending = w :: ws →
      stepOver s = .next t →
        t.now = w.time ∧ t.pending = ws ∧
        (∃ calls, t.callLog = s.callLog ++ calls ∧ ∀ c ∈ calls, c.time = w.time) ∧
        (TimeOrdered s → TimeOrdered t)) ∧
    (∀ (i : Instr) (s t : State Time) (n : Time), callsDevices i = false → perform i s = .next t →
      perform i { s with now := n } = .next { t with now := n })

/-- 00_scope.md R5 (Time is an open parameter, D26): exec, step and State.reset are the machine over any totally
ordered type Time at TraceTime, the numbers of 30_encoding.md R98. That they stand at this type, and the time 0 of
State.reset, are the model's choice (log 2). -/
def Obligations.ExecIsTheMachineAtTraceTime : Prop :=
  (∀ (i : Instr) (s : State), exec i s = perform i s) ∧ (∀ s : State, step s = stepOver s) ∧
  State.reset = State.construction (Time := TraceTime) 0
end

