-- ==== Sys2Proof/Laws/State.lean ====
section
/-! SUPPORT. Laws/State.lean: one lemma per field, or reader of fields, and update: what the update leaves in
it, so that no proof unfolds a record update. -/

namespace Sys2Proof.Machine

variable {Time : Type} (s : State Time)

/-! ### setSlot -/

@[simp] theorem State.setSlot_slotLayout (c : Coord) (d : Option DevIndex) : (s.setSlot c d).slotLayout = s.slotLayout.set c.number.toNat d c.number.isLt := rfl
@[simp] theorem State.setSlot_subslotFlag (c : Coord) (d : Option DevIndex) : (s.setSlot c d).subslotFlag = s.subslotFlag := rfl
@[simp] theorem State.setSlot_psr (c : Coord) (d : Option DevIndex) : (s.setSlot c d).psr = s.psr := rfl
@[simp] theorem State.setSlot_ssr (c : Coord) (d : Option DevIndex) : (s.setSlot c d).ssr = s.ssr := rfl
@[simp] theorem State.setSlot_ioIn (c : Coord) (d : Option DevIndex) : (s.setSlot c d).ioIn = s.ioIn := rfl
@[simp] theorem State.setSlot_ioOut (c : Coord) (d : Option DevIndex) : (s.setSlot c d).ioOut = s.ioOut := rfl
@[simp] theorem State.setSlot_irqCount (c : Coord) (d : Option DevIndex) : (s.setSlot c d).irqCount = s.irqCount := rfl
@[simp] theorem State.setSlot_resetOrder (c : Coord) (d : Option DevIndex) : (s.setSlot c d).resetOrder = s.resetOrder := rfl
@[simp] theorem State.setSlot_diagLog (c : Coord) (d : Option DevIndex) : (s.setSlot c d).diagLog = s.diagLog := rfl
@[simp] theorem State.setSlot_alive (c : Coord) (d : Option DevIndex) : (s.setSlot c d).alive = s.alive := rfl
@[simp] theorem State.setSlot_fault (c : Coord) (d : Option DevIndex) : (s.setSlot c d).fault = s.fault := rfl
@[simp] theorem State.setSlot_mux (c : Coord) (d : Option DevIndex) : (s.setSlot c d).mux = s.mux := rfl
@[simp] theorem State.setSlot_config (c : Coord) (d : Option DevIndex) : (s.setSlot c d).config = s.config := rfl
@[simp] theorem State.setSlot_devices (c : Coord) (d : Option DevIndex) : (s.setSlot c d).devices = s.devices := rfl
@[simp] theorem State.setSlot_subDevices (c : Coord) (d : Option DevIndex) : (s.setSlot c d).subDevices = s.subDevices := rfl
@[simp] theorem State.setSlot_now (c : Coord) (d : Option DevIndex) : (s.setSlot c d).now = s.now := rfl
@[simp] theorem State.setSlot_pending (c : Coord) (d : Option DevIndex) : (s.setSlot c d).pending = s.pending := rfl
@[simp] theorem State.setSlot_returned (c : Coord) (d : Option DevIndex) : (s.setSlot c d).returned = s.returned := rfl
@[simp] theorem State.setSlot_callLog (c : Coord) (d : Option DevIndex) : (s.setSlot c d).callLog = s.callLog := rfl
@[simp] theorem State.setSlot_flagAt (c : Coord) (d : Option DevIndex) (q : Quarter) : (s.setSlot c d).flagAt q = s.flagAt q := rfl
@[simp] theorem State.setSlot_ssrAt (c : Coord) (d : Option DevIndex) (q : Quarter) : (s.setSlot c d).ssrAt q = s.ssrAt q := rfl
@[simp] theorem State.setSlot_inAt (c : Coord) (d : Option DevIndex) (k : Port) : (s.setSlot c d).inAt k = s.inAt k := rfl
@[simp] theorem State.setSlot_outAt (c : Coord) (d : Option DevIndex) (k : Port) : (s.setSlot c d).outAt k = s.outAt k := rfl
@[simp] theorem State.setSlot_deviceAt (c : Coord) (d : Option DevIndex) (e : DevIndex) : (s.setSlot c d).deviceAt e = s.deviceAt e := rfl
@[simp] theorem State.setSlot_subDeviceAt (c : Coord) (d : Option DevIndex) (i : SubIndex) : (s.setSlot c d).subDeviceAt i = s.subDeviceAt i := rfl
@[simp] theorem State.setSlot_primary (c : Coord) (d : Option DevIndex) (q : Quarter) : (s.setSlot c d).primary q = s.primary q := rfl
@[simp] theorem State.setSlot_primary3 (c : Coord) (d : Option DevIndex) : (s.setSlot c d).primary3 = s.primary3 := rfl
@[simp] theorem State.setSlot_secondary (c : Coord) (d : Option DevIndex) (q : Quarter) : (s.setSlot c d).secondary q = s.secondary q := rfl
@[simp] theorem State.setSlot_intercept (c : Coord) (d : Option DevIndex) (a : Addr) : (s.setSlot c d).intercept a = s.intercept a := rfl
@[simp] theorem State.setSlot_irq (c : Coord) (d : Option DevIndex) : (s.setSlot c d).irq = s.irq := rfl
@[simp] theorem State.setSlot_subAt (c : Coord) (d : Option DevIndex) (k : Byte) : (s.setSlot c d).subAt k = s.subAt k := rfl
@[simp] theorem State.setSlot_muxOccupied (c : Coord) (d : Option DevIndex) : (s.setSlot c d).muxOccupied = s.muxOccupied := rfl
@[simp] theorem State.setSlot_blocked (c : Coord) (d : Option DevIndex) : (s.setSlot c d).blocked = s.blocked := rfl

/-! ### setPsr -/

@[simp] theorem State.setPsr_slotLayout (v : Byte) : (s.setPsr v).slotLayout = s.slotLayout := rfl
@[simp] theorem State.setPsr_subslotFlag (v : Byte) : (s.setPsr v).subslotFlag = s.subslotFlag := rfl
@[simp] theorem State.setPsr_psr (v : Byte) : (s.setPsr v).psr = v := rfl
@[simp] theorem State.setPsr_ssr (v : Byte) : (s.setPsr v).ssr = s.ssr := rfl
@[simp] theorem State.setPsr_ioIn (v : Byte) : (s.setPsr v).ioIn = s.ioIn := rfl
@[simp] theorem State.setPsr_ioOut (v : Byte) : (s.setPsr v).ioOut = s.ioOut := rfl
@[simp] theorem State.setPsr_irqCount (v : Byte) : (s.setPsr v).irqCount = s.irqCount := rfl
@[simp] theorem State.setPsr_resetOrder (v : Byte) : (s.setPsr v).resetOrder = s.resetOrder := rfl
@[simp] theorem State.setPsr_diagLog (v : Byte) : (s.setPsr v).diagLog = s.diagLog := rfl
@[simp] theorem State.setPsr_alive (v : Byte) : (s.setPsr v).alive = s.alive := rfl
@[simp] theorem State.setPsr_fault (v : Byte) : (s.setPsr v).fault = s.fault := rfl
@[simp] theorem State.setPsr_mux (v : Byte) : (s.setPsr v).mux = s.mux := rfl
@[simp] theorem State.setPsr_config (v : Byte) : (s.setPsr v).config = s.config := rfl
@[simp] theorem State.setPsr_devices (v : Byte) : (s.setPsr v).devices = s.devices := rfl
@[simp] theorem State.setPsr_subDevices (v : Byte) : (s.setPsr v).subDevices = s.subDevices := rfl
@[simp] theorem State.setPsr_now (v : Byte) : (s.setPsr v).now = s.now := rfl
@[simp] theorem State.setPsr_pending (v : Byte) : (s.setPsr v).pending = s.pending := rfl
@[simp] theorem State.setPsr_returned (v : Byte) : (s.setPsr v).returned = s.returned := rfl
@[simp] theorem State.setPsr_callLog (v : Byte) : (s.setPsr v).callLog = s.callLog := rfl
@[simp] theorem State.setPsr_flagAt (v : Byte) (q : Quarter) : (s.setPsr v).flagAt q = s.flagAt q := rfl
@[simp] theorem State.setPsr_ssrAt (v : Byte) (q : Quarter) : (s.setPsr v).ssrAt q = s.ssrAt q := rfl
@[simp] theorem State.setPsr_slotAt (v : Byte) (k : Coord) : (s.setPsr v).slotAt k = s.slotAt k := rfl
@[simp] theorem State.setPsr_inAt (v : Byte) (k : Port) : (s.setPsr v).inAt k = s.inAt k := rfl
@[simp] theorem State.setPsr_outAt (v : Byte) (k : Port) : (s.setPsr v).outAt k = s.outAt k := rfl
@[simp] theorem State.setPsr_deviceAt (v : Byte) (e : DevIndex) : (s.setPsr v).deviceAt e = s.deviceAt e := rfl
@[simp] theorem State.setPsr_subDeviceAt (v : Byte) (i : SubIndex) : (s.setPsr v).subDeviceAt i = s.subDeviceAt i := rfl
@[simp] theorem State.setPsr_owns (v : Byte) (e : DevIndex) : (s.setPsr v).owns e = s.owns e := rfl
@[simp] theorem State.setPsr_irq (v : Byte) : (s.setPsr v).irq = s.irq := rfl
@[simp] theorem State.setPsr_subAt (v : Byte) (k : Byte) : (s.setPsr v).subAt k = s.subAt k := rfl
@[simp] theorem State.setPsr_muxOccupied (v : Byte) : (s.setPsr v).muxOccupied = s.muxOccupied := rfl
@[simp] theorem State.setPsr_blocked (v : Byte) : (s.setPsr v).blocked = s.blocked := rfl
@[simp] theorem State.setPsr_hasClaims (v : Byte) : (s.setPsr v).hasClaims = s.hasClaims := rfl

/-! ### setSsr -/

@[simp] theorem State.setSsr_slotLayout (ps : Quarter) (v : Byte) : (s.setSsr ps v).slotLayout = s.slotLayout := rfl
@[simp] theorem State.setSsr_subslotFlag (ps : Quarter) (v : Byte) : (s.setSsr ps v).subslotFlag = s.subslotFlag := rfl
@[simp] theorem State.setSsr_psr (ps : Quarter) (v : Byte) : (s.setSsr ps v).psr = s.psr := rfl
@[simp] theorem State.setSsr_ssr (ps : Quarter) (v : Byte) : (s.setSsr ps v).ssr = s.ssr.set ps.toNat v ps.isLt := rfl
@[simp] theorem State.setSsr_ioIn (ps : Quarter) (v : Byte) : (s.setSsr ps v).ioIn = s.ioIn := rfl
@[simp] theorem State.setSsr_ioOut (ps : Quarter) (v : Byte) : (s.setSsr ps v).ioOut = s.ioOut := rfl
@[simp] theorem State.setSsr_irqCount (ps : Quarter) (v : Byte) : (s.setSsr ps v).irqCount = s.irqCount := rfl
@[simp] theorem State.setSsr_resetOrder (ps : Quarter) (v : Byte) : (s.setSsr ps v).resetOrder = s.resetOrder := rfl
@[simp] theorem State.setSsr_diagLog (ps : Quarter) (v : Byte) : (s.setSsr ps v).diagLog = s.diagLog := rfl
@[simp] theorem State.setSsr_alive (ps : Quarter) (v : Byte) : (s.setSsr ps v).alive = s.alive := rfl
@[simp] theorem State.setSsr_fault (ps : Quarter) (v : Byte) : (s.setSsr ps v).fault = s.fault := rfl
@[simp] theorem State.setSsr_mux (ps : Quarter) (v : Byte) : (s.setSsr ps v).mux = s.mux := rfl
@[simp] theorem State.setSsr_config (ps : Quarter) (v : Byte) : (s.setSsr ps v).config = s.config := rfl
@[simp] theorem State.setSsr_devices (ps : Quarter) (v : Byte) : (s.setSsr ps v).devices = s.devices := rfl
@[simp] theorem State.setSsr_subDevices (ps : Quarter) (v : Byte) : (s.setSsr ps v).subDevices = s.subDevices := rfl
@[simp] theorem State.setSsr_now (ps : Quarter) (v : Byte) : (s.setSsr ps v).now = s.now := rfl
@[simp] theorem State.setSsr_pending (ps : Quarter) (v : Byte) : (s.setSsr ps v).pending = s.pending := rfl
@[simp] theorem State.setSsr_returned (ps : Quarter) (v : Byte) : (s.setSsr ps v).returned = s.returned := rfl
@[simp] theorem State.setSsr_callLog (ps : Quarter) (v : Byte) : (s.setSsr ps v).callLog = s.callLog := rfl
@[simp] theorem State.setSsr_flagAt (ps : Quarter) (v : Byte) (q : Quarter) : (s.setSsr ps v).flagAt q = s.flagAt q := rfl
@[simp] theorem State.setSsr_slotAt (ps : Quarter) (v : Byte) (k : Coord) : (s.setSsr ps v).slotAt k = s.slotAt k := rfl
@[simp] theorem State.setSsr_inAt (ps : Quarter) (v : Byte) (k : Port) : (s.setSsr ps v).inAt k = s.inAt k := rfl
@[simp] theorem State.setSsr_outAt (ps : Quarter) (v : Byte) (k : Port) : (s.setSsr ps v).outAt k = s.outAt k := rfl
@[simp] theorem State.setSsr_deviceAt (ps : Quarter) (v : Byte) (e : DevIndex) : (s.setSsr ps v).deviceAt e = s.deviceAt e := rfl
@[simp] theorem State.setSsr_subDeviceAt (ps : Quarter) (v : Byte) (i : SubIndex) : (s.setSsr ps v).subDeviceAt i = s.subDeviceAt i := rfl
@[simp] theorem State.setSsr_primary (ps : Quarter) (v : Byte) (q : Quarter) : (s.setSsr ps v).primary q = s.primary q := rfl
@[simp] theorem State.setSsr_primary3 (ps : Quarter) (v : Byte) : (s.setSsr ps v).primary3 = s.primary3 := rfl
@[simp] theorem State.setSsr_intercept (ps : Quarter) (v : Byte) (a : Addr) : (s.setSsr ps v).intercept a = s.intercept a := rfl
@[simp] theorem State.setSsr_owns (ps : Quarter) (v : Byte) (e : DevIndex) : (s.setSsr ps v).owns e = s.owns e := rfl
@[simp] theorem State.setSsr_irq (ps : Quarter) (v : Byte) : (s.setSsr ps v).irq = s.irq := rfl
@[simp] theorem State.setSsr_subAt (ps : Quarter) (v : Byte) (k : Byte) : (s.setSsr ps v).subAt k = s.subAt k := rfl
@[simp] theorem State.setSsr_muxOccupied (ps : Quarter) (v : Byte) : (s.setSsr ps v).muxOccupied = s.muxOccupied := rfl
@[simp] theorem State.setSsr_blocked (ps : Quarter) (v : Byte) : (s.setSsr ps v).blocked = s.blocked := rfl
@[simp] theorem State.setSsr_hasClaims (ps : Quarter) (v : Byte) : (s.setSsr ps v).hasClaims = s.hasClaims := rfl

/-! ### clearSsr -/

@[simp] theorem State.clearSsr_slotLayout : (s.clearSsr).slotLayout = s.slotLayout := rfl
@[simp] theorem State.clearSsr_subslotFlag : (s.clearSsr).subslotFlag = s.subslotFlag := rfl
@[simp] theorem State.clearSsr_psr : (s.clearSsr).psr = s.psr := rfl
@[simp] theorem State.clearSsr_ssr : (s.clearSsr).ssr = Vector.replicate Config.nPrimary 0x00#8 := rfl
@[simp] theorem State.clearSsr_ioIn : (s.clearSsr).ioIn = s.ioIn := rfl
@[simp] theorem State.clearSsr_ioOut : (s.clearSsr).ioOut = s.ioOut := rfl
@[simp] theorem State.clearSsr_irqCount : (s.clearSsr).irqCount = s.irqCount := rfl
@[simp] theorem State.clearSsr_resetOrder : (s.clearSsr).resetOrder = s.resetOrder := rfl
@[simp] theorem State.clearSsr_diagLog : (s.clearSsr).diagLog = s.diagLog := rfl
@[simp] theorem State.clearSsr_alive : (s.clearSsr).alive = s.alive := rfl
@[simp] theorem State.clearSsr_fault : (s.clearSsr).fault = s.fault := rfl
@[simp] theorem State.clearSsr_mux : (s.clearSsr).mux = s.mux := rfl
@[simp] theorem State.clearSsr_config : (s.clearSsr).config = s.config := rfl
@[simp] theorem State.clearSsr_devices : (s.clearSsr).devices = s.devices := rfl
@[simp] theorem State.clearSsr_subDevices : (s.clearSsr).subDevices = s.subDevices := rfl
@[simp] theorem State.clearSsr_now : (s.clearSsr).now = s.now := rfl
@[simp] theorem State.clearSsr_pending : (s.clearSsr).pending = s.pending := rfl
@[simp] theorem State.clearSsr_returned : (s.clearSsr).returned = s.returned := rfl
@[simp] theorem State.clearSsr_callLog : (s.clearSsr).callLog = s.callLog := rfl
@[simp] theorem State.clearSsr_flagAt (q : Quarter) : (s.clearSsr).flagAt q = s.flagAt q := rfl
@[simp] theorem State.clearSsr_slotAt (k : Coord) : (s.clearSsr).slotAt k = s.slotAt k := rfl
@[simp] theorem State.clearSsr_inAt (k : Port) : (s.clearSsr).inAt k = s.inAt k := rfl
@[simp] theorem State.clearSsr_outAt (k : Port) : (s.clearSsr).outAt k = s.outAt k := rfl
@[simp] theorem State.clearSsr_deviceAt (e : DevIndex) : (s.clearSsr).deviceAt e = s.deviceAt e := rfl
@[simp] theorem State.clearSsr_subDeviceAt (i : SubIndex) : (s.clearSsr).subDeviceAt i = s.subDeviceAt i := rfl
@[simp] theorem State.clearSsr_primary (q : Quarter) : (s.clearSsr).primary q = s.primary q := rfl
@[simp] theorem State.clearSsr_primary3 : (s.clearSsr).primary3 = s.primary3 := rfl
@[simp] theorem State.clearSsr_intercept (a : Addr) : (s.clearSsr).intercept a = s.intercept a := rfl
@[simp] theorem State.clearSsr_owns (e : DevIndex) : (s.clearSsr).owns e = s.owns e := rfl
@[simp] theorem State.clearSsr_irq : (s.clearSsr).irq = s.irq := rfl
@[simp] theorem State.clearSsr_subAt (k : Byte) : (s.clearSsr).subAt k = s.subAt k := rfl
@[simp] theorem State.clearSsr_muxOccupied : (s.clearSsr).muxOccupied = s.muxOccupied := rfl
@[simp] theorem State.clearSsr_blocked : (s.clearSsr).blocked = s.blocked := rfl
@[simp] theorem State.clearSsr_hasClaims : (s.clearSsr).hasClaims = s.hasClaims := rfl

/-! ### setIn -/

@[simp] theorem State.setIn_slotLayout (p : Port) (d : Option DevIndex) : (s.setIn p d).slotLayout = s.slotLayout := rfl
@[simp] theorem State.setIn_subslotFlag (p : Port) (d : Option DevIndex) : (s.setIn p d).subslotFlag = s.subslotFlag := rfl
@[simp] theorem State.setIn_psr (p : Port) (d : Option DevIndex) : (s.setIn p d).psr = s.psr := rfl
@[simp] theorem State.setIn_ssr (p : Port) (d : Option DevIndex) : (s.setIn p d).ssr = s.ssr := rfl
@[simp] theorem State.setIn_ioIn (p : Port) (d : Option DevIndex) : (s.setIn p d).ioIn = s.ioIn.set p.toNat d p.isLt := rfl
@[simp] theorem State.setIn_ioOut (p : Port) (d : Option DevIndex) : (s.setIn p d).ioOut = s.ioOut := rfl
@[simp] theorem State.setIn_irqCount (p : Port) (d : Option DevIndex) : (s.setIn p d).irqCount = s.irqCount := rfl
@[simp] theorem State.setIn_resetOrder (p : Port) (d : Option DevIndex) : (s.setIn p d).resetOrder = s.resetOrder := rfl
@[simp] theorem State.setIn_diagLog (p : Port) (d : Option DevIndex) : (s.setIn p d).diagLog = s.diagLog := rfl
@[simp] theorem State.setIn_alive (p : Port) (d : Option DevIndex) : (s.setIn p d).alive = s.alive := rfl
@[simp] theorem State.setIn_fault (p : Port) (d : Option DevIndex) : (s.setIn p d).fault = s.fault := rfl
@[simp] theorem State.setIn_mux (p : Port) (d : Option DevIndex) : (s.setIn p d).mux = s.mux := rfl
@[simp] theorem State.setIn_config (p : Port) (d : Option DevIndex) : (s.setIn p d).config = s.config := rfl
@[simp] theorem State.setIn_devices (p : Port) (d : Option DevIndex) : (s.setIn p d).devices = s.devices := rfl
@[simp] theorem State.setIn_subDevices (p : Port) (d : Option DevIndex) : (s.setIn p d).subDevices = s.subDevices := rfl
@[simp] theorem State.setIn_now (p : Port) (d : Option DevIndex) : (s.setIn p d).now = s.now := rfl
@[simp] theorem State.setIn_pending (p : Port) (d : Option DevIndex) : (s.setIn p d).pending = s.pending := rfl
@[simp] theorem State.setIn_returned (p : Port) (d : Option DevIndex) : (s.setIn p d).returned = s.returned := rfl
@[simp] theorem State.setIn_callLog (p : Port) (d : Option DevIndex) : (s.setIn p d).callLog = s.callLog := rfl
@[simp] theorem State.setIn_flagAt (p : Port) (d : Option DevIndex) (q : Quarter) : (s.setIn p d).flagAt q = s.flagAt q := rfl
@[simp] theorem State.setIn_ssrAt (p : Port) (d : Option DevIndex) (q : Quarter) : (s.setIn p d).ssrAt q = s.ssrAt q := rfl
@[simp] theorem State.setIn_slotAt (p : Port) (d : Option DevIndex) (k : Coord) : (s.setIn p d).slotAt k = s.slotAt k := rfl
@[simp] theorem State.setIn_outAt (p : Port) (d : Option DevIndex) (k : Port) : (s.setIn p d).outAt k = s.outAt k := rfl
@[simp] theorem State.setIn_deviceAt (p : Port) (d : Option DevIndex) (e : DevIndex) : (s.setIn p d).deviceAt e = s.deviceAt e := rfl
@[simp] theorem State.setIn_subDeviceAt (p : Port) (d : Option DevIndex) (i : SubIndex) : (s.setIn p d).subDeviceAt i = s.subDeviceAt i := rfl
@[simp] theorem State.setIn_primary (p : Port) (d : Option DevIndex) (q : Quarter) : (s.setIn p d).primary q = s.primary q := rfl
@[simp] theorem State.setIn_primary3 (p : Port) (d : Option DevIndex) : (s.setIn p d).primary3 = s.primary3 := rfl
@[simp] theorem State.setIn_secondary (p : Port) (d : Option DevIndex) (q : Quarter) : (s.setIn p d).secondary q = s.secondary q := rfl
@[simp] theorem State.setIn_visible (p : Port) (d : Option DevIndex) (q : Quarter) : (s.setIn p d).visible q = s.visible q := rfl
@[simp] theorem State.setIn_intercept (p : Port) (d : Option DevIndex) (a : Addr) : (s.setIn p d).intercept a = s.intercept a := rfl
@[simp] theorem State.setIn_resolveMem (p : Port) (d : Option DevIndex) (a : Addr) : (s.setIn p d).resolveMem a = s.resolveMem a := rfl
@[simp] theorem State.setIn_irq (p : Port) (d : Option DevIndex) : (s.setIn p d).irq = s.irq := rfl
@[simp] theorem State.setIn_subAt (p : Port) (d : Option DevIndex) (k : Byte) : (s.setIn p d).subAt k = s.subAt k := rfl
@[simp] theorem State.setIn_muxOccupied (p : Port) (d : Option DevIndex) : (s.setIn p d).muxOccupied = s.muxOccupied := rfl
@[simp] theorem State.setIn_blocked (p : Port) (d : Option DevIndex) : (s.setIn p d).blocked = s.blocked := rfl

/-! ### setOut -/

@[simp] theorem State.setOut_slotLayout (p : Port) (d : Option DevIndex) : (s.setOut p d).slotLayout = s.slotLayout := rfl
@[simp] theorem State.setOut_subslotFlag (p : Port) (d : Option DevIndex) : (s.setOut p d).subslotFlag = s.subslotFlag := rfl
@[simp] theorem State.setOut_psr (p : Port) (d : Option DevIndex) : (s.setOut p d).psr = s.psr := rfl
@[simp] theorem State.setOut_ssr (p : Port) (d : Option DevIndex) : (s.setOut p d).ssr = s.ssr := rfl
@[simp] theorem State.setOut_ioIn (p : Port) (d : Option DevIndex) : (s.setOut p d).ioIn = s.ioIn := rfl
@[simp] theorem State.setOut_ioOut (p : Port) (d : Option DevIndex) : (s.setOut p d).ioOut = s.ioOut.set p.toNat d p.isLt := rfl
@[simp] theorem State.setOut_irqCount (p : Port) (d : Option DevIndex) : (s.setOut p d).irqCount = s.irqCount := rfl
@[simp] theorem State.setOut_resetOrder (p : Port) (d : Option DevIndex) : (s.setOut p d).resetOrder = s.resetOrder := rfl
@[simp] theorem State.setOut_diagLog (p : Port) (d : Option DevIndex) : (s.setOut p d).diagLog = s.diagLog := rfl
@[simp] theorem State.setOut_alive (p : Port) (d : Option DevIndex) : (s.setOut p d).alive = s.alive := rfl
@[simp] theorem State.setOut_fault (p : Port) (d : Option DevIndex) : (s.setOut p d).fault = s.fault := rfl
@[simp] theorem State.setOut_mux (p : Port) (d : Option DevIndex) : (s.setOut p d).mux = s.mux := rfl
@[simp] theorem State.setOut_config (p : Port) (d : Option DevIndex) : (s.setOut p d).config = s.config := rfl
@[simp] theorem State.setOut_devices (p : Port) (d : Option DevIndex) : (s.setOut p d).devices = s.devices := rfl
@[simp] theorem State.setOut_subDevices (p : Port) (d : Option DevIndex) : (s.setOut p d).subDevices = s.subDevices := rfl
@[simp] theorem State.setOut_now (p : Port) (d : Option DevIndex) : (s.setOut p d).now = s.now := rfl
@[simp] theorem State.setOut_pending (p : Port) (d : Option DevIndex) : (s.setOut p d).pending = s.pending := rfl
@[simp] theorem State.setOut_returned (p : Port) (d : Option DevIndex) : (s.setOut p d).returned = s.returned := rfl
@[simp] theorem State.setOut_callLog (p : Port) (d : Option DevIndex) : (s.setOut p d).callLog = s.callLog := rfl
@[simp] theorem State.setOut_flagAt (p : Port) (d : Option DevIndex) (q : Quarter) : (s.setOut p d).flagAt q = s.flagAt q := rfl
@[simp] theorem State.setOut_ssrAt (p : Port) (d : Option DevIndex) (q : Quarter) : (s.setOut p d).ssrAt q = s.ssrAt q := rfl
@[simp] theorem State.setOut_slotAt (p : Port) (d : Option DevIndex) (k : Coord) : (s.setOut p d).slotAt k = s.slotAt k := rfl
@[simp] theorem State.setOut_inAt (p : Port) (d : Option DevIndex) (k : Port) : (s.setOut p d).inAt k = s.inAt k := rfl
@[simp] theorem State.setOut_deviceAt (p : Port) (d : Option DevIndex) (e : DevIndex) : (s.setOut p d).deviceAt e = s.deviceAt e := rfl
@[simp] theorem State.setOut_subDeviceAt (p : Port) (d : Option DevIndex) (i : SubIndex) : (s.setOut p d).subDeviceAt i = s.subDeviceAt i := rfl
@[simp] theorem State.setOut_primary (p : Port) (d : Option DevIndex) (q : Quarter) : (s.setOut p d).primary q = s.primary q := rfl
@[simp] theorem State.setOut_primary3 (p : Port) (d : Option DevIndex) : (s.setOut p d).primary3 = s.primary3 := rfl
@[simp] theorem State.setOut_secondary (p : Port) (d : Option DevIndex) (q : Quarter) : (s.setOut p d).secondary q = s.secondary q := rfl
@[simp] theorem State.setOut_visible (p : Port) (d : Option DevIndex) (q : Quarter) : (s.setOut p d).visible q = s.visible q := rfl
@[simp] theorem State.setOut_intercept (p : Port) (d : Option DevIndex) (a : Addr) : (s.setOut p d).intercept a = s.intercept a := rfl
@[simp] theorem State.setOut_resolveMem (p : Port) (d : Option DevIndex) (a : Addr) : (s.setOut p d).resolveMem a = s.resolveMem a := rfl
@[simp] theorem State.setOut_irq (p : Port) (d : Option DevIndex) : (s.setOut p d).irq = s.irq := rfl
@[simp] theorem State.setOut_subAt (p : Port) (d : Option DevIndex) (k : Byte) : (s.setOut p d).subAt k = s.subAt k := rfl
@[simp] theorem State.setOut_muxOccupied (p : Port) (d : Option DevIndex) : (s.setOut p d).muxOccupied = s.muxOccupied := rfl
@[simp] theorem State.setOut_blocked (p : Port) (d : Option DevIndex) : (s.setOut p d).blocked = s.blocked := rfl

/-! ### setIrqCount -/

@[simp] theorem State.setIrqCount_slotLayout (n : Nat) : (s.setIrqCount n).slotLayout = s.slotLayout := rfl
@[simp] theorem State.setIrqCount_subslotFlag (n : Nat) : (s.setIrqCount n).subslotFlag = s.subslotFlag := rfl
@[simp] theorem State.setIrqCount_psr (n : Nat) : (s.setIrqCount n).psr = s.psr := rfl
@[simp] theorem State.setIrqCount_ssr (n : Nat) : (s.setIrqCount n).ssr = s.ssr := rfl
@[simp] theorem State.setIrqCount_ioIn (n : Nat) : (s.setIrqCount n).ioIn = s.ioIn := rfl
@[simp] theorem State.setIrqCount_ioOut (n : Nat) : (s.setIrqCount n).ioOut = s.ioOut := rfl
@[simp] theorem State.setIrqCount_irqCount (n : Nat) : (s.setIrqCount n).irqCount = n := rfl
@[simp] theorem State.setIrqCount_resetOrder (n : Nat) : (s.setIrqCount n).resetOrder = s.resetOrder := rfl
@[simp] theorem State.setIrqCount_diagLog (n : Nat) : (s.setIrqCount n).diagLog = s.diagLog := rfl
@[simp] theorem State.setIrqCount_alive (n : Nat) : (s.setIrqCount n).alive = s.alive := rfl
@[simp] theorem State.setIrqCount_fault (n : Nat) : (s.setIrqCount n).fault = s.fault := rfl
@[simp] theorem State.setIrqCount_mux (n : Nat) : (s.setIrqCount n).mux = s.mux := rfl
@[simp] theorem State.setIrqCount_config (n : Nat) : (s.setIrqCount n).config = s.config := rfl
@[simp] theorem State.setIrqCount_devices (n : Nat) : (s.setIrqCount n).devices = s.devices := rfl
@[simp] theorem State.setIrqCount_subDevices (n : Nat) : (s.setIrqCount n).subDevices = s.subDevices := rfl
@[simp] theorem State.setIrqCount_now (n : Nat) : (s.setIrqCount n).now = s.now := rfl
@[simp] theorem State.setIrqCount_pending (n : Nat) : (s.setIrqCount n).pending = s.pending := rfl
@[simp] theorem State.setIrqCount_returned (n : Nat) : (s.setIrqCount n).returned = s.returned := rfl
@[simp] theorem State.setIrqCount_callLog (n : Nat) : (s.setIrqCount n).callLog = s.callLog := rfl
@[simp] theorem State.setIrqCount_flagAt (n : Nat) (q : Quarter) : (s.setIrqCount n).flagAt q = s.flagAt q := rfl
@[simp] theorem State.setIrqCount_ssrAt (n : Nat) (q : Quarter) : (s.setIrqCount n).ssrAt q = s.ssrAt q := rfl
@[simp] theorem State.setIrqCount_slotAt (n : Nat) (k : Coord) : (s.setIrqCount n).slotAt k = s.slotAt k := rfl
@[simp] theorem State.setIrqCount_inAt (n : Nat) (k : Port) : (s.setIrqCount n).inAt k = s.inAt k := rfl
@[simp] theorem State.setIrqCount_outAt (n : Nat) (k : Port) : (s.setIrqCount n).outAt k = s.outAt k := rfl
@[simp] theorem State.setIrqCount_deviceAt (n : Nat) (e : DevIndex) : (s.setIrqCount n).deviceAt e = s.deviceAt e := rfl
@[simp] theorem State.setIrqCount_subDeviceAt (n : Nat) (i : SubIndex) : (s.setIrqCount n).subDeviceAt i = s.subDeviceAt i := rfl
@[simp] theorem State.setIrqCount_primary (n : Nat) (q : Quarter) : (s.setIrqCount n).primary q = s.primary q := rfl
@[simp] theorem State.setIrqCount_primary3 (n : Nat) : (s.setIrqCount n).primary3 = s.primary3 := rfl
@[simp] theorem State.setIrqCount_secondary (n : Nat) (q : Quarter) : (s.setIrqCount n).secondary q = s.secondary q := rfl
@[simp] theorem State.setIrqCount_visible (n : Nat) (q : Quarter) : (s.setIrqCount n).visible q = s.visible q := rfl
@[simp] theorem State.setIrqCount_intercept (n : Nat) (a : Addr) : (s.setIrqCount n).intercept a = s.intercept a := rfl
@[simp] theorem State.setIrqCount_resolveMem (n : Nat) (a : Addr) : (s.setIrqCount n).resolveMem a = s.resolveMem a := rfl
@[simp] theorem State.setIrqCount_owns (n : Nat) (e : DevIndex) : (s.setIrqCount n).owns e = s.owns e := rfl
@[simp] theorem State.setIrqCount_subAt (n : Nat) (k : Byte) : (s.setIrqCount n).subAt k = s.subAt k := rfl
@[simp] theorem State.setIrqCount_muxOccupied (n : Nat) : (s.setIrqCount n).muxOccupied = s.muxOccupied := rfl
@[simp] theorem State.setIrqCount_blocked (n : Nat) : (s.setIrqCount n).blocked = s.blocked := rfl
@[simp] theorem State.setIrqCount_hasClaims (n : Nat) : (s.setIrqCount n).hasClaims = s.hasClaims := rfl

/-! ### setResetOrder -/

@[simp] theorem State.setResetOrder_slotLayout (l : List DevIndex) : (s.setResetOrder l).slotLayout = s.slotLayout := rfl
@[simp] theorem State.setResetOrder_subslotFlag (l : List DevIndex) : (s.setResetOrder l).subslotFlag = s.subslotFlag := rfl
@[simp] theorem State.setResetOrder_psr (l : List DevIndex) : (s.setResetOrder l).psr = s.psr := rfl
@[simp] theorem State.setResetOrder_ssr (l : List DevIndex) : (s.setResetOrder l).ssr = s.ssr := rfl
@[simp] theorem State.setResetOrder_ioIn (l : List DevIndex) : (s.setResetOrder l).ioIn = s.ioIn := rfl
@[simp] theorem State.setResetOrder_ioOut (l : List DevIndex) : (s.setResetOrder l).ioOut = s.ioOut := rfl
@[simp] theorem State.setResetOrder_irqCount (l : List DevIndex) : (s.setResetOrder l).irqCount = s.irqCount := rfl
@[simp] theorem State.setResetOrder_resetOrder (l : List DevIndex) : (s.setResetOrder l).resetOrder = l := rfl
@[simp] theorem State.setResetOrder_diagLog (l : List DevIndex) : (s.setResetOrder l).diagLog = s.diagLog := rfl
@[simp] theorem State.setResetOrder_alive (l : List DevIndex) : (s.setResetOrder l).alive = s.alive := rfl
@[simp] theorem State.setResetOrder_fault (l : List DevIndex) : (s.setResetOrder l).fault = s.fault := rfl
@[simp] theorem State.setResetOrder_mux (l : List DevIndex) : (s.setResetOrder l).mux = s.mux := rfl
@[simp] theorem State.setResetOrder_config (l : List DevIndex) : (s.setResetOrder l).config = s.config := rfl
@[simp] theorem State.setResetOrder_devices (l : List DevIndex) : (s.setResetOrder l).devices = s.devices := rfl
@[simp] theorem State.setResetOrder_subDevices (l : List DevIndex) : (s.setResetOrder l).subDevices = s.subDevices := rfl
@[simp] theorem State.setResetOrder_now (l : List DevIndex) : (s.setResetOrder l).now = s.now := rfl
@[simp] theorem State.setResetOrder_pending (l : List DevIndex) : (s.setResetOrder l).pending = s.pending := rfl
@[simp] theorem State.setResetOrder_returned (l : List DevIndex) : (s.setResetOrder l).returned = s.returned := rfl
@[simp] theorem State.setResetOrder_callLog (l : List DevIndex) : (s.setResetOrder l).callLog = s.callLog := rfl
@[simp] theorem State.setResetOrder_flagAt (l : List DevIndex) (q : Quarter) : (s.setResetOrder l).flagAt q = s.flagAt q := rfl
@[simp] theorem State.setResetOrder_ssrAt (l : List DevIndex) (q : Quarter) : (s.setResetOrder l).ssrAt q = s.ssrAt q := rfl
@[simp] theorem State.setResetOrder_slotAt (l : List DevIndex) (k : Coord) : (s.setResetOrder l).slotAt k = s.slotAt k := rfl
@[simp] theorem State.setResetOrder_inAt (l : List DevIndex) (k : Port) : (s.setResetOrder l).inAt k = s.inAt k := rfl
@[simp] theorem State.setResetOrder_outAt (l : List DevIndex) (k : Port) : (s.setResetOrder l).outAt k = s.outAt k := rfl
@[simp] theorem State.setResetOrder_deviceAt (l : List DevIndex) (e : DevIndex) : (s.setResetOrder l).deviceAt e = s.deviceAt e := rfl
@[simp] theorem State.setResetOrder_subDeviceAt (l : List DevIndex) (i : SubIndex) : (s.setResetOrder l).subDeviceAt i = s.subDeviceAt i := rfl
@[simp] theorem State.setResetOrder_primary (l : List DevIndex) (q : Quarter) : (s.setResetOrder l).primary q = s.primary q := rfl
@[simp] theorem State.setResetOrder_primary3 (l : List DevIndex) : (s.setResetOrder l).primary3 = s.primary3 := rfl
@[simp] theorem State.setResetOrder_secondary (l : List DevIndex) (q : Quarter) : (s.setResetOrder l).secondary q = s.secondary q := rfl
@[simp] theorem State.setResetOrder_visible (l : List DevIndex) (q : Quarter) : (s.setResetOrder l).visible q = s.visible q := rfl
@[simp] theorem State.setResetOrder_intercept (l : List DevIndex) (a : Addr) : (s.setResetOrder l).intercept a = s.intercept a := rfl
@[simp] theorem State.setResetOrder_resolveMem (l : List DevIndex) (a : Addr) : (s.setResetOrder l).resolveMem a = s.resolveMem a := rfl
@[simp] theorem State.setResetOrder_owns (l : List DevIndex) (e : DevIndex) : (s.setResetOrder l).owns e = s.owns e := rfl
@[simp] theorem State.setResetOrder_irq (l : List DevIndex) : (s.setResetOrder l).irq = s.irq := rfl
@[simp] theorem State.setResetOrder_subAt (l : List DevIndex) (k : Byte) : (s.setResetOrder l).subAt k = s.subAt k := rfl
@[simp] theorem State.setResetOrder_muxOccupied (l : List DevIndex) : (s.setResetOrder l).muxOccupied = s.muxOccupied := rfl
@[simp] theorem State.setResetOrder_blocked (l : List DevIndex) : (s.setResetOrder l).blocked = s.blocked := rfl
@[simp] theorem State.setResetOrder_hasClaims (l : List DevIndex) : (s.setResetOrder l).hasClaims = s.hasClaims := rfl

/-! ### logDiag -/

@[simp] theorem State.logDiag_slotLayout (r : DiagRecord) : (s.logDiag r).slotLayout = s.slotLayout := rfl
@[simp] theorem State.logDiag_subslotFlag (r : DiagRecord) : (s.logDiag r).subslotFlag = s.subslotFlag := rfl
@[simp] theorem State.logDiag_psr (r : DiagRecord) : (s.logDiag r).psr = s.psr := rfl
@[simp] theorem State.logDiag_ssr (r : DiagRecord) : (s.logDiag r).ssr = s.ssr := rfl
@[simp] theorem State.logDiag_ioIn (r : DiagRecord) : (s.logDiag r).ioIn = s.ioIn := rfl
@[simp] theorem State.logDiag_ioOut (r : DiagRecord) : (s.logDiag r).ioOut = s.ioOut := rfl
@[simp] theorem State.logDiag_irqCount (r : DiagRecord) : (s.logDiag r).irqCount = s.irqCount := rfl
@[simp] theorem State.logDiag_resetOrder (r : DiagRecord) : (s.logDiag r).resetOrder = s.resetOrder := rfl
@[simp] theorem State.logDiag_diagLog (r : DiagRecord) : (s.logDiag r).diagLog = s.diagLog ++ [r] := rfl
@[simp] theorem State.logDiag_alive (r : DiagRecord) : (s.logDiag r).alive = s.alive := rfl
@[simp] theorem State.logDiag_fault (r : DiagRecord) : (s.logDiag r).fault = s.fault := rfl
@[simp] theorem State.logDiag_mux (r : DiagRecord) : (s.logDiag r).mux = s.mux := rfl
@[simp] theorem State.logDiag_config (r : DiagRecord) : (s.logDiag r).config = s.config := rfl
@[simp] theorem State.logDiag_devices (r : DiagRecord) : (s.logDiag r).devices = s.devices := rfl
@[simp] theorem State.logDiag_subDevices (r : DiagRecord) : (s.logDiag r).subDevices = s.subDevices := rfl
@[simp] theorem State.logDiag_now (r : DiagRecord) : (s.logDiag r).now = s.now := rfl
@[simp] theorem State.logDiag_pending (r : DiagRecord) : (s.logDiag r).pending = s.pending := rfl
@[simp] theorem State.logDiag_returned (r : DiagRecord) : (s.logDiag r).returned = s.returned := rfl
@[simp] theorem State.logDiag_callLog (r : DiagRecord) : (s.logDiag r).callLog = s.callLog := rfl
@[simp] theorem State.logDiag_flagAt (r : DiagRecord) (q : Quarter) : (s.logDiag r).flagAt q = s.flagAt q := rfl
@[simp] theorem State.logDiag_ssrAt (r : DiagRecord) (q : Quarter) : (s.logDiag r).ssrAt q = s.ssrAt q := rfl
@[simp] theorem State.logDiag_slotAt (r : DiagRecord) (k : Coord) : (s.logDiag r).slotAt k = s.slotAt k := rfl
@[simp] theorem State.logDiag_inAt (r : DiagRecord) (k : Port) : (s.logDiag r).inAt k = s.inAt k := rfl
@[simp] theorem State.logDiag_outAt (r : DiagRecord) (k : Port) : (s.logDiag r).outAt k = s.outAt k := rfl
@[simp] theorem State.logDiag_deviceAt (r : DiagRecord) (e : DevIndex) : (s.logDiag r).deviceAt e = s.deviceAt e := rfl
@[simp] theorem State.logDiag_subDeviceAt (r : DiagRecord) (i : SubIndex) : (s.logDiag r).subDeviceAt i = s.subDeviceAt i := rfl
@[simp] theorem State.logDiag_primary (r : DiagRecord) (q : Quarter) : (s.logDiag r).primary q = s.primary q := rfl
@[simp] theorem State.logDiag_primary3 (r : DiagRecord) : (s.logDiag r).primary3 = s.primary3 := rfl
@[simp] theorem State.logDiag_secondary (r : DiagRecord) (q : Quarter) : (s.logDiag r).secondary q = s.secondary q := rfl
@[simp] theorem State.logDiag_visible (r : DiagRecord) (q : Quarter) : (s.logDiag r).visible q = s.visible q := rfl
@[simp] theorem State.logDiag_intercept (r : DiagRecord) (a : Addr) : (s.logDiag r).intercept a = s.intercept a := rfl
@[simp] theorem State.logDiag_resolveMem (r : DiagRecord) (a : Addr) : (s.logDiag r).resolveMem a = s.resolveMem a := rfl
@[simp] theorem State.logDiag_owns (r : DiagRecord) (e : DevIndex) : (s.logDiag r).owns e = s.owns e := rfl
@[simp] theorem State.logDiag_irq (r : DiagRecord) : (s.logDiag r).irq = s.irq := rfl
@[simp] theorem State.logDiag_subAt (r : DiagRecord) (k : Byte) : (s.logDiag r).subAt k = s.subAt k := rfl
@[simp] theorem State.logDiag_muxOccupied (r : DiagRecord) : (s.logDiag r).muxOccupied = s.muxOccupied := rfl
@[simp] theorem State.logDiag_blocked (r : DiagRecord) : (s.logDiag r).blocked = s.blocked := rfl
@[simp] theorem State.logDiag_hasClaims (r : DiagRecord) : (s.logDiag r).hasClaims = s.hasClaims := rfl

/-! ### setAlive -/

@[simp] theorem State.setAlive_slotLayout (b : Bool) : (s.setAlive b).slotLayout = s.slotLayout := rfl
@[simp] theorem State.setAlive_subslotFlag (b : Bool) : (s.setAlive b).subslotFlag = s.subslotFlag := rfl
@[simp] theorem State.setAlive_psr (b : Bool) : (s.setAlive b).psr = s.psr := rfl
@[simp] theorem State.setAlive_ssr (b : Bool) : (s.setAlive b).ssr = s.ssr := rfl
@[simp] theorem State.setAlive_ioIn (b : Bool) : (s.setAlive b).ioIn = s.ioIn := rfl
@[simp] theorem State.setAlive_ioOut (b : Bool) : (s.setAlive b).ioOut = s.ioOut := rfl
@[simp] theorem State.setAlive_irqCount (b : Bool) : (s.setAlive b).irqCount = s.irqCount := rfl
@[simp] theorem State.setAlive_resetOrder (b : Bool) : (s.setAlive b).resetOrder = s.resetOrder := rfl
@[simp] theorem State.setAlive_diagLog (b : Bool) : (s.setAlive b).diagLog = s.diagLog := rfl
@[simp] theorem State.setAlive_alive (b : Bool) : (s.setAlive b).alive = b := rfl
@[simp] theorem State.setAlive_fault (b : Bool) : (s.setAlive b).fault = s.fault := rfl
@[simp] theorem State.setAlive_mux (b : Bool) : (s.setAlive b).mux = s.mux := rfl
@[simp] theorem State.setAlive_config (b : Bool) : (s.setAlive b).config = s.config := rfl
@[simp] theorem State.setAlive_devices (b : Bool) : (s.setAlive b).devices = s.devices := rfl
@[simp] theorem State.setAlive_subDevices (b : Bool) : (s.setAlive b).subDevices = s.subDevices := rfl
@[simp] theorem State.setAlive_now (b : Bool) : (s.setAlive b).now = s.now := rfl
@[simp] theorem State.setAlive_pending (b : Bool) : (s.setAlive b).pending = s.pending := rfl
@[simp] theorem State.setAlive_returned (b : Bool) : (s.setAlive b).returned = s.returned := rfl
@[simp] theorem State.setAlive_callLog (b : Bool) : (s.setAlive b).callLog = s.callLog := rfl
@[simp] theorem State.setAlive_flagAt (b : Bool) (q : Quarter) : (s.setAlive b).flagAt q = s.flagAt q := rfl
@[simp] theorem State.setAlive_ssrAt (b : Bool) (q : Quarter) : (s.setAlive b).ssrAt q = s.ssrAt q := rfl
@[simp] theorem State.setAlive_slotAt (b : Bool) (k : Coord) : (s.setAlive b).slotAt k = s.slotAt k := rfl
@[simp] theorem State.setAlive_inAt (b : Bool) (k : Port) : (s.setAlive b).inAt k = s.inAt k := rfl
@[simp] theorem State.setAlive_outAt (b : Bool) (k : Port) : (s.setAlive b).outAt k = s.outAt k := rfl
@[simp] theorem State.setAlive_deviceAt (b : Bool) (e : DevIndex) : (s.setAlive b).deviceAt e = s.deviceAt e := rfl
@[simp] theorem State.setAlive_subDeviceAt (b : Bool) (i : SubIndex) : (s.setAlive b).subDeviceAt i = s.subDeviceAt i := rfl
@[simp] theorem State.setAlive_primary (b : Bool) (q : Quarter) : (s.setAlive b).primary q = s.primary q := rfl
@[simp] theorem State.setAlive_primary3 (b : Bool) : (s.setAlive b).primary3 = s.primary3 := rfl
@[simp] theorem State.setAlive_secondary (b : Bool) (q : Quarter) : (s.setAlive b).secondary q = s.secondary q := rfl
@[simp] theorem State.setAlive_visible (b : Bool) (q : Quarter) : (s.setAlive b).visible q = s.visible q := rfl
@[simp] theorem State.setAlive_intercept (b : Bool) (a : Addr) : (s.setAlive b).intercept a = s.intercept a := rfl
@[simp] theorem State.setAlive_resolveMem (b : Bool) (a : Addr) : (s.setAlive b).resolveMem a = s.resolveMem a := rfl
@[simp] theorem State.setAlive_owns (b : Bool) (e : DevIndex) : (s.setAlive b).owns e = s.owns e := rfl
@[simp] theorem State.setAlive_irq (b : Bool) : (s.setAlive b).irq = s.irq := rfl
@[simp] theorem State.setAlive_subAt (b : Bool) (k : Byte) : (s.setAlive b).subAt k = s.subAt k := rfl
@[simp] theorem State.setAlive_muxOccupied (b : Bool) : (s.setAlive b).muxOccupied = s.muxOccupied := rfl
@[simp] theorem State.setAlive_hasClaims (b : Bool) : (s.setAlive b).hasClaims = s.hasClaims := rfl

/-! ### setFault -/

@[simp] theorem State.setFault_slotLayout (f : Option FatalCode) : (s.setFault f).slotLayout = s.slotLayout := rfl
@[simp] theorem State.setFault_subslotFlag (f : Option FatalCode) : (s.setFault f).subslotFlag = s.subslotFlag := rfl
@[simp] theorem State.setFault_psr (f : Option FatalCode) : (s.setFault f).psr = s.psr := rfl
@[simp] theorem State.setFault_ssr (f : Option FatalCode) : (s.setFault f).ssr = s.ssr := rfl
@[simp] theorem State.setFault_ioIn (f : Option FatalCode) : (s.setFault f).ioIn = s.ioIn := rfl
@[simp] theorem State.setFault_ioOut (f : Option FatalCode) : (s.setFault f).ioOut = s.ioOut := rfl
@[simp] theorem State.setFault_irqCount (f : Option FatalCode) : (s.setFault f).irqCount = s.irqCount := rfl
@[simp] theorem State.setFault_resetOrder (f : Option FatalCode) : (s.setFault f).resetOrder = s.resetOrder := rfl
@[simp] theorem State.setFault_diagLog (f : Option FatalCode) : (s.setFault f).diagLog = s.diagLog := rfl
@[simp] theorem State.setFault_alive (f : Option FatalCode) : (s.setFault f).alive = s.alive := rfl
@[simp] theorem State.setFault_fault (f : Option FatalCode) : (s.setFault f).fault = f := rfl
@[simp] theorem State.setFault_mux (f : Option FatalCode) : (s.setFault f).mux = s.mux := rfl
@[simp] theorem State.setFault_config (f : Option FatalCode) : (s.setFault f).config = s.config := rfl
@[simp] theorem State.setFault_devices (f : Option FatalCode) : (s.setFault f).devices = s.devices := rfl
@[simp] theorem State.setFault_subDevices (f : Option FatalCode) : (s.setFault f).subDevices = s.subDevices := rfl
@[simp] theorem State.setFault_now (f : Option FatalCode) : (s.setFault f).now = s.now := rfl
@[simp] theorem State.setFault_pending (f : Option FatalCode) : (s.setFault f).pending = s.pending := rfl
@[simp] theorem State.setFault_returned (f : Option FatalCode) : (s.setFault f).returned = s.returned := rfl
@[simp] theorem State.setFault_callLog (f : Option FatalCode) : (s.setFault f).callLog = s.callLog := rfl
@[simp] theorem State.setFault_flagAt (f : Option FatalCode) (q : Quarter) : (s.setFault f).flagAt q = s.flagAt q := rfl
@[simp] theorem State.setFault_ssrAt (f : Option FatalCode) (q : Quarter) : (s.setFault f).ssrAt q = s.ssrAt q := rfl
@[simp] theorem State.setFault_slotAt (f : Option FatalCode) (k : Coord) : (s.setFault f).slotAt k = s.slotAt k := rfl
@[simp] theorem State.setFault_inAt (f : Option FatalCode) (k : Port) : (s.setFault f).inAt k = s.inAt k := rfl
@[simp] theorem State.setFault_outAt (f : Option FatalCode) (k : Port) : (s.setFault f).outAt k = s.outAt k := rfl
@[simp] theorem State.setFault_deviceAt (f : Option FatalCode) (e : DevIndex) : (s.setFault f).deviceAt e = s.deviceAt e := rfl
@[simp] theorem State.setFault_subDeviceAt (f : Option FatalCode) (i : SubIndex) : (s.setFault f).subDeviceAt i = s.subDeviceAt i := rfl
@[simp] theorem State.setFault_primary (f : Option FatalCode) (q : Quarter) : (s.setFault f).primary q = s.primary q := rfl
@[simp] theorem State.setFault_primary3 (f : Option FatalCode) : (s.setFault f).primary3 = s.primary3 := rfl
@[simp] theorem State.setFault_secondary (f : Option FatalCode) (q : Quarter) : (s.setFault f).secondary q = s.secondary q := rfl
@[simp] theorem State.setFault_visible (f : Option FatalCode) (q : Quarter) : (s.setFault f).visible q = s.visible q := rfl
@[simp] theorem State.setFault_intercept (f : Option FatalCode) (a : Addr) : (s.setFault f).intercept a = s.intercept a := rfl
@[simp] theorem State.setFault_resolveMem (f : Option FatalCode) (a : Addr) : (s.setFault f).resolveMem a = s.resolveMem a := rfl
@[simp] theorem State.setFault_owns (f : Option FatalCode) (e : DevIndex) : (s.setFault f).owns e = s.owns e := rfl
@[simp] theorem State.setFault_irq (f : Option FatalCode) : (s.setFault f).irq = s.irq := rfl
@[simp] theorem State.setFault_subAt (f : Option FatalCode) (k : Byte) : (s.setFault f).subAt k = s.subAt k := rfl
@[simp] theorem State.setFault_muxOccupied (f : Option FatalCode) : (s.setFault f).muxOccupied = s.muxOccupied := rfl
@[simp] theorem State.setFault_hasClaims (f : Option FatalCode) : (s.setFault f).hasClaims = s.hasClaims := rfl

/-! ### setSelector -/

@[simp] theorem State.setSelector_slotLayout (v : Byte) : (s.setSelector v).slotLayout = s.slotLayout := rfl
@[simp] theorem State.setSelector_subslotFlag (v : Byte) : (s.setSelector v).subslotFlag = s.subslotFlag := rfl
@[simp] theorem State.setSelector_psr (v : Byte) : (s.setSelector v).psr = s.psr := rfl
@[simp] theorem State.setSelector_ssr (v : Byte) : (s.setSelector v).ssr = s.ssr := rfl
@[simp] theorem State.setSelector_ioIn (v : Byte) : (s.setSelector v).ioIn = s.ioIn := rfl
@[simp] theorem State.setSelector_ioOut (v : Byte) : (s.setSelector v).ioOut = s.ioOut := rfl
@[simp] theorem State.setSelector_irqCount (v : Byte) : (s.setSelector v).irqCount = s.irqCount := rfl
@[simp] theorem State.setSelector_resetOrder (v : Byte) : (s.setSelector v).resetOrder = s.resetOrder := rfl
@[simp] theorem State.setSelector_diagLog (v : Byte) : (s.setSelector v).diagLog = s.diagLog := rfl
@[simp] theorem State.setSelector_alive (v : Byte) : (s.setSelector v).alive = s.alive := rfl
@[simp] theorem State.setSelector_fault (v : Byte) : (s.setSelector v).fault = s.fault := rfl
@[simp] theorem State.setSelector_mux (v : Byte) : (s.setSelector v).mux = { s.mux with selector := v } := rfl
@[simp] theorem State.setSelector_config (v : Byte) : (s.setSelector v).config = s.config := rfl
@[simp] theorem State.setSelector_devices (v : Byte) : (s.setSelector v).devices = s.devices := rfl
@[simp] theorem State.setSelector_subDevices (v : Byte) : (s.setSelector v).subDevices = s.subDevices := rfl
@[simp] theorem State.setSelector_now (v : Byte) : (s.setSelector v).now = s.now := rfl
@[simp] theorem State.setSelector_pending (v : Byte) : (s.setSelector v).pending = s.pending := rfl
@[simp] theorem State.setSelector_returned (v : Byte) : (s.setSelector v).returned = s.returned := rfl
@[simp] theorem State.setSelector_callLog (v : Byte) : (s.setSelector v).callLog = s.callLog := rfl
theorem State.setSelector_mux_selector (v : Byte) : (s.setSelector v).mux.selector = v := rfl
theorem State.setSelector_mux_table (v : Byte) : (s.setSelector v).mux.table = s.mux.table := rfl
theorem State.setSelector_mux_alive (v : Byte) : (s.setSelector v).mux.alive = s.mux.alive := rfl
@[simp] theorem State.setSelector_flagAt (v : Byte) (q : Quarter) : (s.setSelector v).flagAt q = s.flagAt q := rfl
@[simp] theorem State.setSelector_ssrAt (v : Byte) (q : Quarter) : (s.setSelector v).ssrAt q = s.ssrAt q := rfl
@[simp] theorem State.setSelector_slotAt (v : Byte) (k : Coord) : (s.setSelector v).slotAt k = s.slotAt k := rfl
@[simp] theorem State.setSelector_inAt (v : Byte) (k : Port) : (s.setSelector v).inAt k = s.inAt k := rfl
@[simp] theorem State.setSelector_outAt (v : Byte) (k : Port) : (s.setSelector v).outAt k = s.outAt k := rfl
@[simp] theorem State.setSelector_deviceAt (v : Byte) (e : DevIndex) : (s.setSelector v).deviceAt e = s.deviceAt e := rfl
@[simp] theorem State.setSelector_subDeviceAt (v : Byte) (i : SubIndex) : (s.setSelector v).subDeviceAt i = s.subDeviceAt i := rfl
@[simp] theorem State.setSelector_primary (v : Byte) (q : Quarter) : (s.setSelector v).primary q = s.primary q := rfl
@[simp] theorem State.setSelector_primary3 (v : Byte) : (s.setSelector v).primary3 = s.primary3 := rfl
@[simp] theorem State.setSelector_secondary (v : Byte) (q : Quarter) : (s.setSelector v).secondary q = s.secondary q := rfl
@[simp] theorem State.setSelector_visible (v : Byte) (q : Quarter) : (s.setSelector v).visible q = s.visible q := rfl
@[simp] theorem State.setSelector_intercept (v : Byte) (a : Addr) : (s.setSelector v).intercept a = s.intercept a := rfl
@[simp] theorem State.setSelector_resolveMem (v : Byte) (a : Addr) : (s.setSelector v).resolveMem a = s.resolveMem a := rfl
@[simp] theorem State.setSelector_owns (v : Byte) (e : DevIndex) : (s.setSelector v).owns e = s.owns e := rfl
@[simp] theorem State.setSelector_irq (v : Byte) : (s.setSelector v).irq = s.irq := rfl
@[simp] theorem State.setSelector_subAt (v : Byte) (k : Byte) : (s.setSelector v).subAt k = s.subAt k := rfl
@[simp] theorem State.setSelector_muxOccupied (v : Byte) : (s.setSelector v).muxOccupied = s.muxOccupied := rfl
@[simp] theorem State.setSelector_blocked (v : Byte) : (s.setSelector v).blocked = s.blocked := rfl
@[simp] theorem State.setSelector_hasClaims (v : Byte) : (s.setSelector v).hasClaims = s.hasClaims := rfl

/-! ### setSub -/

@[simp] theorem State.setSub_slotLayout (id : Byte) (j : Option SubIndex) : (s.setSub id j).slotLayout = s.slotLayout := rfl
@[simp] theorem State.setSub_subslotFlag (id : Byte) (j : Option SubIndex) : (s.setSub id j).subslotFlag = s.subslotFlag := rfl
@[simp] theorem State.setSub_psr (id : Byte) (j : Option SubIndex) : (s.setSub id j).psr = s.psr := rfl
@[simp] theorem State.setSub_ssr (id : Byte) (j : Option SubIndex) : (s.setSub id j).ssr = s.ssr := rfl
@[simp] theorem State.setSub_ioIn (id : Byte) (j : Option SubIndex) : (s.setSub id j).ioIn = s.ioIn := rfl
@[simp] theorem State.setSub_ioOut (id : Byte) (j : Option SubIndex) : (s.setSub id j).ioOut = s.ioOut := rfl
@[simp] theorem State.setSub_irqCount (id : Byte) (j : Option SubIndex) : (s.setSub id j).irqCount = s.irqCount := rfl
@[simp] theorem State.setSub_resetOrder (id : Byte) (j : Option SubIndex) : (s.setSub id j).resetOrder = s.resetOrder := rfl
@[simp] theorem State.setSub_diagLog (id : Byte) (j : Option SubIndex) : (s.setSub id j).diagLog = s.diagLog := rfl
@[simp] theorem State.setSub_alive (id : Byte) (j : Option SubIndex) : (s.setSub id j).alive = s.alive := rfl
@[simp] theorem State.setSub_fault (id : Byte) (j : Option SubIndex) : (s.setSub id j).fault = s.fault := rfl
@[simp] theorem State.setSub_mux (id : Byte) (j : Option SubIndex) : (s.setSub id j).mux = { s.mux with table := s.mux.table.set id.toNat j id.isLt } := rfl
@[simp] theorem State.setSub_config (id : Byte) (j : Option SubIndex) : (s.setSub id j).config = s.config := rfl
@[simp] theorem State.setSub_devices (id : Byte) (j : Option SubIndex) : (s.setSub id j).devices = s.devices := rfl
@[simp] theorem State.setSub_subDevices (id : Byte) (j : Option SubIndex) : (s.setSub id j).subDevices = s.subDevices := rfl
@[simp] theorem State.setSub_now (id : Byte) (j : Option SubIndex) : (s.setSub id j).now = s.now := rfl
@[simp] theorem State.setSub_pending (id : Byte) (j : Option SubIndex) : (s.setSub id j).pending = s.pending := rfl
@[simp] theorem State.setSub_returned (id : Byte) (j : Option SubIndex) : (s.setSub id j).returned = s.returned := rfl
@[simp] theorem State.setSub_callLog (id : Byte) (j : Option SubIndex) : (s.setSub id j).callLog = s.callLog := rfl
theorem State.setSub_mux_selector (id : Byte) (j : Option SubIndex) : (s.setSub id j).mux.selector = s.mux.selector := rfl
theorem State.setSub_mux_table (id : Byte) (j : Option SubIndex) : (s.setSub id j).mux.table = s.mux.table.set id.toNat j id.isLt := rfl
theorem State.setSub_mux_alive (id : Byte) (j : Option SubIndex) : (s.setSub id j).mux.alive = s.mux.alive := rfl
@[simp] theorem State.setSub_flagAt (id : Byte) (j : Option SubIndex) (q : Quarter) : (s.setSub id j).flagAt q = s.flagAt q := rfl
@[simp] theorem State.setSub_ssrAt (id : Byte) (j : Option SubIndex) (q : Quarter) : (s.setSub id j).ssrAt q = s.ssrAt q := rfl
@[simp] theorem State.setSub_slotAt (id : Byte) (j : Option SubIndex) (k : Coord) : (s.setSub id j).slotAt k = s.slotAt k := rfl
@[simp] theorem State.setSub_inAt (id : Byte) (j : Option SubIndex) (k : Port) : (s.setSub id j).inAt k = s.inAt k := rfl
@[simp] theorem State.setSub_outAt (id : Byte) (j : Option SubIndex) (k : Port) : (s.setSub id j).outAt k = s.outAt k := rfl
@[simp] theorem State.setSub_deviceAt (id : Byte) (j : Option SubIndex) (e : DevIndex) : (s.setSub id j).deviceAt e = s.deviceAt e := rfl
@[simp] theorem State.setSub_subDeviceAt (id : Byte) (j : Option SubIndex) (i : SubIndex) : (s.setSub id j).subDeviceAt i = s.subDeviceAt i := rfl
@[simp] theorem State.setSub_primary (id : Byte) (j : Option SubIndex) (q : Quarter) : (s.setSub id j).primary q = s.primary q := rfl
@[simp] theorem State.setSub_primary3 (id : Byte) (j : Option SubIndex) : (s.setSub id j).primary3 = s.primary3 := rfl
@[simp] theorem State.setSub_secondary (id : Byte) (j : Option SubIndex) (q : Quarter) : (s.setSub id j).secondary q = s.secondary q := rfl
@[simp] theorem State.setSub_visible (id : Byte) (j : Option SubIndex) (q : Quarter) : (s.setSub id j).visible q = s.visible q := rfl
@[simp] theorem State.setSub_intercept (id : Byte) (j : Option SubIndex) (a : Addr) : (s.setSub id j).intercept a = s.intercept a := rfl
@[simp] theorem State.setSub_resolveMem (id : Byte) (j : Option SubIndex) (a : Addr) : (s.setSub id j).resolveMem a = s.resolveMem a := rfl
@[simp] theorem State.setSub_owns (id : Byte) (j : Option SubIndex) (e : DevIndex) : (s.setSub id j).owns e = s.owns e := rfl
@[simp] theorem State.setSub_irq (id : Byte) (j : Option SubIndex) : (s.setSub id j).irq = s.irq := rfl
@[simp] theorem State.setSub_blocked (id : Byte) (j : Option SubIndex) : (s.setSub id j).blocked = s.blocked := rfl
@[simp] theorem State.setSub_hasClaims (id : Byte) (j : Option SubIndex) : (s.setSub id j).hasClaims = s.hasClaims := rfl

/-! ### setMuxAlive -/

@[simp] theorem State.setMuxAlive_slotLayout (b : Bool) : (s.setMuxAlive b).slotLayout = s.slotLayout := rfl
@[simp] theorem State.setMuxAlive_subslotFlag (b : Bool) : (s.setMuxAlive b).subslotFlag = s.subslotFlag := rfl
@[simp] theorem State.setMuxAlive_psr (b : Bool) : (s.setMuxAlive b).psr = s.psr := rfl
@[simp] theorem State.setMuxAlive_ssr (b : Bool) : (s.setMuxAlive b).ssr = s.ssr := rfl
@[simp] theorem State.setMuxAlive_ioIn (b : Bool) : (s.setMuxAlive b).ioIn = s.ioIn := rfl
@[simp] theorem State.setMuxAlive_ioOut (b : Bool) : (s.setMuxAlive b).ioOut = s.ioOut := rfl
@[simp] theorem State.setMuxAlive_irqCount (b : Bool) : (s.setMuxAlive b).irqCount = s.irqCount := rfl
@[simp] theorem State.setMuxAlive_resetOrder (b : Bool) : (s.setMuxAlive b).resetOrder = s.resetOrder := rfl
@[simp] theorem State.setMuxAlive_diagLog (b : Bool) : (s.setMuxAlive b).diagLog = s.diagLog := rfl
@[simp] theorem State.setMuxAlive_alive (b : Bool) : (s.setMuxAlive b).alive = s.alive := rfl
@[simp] theorem State.setMuxAlive_fault (b : Bool) : (s.setMuxAlive b).fault = s.fault := rfl
@[simp] theorem State.setMuxAlive_mux (b : Bool) : (s.setMuxAlive b).mux = { s.mux with alive := b } := rfl
@[simp] theorem State.setMuxAlive_config (b : Bool) : (s.setMuxAlive b).config = s.config := rfl
@[simp] theorem State.setMuxAlive_devices (b : Bool) : (s.setMuxAlive b).devices = s.devices := rfl
@[simp] theorem State.setMuxAlive_subDevices (b : Bool) : (s.setMuxAlive b).subDevices = s.subDevices := rfl
@[simp] theorem State.setMuxAlive_now (b : Bool) : (s.setMuxAlive b).now = s.now := rfl
@[simp] theorem State.setMuxAlive_pending (b : Bool) : (s.setMuxAlive b).pending = s.pending := rfl
@[simp] theorem State.setMuxAlive_returned (b : Bool) : (s.setMuxAlive b).returned = s.returned := rfl
@[simp] theorem State.setMuxAlive_callLog (b : Bool) : (s.setMuxAlive b).callLog = s.callLog := rfl
theorem State.setMuxAlive_mux_selector (b : Bool) : (s.setMuxAlive b).mux.selector = s.mux.selector := rfl
theorem State.setMuxAlive_mux_table (b : Bool) : (s.setMuxAlive b).mux.table = s.mux.table := rfl
theorem State.setMuxAlive_mux_alive (b : Bool) : (s.setMuxAlive b).mux.alive = b := rfl
@[simp] theorem State.setMuxAlive_flagAt (b : Bool) (q : Quarter) : (s.setMuxAlive b).flagAt q = s.flagAt q := rfl
@[simp] theorem State.setMuxAlive_ssrAt (b : Bool) (q : Quarter) : (s.setMuxAlive b).ssrAt q = s.ssrAt q := rfl
@[simp] theorem State.setMuxAlive_slotAt (b : Bool) (k : Coord) : (s.setMuxAlive b).slotAt k = s.slotAt k := rfl
@[simp] theorem State.setMuxAlive_inAt (b : Bool) (k : Port) : (s.setMuxAlive b).inAt k = s.inAt k := rfl
@[simp] theorem State.setMuxAlive_outAt (b : Bool) (k : Port) : (s.setMuxAlive b).outAt k = s.outAt k := rfl
@[simp] theorem State.setMuxAlive_deviceAt (b : Bool) (e : DevIndex) : (s.setMuxAlive b).deviceAt e = s.deviceAt e := rfl
@[simp] theorem State.setMuxAlive_subDeviceAt (b : Bool) (i : SubIndex) : (s.setMuxAlive b).subDeviceAt i = s.subDeviceAt i := rfl
@[simp] theorem State.setMuxAlive_primary (b : Bool) (q : Quarter) : (s.setMuxAlive b).primary q = s.primary q := rfl
@[simp] theorem State.setMuxAlive_primary3 (b : Bool) : (s.setMuxAlive b).primary3 = s.primary3 := rfl
@[simp] theorem State.setMuxAlive_secondary (b : Bool) (q : Quarter) : (s.setMuxAlive b).secondary q = s.secondary q := rfl
@[simp] theorem State.setMuxAlive_visible (b : Bool) (q : Quarter) : (s.setMuxAlive b).visible q = s.visible q := rfl
@[simp] theorem State.setMuxAlive_intercept (b : Bool) (a : Addr) : (s.setMuxAlive b).intercept a = s.intercept a := rfl
@[simp] theorem State.setMuxAlive_resolveMem (b : Bool) (a : Addr) : (s.setMuxAlive b).resolveMem a = s.resolveMem a := rfl
@[simp] theorem State.setMuxAlive_owns (b : Bool) (e : DevIndex) : (s.setMuxAlive b).owns e = s.owns e := rfl
@[simp] theorem State.setMuxAlive_irq (b : Bool) : (s.setMuxAlive b).irq = s.irq := rfl
@[simp] theorem State.setMuxAlive_subAt (b : Bool) (k : Byte) : (s.setMuxAlive b).subAt k = s.subAt k := rfl
@[simp] theorem State.setMuxAlive_muxOccupied (b : Bool) : (s.setMuxAlive b).muxOccupied = s.muxOccupied := rfl
@[simp] theorem State.setMuxAlive_blocked (b : Bool) : (s.setMuxAlive b).blocked = s.blocked := rfl
@[simp] theorem State.setMuxAlive_hasClaims (b : Bool) : (s.setMuxAlive b).hasClaims = s.hasClaims := rfl

/-! ### setDevice -/

@[simp] theorem State.setDevice_slotLayout (d : DevIndex) (dev : Device) : (s.setDevice d dev).slotLayout = s.slotLayout := rfl
@[simp] theorem State.setDevice_subslotFlag (d : DevIndex) (dev : Device) : (s.setDevice d dev).subslotFlag = s.subslotFlag := rfl
@[simp] theorem State.setDevice_psr (d : DevIndex) (dev : Device) : (s.setDevice d dev).psr = s.psr := rfl
@[simp] theorem State.setDevice_ssr (d : DevIndex) (dev : Device) : (s.setDevice d dev).ssr = s.ssr := rfl
@[simp] theorem State.setDevice_ioIn (d : DevIndex) (dev : Device) : (s.setDevice d dev).ioIn = s.ioIn := rfl
@[simp] theorem State.setDevice_ioOut (d : DevIndex) (dev : Device) : (s.setDevice d dev).ioOut = s.ioOut := rfl
@[simp] theorem State.setDevice_irqCount (d : DevIndex) (dev : Device) : (s.setDevice d dev).irqCount = s.irqCount := rfl
@[simp] theorem State.setDevice_resetOrder (d : DevIndex) (dev : Device) : (s.setDevice d dev).resetOrder = s.resetOrder := rfl
@[simp] theorem State.setDevice_diagLog (d : DevIndex) (dev : Device) : (s.setDevice d dev).diagLog = s.diagLog := rfl
@[simp] theorem State.setDevice_alive (d : DevIndex) (dev : Device) : (s.setDevice d dev).alive = s.alive := rfl
@[simp] theorem State.setDevice_fault (d : DevIndex) (dev : Device) : (s.setDevice d dev).fault = s.fault := rfl
@[simp] theorem State.setDevice_mux (d : DevIndex) (dev : Device) : (s.setDevice d dev).mux = s.mux := rfl
@[simp] theorem State.setDevice_config (d : DevIndex) (dev : Device) : (s.setDevice d dev).config = s.config := rfl
@[simp] theorem State.setDevice_devices (d : DevIndex) (dev : Device) : (s.setDevice d dev).devices = s.devices.set d.val dev := rfl
@[simp] theorem State.setDevice_subDevices (d : DevIndex) (dev : Device) : (s.setDevice d dev).subDevices = s.subDevices := rfl
@[simp] theorem State.setDevice_now (d : DevIndex) (dev : Device) : (s.setDevice d dev).now = s.now := rfl
@[simp] theorem State.setDevice_pending (d : DevIndex) (dev : Device) : (s.setDevice d dev).pending = s.pending := rfl
@[simp] theorem State.setDevice_returned (d : DevIndex) (dev : Device) : (s.setDevice d dev).returned = s.returned := rfl
@[simp] theorem State.setDevice_callLog (d : DevIndex) (dev : Device) : (s.setDevice d dev).callLog = s.callLog := rfl
@[simp] theorem State.setDevice_flagAt (d : DevIndex) (dev : Device) (q : Quarter) : (s.setDevice d dev).flagAt q = s.flagAt q := rfl
@[simp] theorem State.setDevice_ssrAt (d : DevIndex) (dev : Device) (q : Quarter) : (s.setDevice d dev).ssrAt q = s.ssrAt q := rfl
@[simp] theorem State.setDevice_slotAt (d : DevIndex) (dev : Device) (k : Coord) : (s.setDevice d dev).slotAt k = s.slotAt k := rfl
@[simp] theorem State.setDevice_inAt (d : DevIndex) (dev : Device) (k : Port) : (s.setDevice d dev).inAt k = s.inAt k := rfl
@[simp] theorem State.setDevice_outAt (d : DevIndex) (dev : Device) (k : Port) : (s.setDevice d dev).outAt k = s.outAt k := rfl
@[simp] theorem State.setDevice_subDeviceAt (d : DevIndex) (dev : Device) (i : SubIndex) : (s.setDevice d dev).subDeviceAt i = s.subDeviceAt i := rfl
@[simp] theorem State.setDevice_primary (d : DevIndex) (dev : Device) (q : Quarter) : (s.setDevice d dev).primary q = s.primary q := rfl
@[simp] theorem State.setDevice_primary3 (d : DevIndex) (dev : Device) : (s.setDevice d dev).primary3 = s.primary3 := rfl
@[simp] theorem State.setDevice_secondary (d : DevIndex) (dev : Device) (q : Quarter) : (s.setDevice d dev).secondary q = s.secondary q := rfl
@[simp] theorem State.setDevice_visible (d : DevIndex) (dev : Device) (q : Quarter) : (s.setDevice d dev).visible q = s.visible q := rfl
@[simp] theorem State.setDevice_intercept (d : DevIndex) (dev : Device) (a : Addr) : (s.setDevice d dev).intercept a = s.intercept a := rfl
@[simp] theorem State.setDevice_resolveMem (d : DevIndex) (dev : Device) (a : Addr) : (s.setDevice d dev).resolveMem a = s.resolveMem a := rfl
@[simp] theorem State.setDevice_owns (d : DevIndex) (dev : Device) (e : DevIndex) : (s.setDevice d dev).owns e = s.owns e := rfl
@[simp] theorem State.setDevice_irq (d : DevIndex) (dev : Device) : (s.setDevice d dev).irq = s.irq := rfl
@[simp] theorem State.setDevice_subAt (d : DevIndex) (dev : Device) (k : Byte) : (s.setDevice d dev).subAt k = s.subAt k := rfl
@[simp] theorem State.setDevice_muxOccupied (d : DevIndex) (dev : Device) : (s.setDevice d dev).muxOccupied = s.muxOccupied := rfl
@[simp] theorem State.setDevice_blocked (d : DevIndex) (dev : Device) : (s.setDevice d dev).blocked = s.blocked := rfl
@[simp] theorem State.setDevice_hasClaims (d : DevIndex) (dev : Device) : (s.setDevice d dev).hasClaims = s.hasClaims := rfl

/-! ### setSubDevice -/

@[simp] theorem State.setSubDevice_slotLayout (j : SubIndex) (dev : SubDevice) : (s.setSubDevice j dev).slotLayout = s.slotLayout := rfl
@[simp] theorem State.setSubDevice_subslotFlag (j : SubIndex) (dev : SubDevice) : (s.setSubDevice j dev).subslotFlag = s.subslotFlag := rfl
@[simp] theorem State.setSubDevice_psr (j : SubIndex) (dev : SubDevice) : (s.setSubDevice j dev).psr = s.psr := rfl
@[simp] theorem State.setSubDevice_ssr (j : SubIndex) (dev : SubDevice) : (s.setSubDevice j dev).ssr = s.ssr := rfl
@[simp] theorem State.setSubDevice_ioIn (j : SubIndex) (dev : SubDevice) : (s.setSubDevice j dev).ioIn = s.ioIn := rfl
@[simp] theorem State.setSubDevice_ioOut (j : SubIndex) (dev : SubDevice) : (s.setSubDevice j dev).ioOut = s.ioOut := rfl
@[simp] theorem State.setSubDevice_irqCount (j : SubIndex) (dev : SubDevice) : (s.setSubDevice j dev).irqCount = s.irqCount := rfl
@[simp] theorem State.setSubDevice_resetOrder (j : SubIndex) (dev : SubDevice) : (s.setSubDevice j dev).resetOrder = s.resetOrder := rfl
@[simp] theorem State.setSubDevice_diagLog (j : SubIndex) (dev : SubDevice) : (s.setSubDevice j dev).diagLog = s.diagLog := rfl
@[simp] theorem State.setSubDevice_alive (j : SubIndex) (dev : SubDevice) : (s.setSubDevice j dev).alive = s.alive := rfl
@[simp] theorem State.setSubDevice_fault (j : SubIndex) (dev : SubDevice) : (s.setSubDevice j dev).fault = s.fault := rfl
@[simp] theorem State.setSubDevice_mux (j : SubIndex) (dev : SubDevice) : (s.setSubDevice j dev).mux = s.mux := rfl
@[simp] theorem State.setSubDevice_config (j : SubIndex) (dev : SubDevice) : (s.setSubDevice j dev).config = s.config := rfl
@[simp] theorem State.setSubDevice_devices (j : SubIndex) (dev : SubDevice) : (s.setSubDevice j dev).devices = s.devices := rfl
@[simp] theorem State.setSubDevice_subDevices (j : SubIndex) (dev : SubDevice) : (s.setSubDevice j dev).subDevices = s.subDevices.set j.val dev := rfl
@[simp] theorem State.setSubDevice_now (j : SubIndex) (dev : SubDevice) : (s.setSubDevice j dev).now = s.now := rfl
@[simp] theorem State.setSubDevice_pending (j : SubIndex) (dev : SubDevice) : (s.setSubDevice j dev).pending = s.pending := rfl
@[simp] theorem State.setSubDevice_returned (j : SubIndex) (dev : SubDevice) : (s.setSubDevice j dev).returned = s.returned := rfl
@[simp] theorem State.setSubDevice_callLog (j : SubIndex) (dev : SubDevice) : (s.setSubDevice j dev).callLog = s.callLog := rfl
@[simp] theorem State.setSubDevice_flagAt (j : SubIndex) (dev : SubDevice) (q : Quarter) : (s.setSubDevice j dev).flagAt q = s.flagAt q := rfl
@[simp] theorem State.setSubDevice_ssrAt (j : SubIndex) (dev : SubDevice) (q : Quarter) : (s.setSubDevice j dev).ssrAt q = s.ssrAt q := rfl
@[simp] theorem State.setSubDevice_slotAt (j : SubIndex) (dev : SubDevice) (k : Coord) : (s.setSubDevice j dev).slotAt k = s.slotAt k := rfl
@[simp] theorem State.setSubDevice_inAt (j : SubIndex) (dev : SubDevice) (k : Port) : (s.setSubDevice j dev).inAt k = s.inAt k := rfl
@[simp] theorem State.setSubDevice_outAt (j : SubIndex) (dev : SubDevice) (k : Port) : (s.setSubDevice j dev).outAt k = s.outAt k := rfl
@[simp] theorem State.setSubDevice_deviceAt (j : SubIndex) (dev : SubDevice) (e : DevIndex) : (s.setSubDevice j dev).deviceAt e = s.deviceAt e := rfl
@[simp] theorem State.setSubDevice_primary (j : SubIndex) (dev : SubDevice) (q : Quarter) : (s.setSubDevice j dev).primary q = s.primary q := rfl
@[simp] theorem State.setSubDevice_primary3 (j : SubIndex) (dev : SubDevice) : (s.setSubDevice j dev).primary3 = s.primary3 := rfl
@[simp] theorem State.setSubDevice_secondary (j : SubIndex) (dev : SubDevice) (q : Quarter) : (s.setSubDevice j dev).secondary q = s.secondary q := rfl
@[simp] theorem State.setSubDevice_visible (j : SubIndex) (dev : SubDevice) (q : Quarter) : (s.setSubDevice j dev).visible q = s.visible q := rfl
@[simp] theorem State.setSubDevice_intercept (j : SubIndex) (dev : SubDevice) (a : Addr) : (s.setSubDevice j dev).intercept a = s.intercept a := rfl
@[simp] theorem State.setSubDevice_resolveMem (j : SubIndex) (dev : SubDevice) (a : Addr) : (s.setSubDevice j dev).resolveMem a = s.resolveMem a := rfl
@[simp] theorem State.setSubDevice_owns (j : SubIndex) (dev : SubDevice) (e : DevIndex) : (s.setSubDevice j dev).owns e = s.owns e := rfl
@[simp] theorem State.setSubDevice_irq (j : SubIndex) (dev : SubDevice) : (s.setSubDevice j dev).irq = s.irq := rfl
@[simp] theorem State.setSubDevice_subAt (j : SubIndex) (dev : SubDevice) (k : Byte) : (s.setSubDevice j dev).subAt k = s.subAt k := rfl
@[simp] theorem State.setSubDevice_muxOccupied (j : SubIndex) (dev : SubDevice) : (s.setSubDevice j dev).muxOccupied = s.muxOccupied := rfl
@[simp] theorem State.setSubDevice_blocked (j : SubIndex) (dev : SubDevice) : (s.setSubDevice j dev).blocked = s.blocked := rfl
@[simp] theorem State.setSubDevice_hasClaims (j : SubIndex) (dev : SubDevice) : (s.setSubDevice j dev).hasClaims = s.hasClaims := rfl

/-! ### logCall -/

@[simp] theorem State.logCall_slotLayout (c : DeviceCall Time) : (s.logCall c).slotLayout = s.slotLayout := rfl
@[simp] theorem State.logCall_subslotFlag (c : DeviceCall Time) : (s.logCall c).subslotFlag = s.subslotFlag := rfl
@[simp] theorem State.logCall_psr (c : DeviceCall Time) : (s.logCall c).psr = s.psr := rfl
@[simp] theorem State.logCall_ssr (c : DeviceCall Time) : (s.logCall c).ssr = s.ssr := rfl
@[simp] theorem State.logCall_ioIn (c : DeviceCall Time) : (s.logCall c).ioIn = s.ioIn := rfl
@[simp] theorem State.logCall_ioOut (c : DeviceCall Time) : (s.logCall c).ioOut = s.ioOut := rfl
@[simp] theorem State.logCall_irqCount (c : DeviceCall Time) : (s.logCall c).irqCount = s.irqCount := rfl
@[simp] theorem State.logCall_resetOrder (c : DeviceCall Time) : (s.logCall c).resetOrder = s.resetOrder := rfl
@[simp] theorem State.logCall_diagLog (c : DeviceCall Time) : (s.logCall c).diagLog = s.diagLog := rfl
@[simp] theorem State.logCall_alive (c : DeviceCall Time) : (s.logCall c).alive = s.alive := rfl
@[simp] theorem State.logCall_fault (c : DeviceCall Time) : (s.logCall c).fault = s.fault := rfl
@[simp] theorem State.logCall_mux (c : DeviceCall Time) : (s.logCall c).mux = s.mux := rfl
@[simp] theorem State.logCall_config (c : DeviceCall Time) : (s.logCall c).config = s.config := rfl
@[simp] theorem State.logCall_devices (c : DeviceCall Time) : (s.logCall c).devices = s.devices := rfl
@[simp] theorem State.logCall_subDevices (c : DeviceCall Time) : (s.logCall c).subDevices = s.subDevices := rfl
@[simp] theorem State.logCall_now (c : DeviceCall Time) : (s.logCall c).now = s.now := rfl
@[simp] theorem State.logCall_pending (c : DeviceCall Time) : (s.logCall c).pending = s.pending := rfl
@[simp] theorem State.logCall_returned (c : DeviceCall Time) : (s.logCall c).returned = s.returned := rfl
@[simp] theorem State.logCall_callLog (c : DeviceCall Time) : (s.logCall c).callLog = s.callLog ++ [c] := rfl
@[simp] theorem State.logCall_flagAt (c : DeviceCall Time) (q : Quarter) : (s.logCall c).flagAt q = s.flagAt q := rfl
@[simp] theorem State.logCall_ssrAt (c : DeviceCall Time) (q : Quarter) : (s.logCall c).ssrAt q = s.ssrAt q := rfl
@[simp] theorem State.logCall_slotAt (c : DeviceCall Time) (k : Coord) : (s.logCall c).slotAt k = s.slotAt k := rfl
@[simp] theorem State.logCall_inAt (c : DeviceCall Time) (k : Port) : (s.logCall c).inAt k = s.inAt k := rfl
@[simp] theorem State.logCall_outAt (c : DeviceCall Time) (k : Port) : (s.logCall c).outAt k = s.outAt k := rfl
@[simp] theorem State.logCall_deviceAt (c : DeviceCall Time) (e : DevIndex) : (s.logCall c).deviceAt e = s.deviceAt e := rfl
@[simp] theorem State.logCall_subDeviceAt (c : DeviceCall Time) (i : SubIndex) : (s.logCall c).subDeviceAt i = s.subDeviceAt i := rfl
@[simp] theorem State.logCall_primary (c : DeviceCall Time) (q : Quarter) : (s.logCall c).primary q = s.primary q := rfl
@[simp] theorem State.logCall_primary3 (c : DeviceCall Time) : (s.logCall c).primary3 = s.primary3 := rfl
@[simp] theorem State.logCall_secondary (c : DeviceCall Time) (q : Quarter) : (s.logCall c).secondary q = s.secondary q := rfl
@[simp] theorem State.logCall_visible (c : DeviceCall Time) (q : Quarter) : (s.logCall c).visible q = s.visible q := rfl
@[simp] theorem State.logCall_intercept (c : DeviceCall Time) (a : Addr) : (s.logCall c).intercept a = s.intercept a := rfl
@[simp] theorem State.logCall_resolveMem (c : DeviceCall Time) (a : Addr) : (s.logCall c).resolveMem a = s.resolveMem a := rfl
@[simp] theorem State.logCall_owns (c : DeviceCall Time) (e : DevIndex) : (s.logCall c).owns e = s.owns e := rfl
@[simp] theorem State.logCall_irq (c : DeviceCall Time) : (s.logCall c).irq = s.irq := rfl
@[simp] theorem State.logCall_subAt (c : DeviceCall Time) (k : Byte) : (s.logCall c).subAt k = s.subAt k := rfl
@[simp] theorem State.logCall_muxOccupied (c : DeviceCall Time) : (s.logCall c).muxOccupied = s.muxOccupied := rfl
@[simp] theorem State.logCall_blocked (c : DeviceCall Time) : (s.logCall c).blocked = s.blocked := rfl
@[simp] theorem State.logCall_hasClaims (c : DeviceCall Time) : (s.logCall c).hasClaims = s.hasClaims := rfl

/-! ### setReturned -/

@[simp] theorem State.setReturned_slotLayout (r : Returned) : (s.setReturned r).slotLayout = s.slotLayout := rfl
@[simp] theorem State.setReturned_subslotFlag (r : Returned) : (s.setReturned r).subslotFlag = s.subslotFlag := rfl
@[simp] theorem State.setReturned_psr (r : Returned) : (s.setReturned r).psr = s.psr := rfl
@[simp] theorem State.setReturned_ssr (r : Returned) : (s.setReturned r).ssr = s.ssr := rfl
@[simp] theorem State.setReturned_ioIn (r : Returned) : (s.setReturned r).ioIn = s.ioIn := rfl
@[simp] theorem State.setReturned_ioOut (r : Returned) : (s.setReturned r).ioOut = s.ioOut := rfl
@[simp] theorem State.setReturned_irqCount (r : Returned) : (s.setReturned r).irqCount = s.irqCount := rfl
@[simp] theorem State.setReturned_resetOrder (r : Returned) : (s.setReturned r).resetOrder = s.resetOrder := rfl
@[simp] theorem State.setReturned_diagLog (r : Returned) : (s.setReturned r).diagLog = s.diagLog := rfl
@[simp] theorem State.setReturned_alive (r : Returned) : (s.setReturned r).alive = s.alive := rfl
@[simp] theorem State.setReturned_fault (r : Returned) : (s.setReturned r).fault = s.fault := rfl
@[simp] theorem State.setReturned_mux (r : Returned) : (s.setReturned r).mux = s.mux := rfl
@[simp] theorem State.setReturned_config (r : Returned) : (s.setReturned r).config = s.config := rfl
@[simp] theorem State.setReturned_devices (r : Returned) : (s.setReturned r).devices = s.devices := rfl
@[simp] theorem State.setReturned_subDevices (r : Returned) : (s.setReturned r).subDevices = s.subDevices := rfl
@[simp] theorem State.setReturned_now (r : Returned) : (s.setReturned r).now = s.now := rfl
@[simp] theorem State.setReturned_pending (r : Returned) : (s.setReturned r).pending = s.pending := rfl
@[simp] theorem State.setReturned_returned (r : Returned) : (s.setReturned r).returned = r := rfl
@[simp] theorem State.setReturned_callLog (r : Returned) : (s.setReturned r).callLog = s.callLog := rfl
@[simp] theorem State.setReturned_flagAt (r : Returned) (q : Quarter) : (s.setReturned r).flagAt q = s.flagAt q := rfl
@[simp] theorem State.setReturned_ssrAt (r : Returned) (q : Quarter) : (s.setReturned r).ssrAt q = s.ssrAt q := rfl
@[simp] theorem State.setReturned_slotAt (r : Returned) (k : Coord) : (s.setReturned r).slotAt k = s.slotAt k := rfl
@[simp] theorem State.setReturned_inAt (r : Returned) (k : Port) : (s.setReturned r).inAt k = s.inAt k := rfl
@[simp] theorem State.setReturned_outAt (r : Returned) (k : Port) : (s.setReturned r).outAt k = s.outAt k := rfl
@[simp] theorem State.setReturned_deviceAt (r : Returned) (e : DevIndex) : (s.setReturned r).deviceAt e = s.deviceAt e := rfl
@[simp] theorem State.setReturned_subDeviceAt (r : Returned) (i : SubIndex) : (s.setReturned r).subDeviceAt i = s.subDeviceAt i := rfl
@[simp] theorem State.setReturned_primary (r : Returned) (q : Quarter) : (s.setReturned r).primary q = s.primary q := rfl
@[simp] theorem State.setReturned_primary3 (r : Returned) : (s.setReturned r).primary3 = s.primary3 := rfl
@[simp] theorem State.setReturned_secondary (r : Returned) (q : Quarter) : (s.setReturned r).secondary q = s.secondary q := rfl
@[simp] theorem State.setReturned_visible (r : Returned) (q : Quarter) : (s.setReturned r).visible q = s.visible q := rfl
@[simp] theorem State.setReturned_intercept (r : Returned) (a : Addr) : (s.setReturned r).intercept a = s.intercept a := rfl
@[simp] theorem State.setReturned_resolveMem (r : Returned) (a : Addr) : (s.setReturned r).resolveMem a = s.resolveMem a := rfl
@[simp] theorem State.setReturned_owns (r : Returned) (e : DevIndex) : (s.setReturned r).owns e = s.owns e := rfl
@[simp] theorem State.setReturned_irq (r : Returned) : (s.setReturned r).irq = s.irq := rfl
@[simp] theorem State.setReturned_subAt (r : Returned) (k : Byte) : (s.setReturned r).subAt k = s.subAt k := rfl
@[simp] theorem State.setReturned_muxOccupied (r : Returned) : (s.setReturned r).muxOccupied = s.muxOccupied := rfl
@[simp] theorem State.setReturned_blocked (r : Returned) : (s.setReturned r).blocked = s.blocked := rfl
@[simp] theorem State.setReturned_hasClaims (r : Returned) : (s.setReturned r).hasClaims = s.hasClaims := rfl

/-! ### issue -/

@[simp] theorem State.issue_slotLayout (w : TraceWord Time) (ws : List (TraceWord Time)) : (s.issue w ws).slotLayout = s.slotLayout := rfl
@[simp] theorem State.issue_subslotFlag (w : TraceWord Time) (ws : List (TraceWord Time)) : (s.issue w ws).subslotFlag = s.subslotFlag := rfl
@[simp] theorem State.issue_psr (w : TraceWord Time) (ws : List (TraceWord Time)) : (s.issue w ws).psr = s.psr := rfl
@[simp] theorem State.issue_ssr (w : TraceWord Time) (ws : List (TraceWord Time)) : (s.issue w ws).ssr = s.ssr := rfl
@[simp] theorem State.issue_ioIn (w : TraceWord Time) (ws : List (TraceWord Time)) : (s.issue w ws).ioIn = s.ioIn := rfl
@[simp] theorem State.issue_ioOut (w : TraceWord Time) (ws : List (TraceWord Time)) : (s.issue w ws).ioOut = s.ioOut := rfl
@[simp] theorem State.issue_irqCount (w : TraceWord Time) (ws : List (TraceWord Time)) : (s.issue w ws).irqCount = s.irqCount := rfl
@[simp] theorem State.issue_resetOrder (w : TraceWord Time) (ws : List (TraceWord Time)) : (s.issue w ws).resetOrder = s.resetOrder := rfl
@[simp] theorem State.issue_diagLog (w : TraceWord Time) (ws : List (TraceWord Time)) : (s.issue w ws).diagLog = s.diagLog := rfl
@[simp] theorem State.issue_alive (w : TraceWord Time) (ws : List (TraceWord Time)) : (s.issue w ws).alive = s.alive := rfl
@[simp] theorem State.issue_fault (w : TraceWord Time) (ws : List (TraceWord Time)) : (s.issue w ws).fault = s.fault := rfl
@[simp] theorem State.issue_mux (w : TraceWord Time) (ws : List (TraceWord Time)) : (s.issue w ws).mux = s.mux := rfl
@[simp] theorem State.issue_config (w : TraceWord Time) (ws : List (TraceWord Time)) : (s.issue w ws).config = s.config := rfl
@[simp] theorem State.issue_devices (w : TraceWord Time) (ws : List (TraceWord Time)) : (s.issue w ws).devices = s.devices := rfl
@[simp] theorem State.issue_subDevices (w : TraceWord Time) (ws : List (TraceWord Time)) : (s.issue w ws).subDevices = s.subDevices := rfl
@[simp] theorem State.issue_now (w : TraceWord Time) (ws : List (TraceWord Time)) : (s.issue w ws).now = w.time := rfl
@[simp] theorem State.issue_pending (w : TraceWord Time) (ws : List (TraceWord Time)) : (s.issue w ws).pending = ws := rfl
@[simp] theorem State.issue_returned (w : TraceWord Time) (ws : List (TraceWord Time)) : (s.issue w ws).returned = s.returned := rfl
@[simp] theorem State.issue_callLog (w : TraceWord Time) (ws : List (TraceWord Time)) : (s.issue w ws).callLog = s.callLog := rfl
@[simp] theorem State.issue_flagAt (w : TraceWord Time) (ws : List (TraceWord Time)) (q : Quarter) : (s.issue w ws).flagAt q = s.flagAt q := rfl
@[simp] theorem State.issue_ssrAt (w : TraceWord Time) (ws : List (TraceWord Time)) (q : Quarter) : (s.issue w ws).ssrAt q = s.ssrAt q := rfl
@[simp] theorem State.issue_slotAt (w : TraceWord Time) (ws : List (TraceWord Time)) (k : Coord) : (s.issue w ws).slotAt k = s.slotAt k := rfl
@[simp] theorem State.issue_inAt (w : TraceWord Time) (ws : List (TraceWord Time)) (k : Port) : (s.issue w ws).inAt k = s.inAt k := rfl
@[simp] theorem State.issue_outAt (w : TraceWord Time) (ws : List (TraceWord Time)) (k : Port) : (s.issue w ws).outAt k = s.outAt k := rfl
@[simp] theorem State.issue_deviceAt (w : TraceWord Time) (ws : List (TraceWord Time)) (e : DevIndex) : (s.issue w ws).deviceAt e = s.deviceAt e := rfl
@[simp] theorem State.issue_subDeviceAt (w : TraceWord Time) (ws : List (TraceWord Time)) (i : SubIndex) : (s.issue w ws).subDeviceAt i = s.subDeviceAt i := rfl
@[simp] theorem State.issue_primary (w : TraceWord Time) (ws : List (TraceWord Time)) (q : Quarter) : (s.issue w ws).primary q = s.primary q := rfl
@[simp] theorem State.issue_primary3 (w : TraceWord Time) (ws : List (TraceWord Time)) : (s.issue w ws).primary3 = s.primary3 := rfl
@[simp] theorem State.issue_secondary (w : TraceWord Time) (ws : List (TraceWord Time)) (q : Quarter) : (s.issue w ws).secondary q = s.secondary q := rfl
@[simp] theorem State.issue_visible (w : TraceWord Time) (ws : List (TraceWord Time)) (q : Quarter) : (s.issue w ws).visible q = s.visible q := rfl
@[simp] theorem State.issue_intercept (w : TraceWord Time) (ws : List (TraceWord Time)) (a : Addr) : (s.issue w ws).intercept a = s.intercept a := rfl
@[simp] theorem State.issue_resolveMem (w : TraceWord Time) (ws : List (TraceWord Time)) (a : Addr) : (s.issue w ws).resolveMem a = s.resolveMem a := rfl
@[simp] theorem State.issue_owns (w : TraceWord Time) (ws : List (TraceWord Time)) (e : DevIndex) : (s.issue w ws).owns e = s.owns e := rfl
@[simp] theorem State.issue_irq (w : TraceWord Time) (ws : List (TraceWord Time)) : (s.issue w ws).irq = s.irq := rfl
@[simp] theorem State.issue_subAt (w : TraceWord Time) (ws : List (TraceWord Time)) (k : Byte) : (s.issue w ws).subAt k = s.subAt k := rfl
@[simp] theorem State.issue_muxOccupied (w : TraceWord Time) (ws : List (TraceWord Time)) : (s.issue w ws).muxOccupied = s.muxOccupied := rfl
@[simp] theorem State.issue_blocked (w : TraceWord Time) (ws : List (TraceWord Time)) : (s.issue w ws).blocked = s.blocked := rfl
@[simp] theorem State.issue_hasClaims (w : TraceWord Time) (ws : List (TraceWord Time)) : (s.issue w ws).hasClaims = s.hasClaims := rfl

end Sys2Proof.Machine

namespace Sys2Proof.Machine

variable (s : State)

/-! ### withNext -/

@[simp] theorem State.withNext_slotLayout (w : Word) : (s.withNext w).slotLayout = s.slotLayout := rfl
@[simp] theorem State.withNext_subslotFlag (w : Word) : (s.withNext w).subslotFlag = s.subslotFlag := rfl
@[simp] theorem State.withNext_psr (w : Word) : (s.withNext w).psr = s.psr := rfl
@[simp] theorem State.withNext_ssr (w : Word) : (s.withNext w).ssr = s.ssr := rfl
@[simp] theorem State.withNext_ioIn (w : Word) : (s.withNext w).ioIn = s.ioIn := rfl
@[simp] theorem State.withNext_ioOut (w : Word) : (s.withNext w).ioOut = s.ioOut := rfl
@[simp] theorem State.withNext_irqCount (w : Word) : (s.withNext w).irqCount = s.irqCount := rfl
@[simp] theorem State.withNext_resetOrder (w : Word) : (s.withNext w).resetOrder = s.resetOrder := rfl
@[simp] theorem State.withNext_diagLog (w : Word) : (s.withNext w).diagLog = s.diagLog := rfl
@[simp] theorem State.withNext_alive (w : Word) : (s.withNext w).alive = s.alive := rfl
@[simp] theorem State.withNext_fault (w : Word) : (s.withNext w).fault = s.fault := rfl
@[simp] theorem State.withNext_mux (w : Word) : (s.withNext w).mux = s.mux := rfl
@[simp] theorem State.withNext_config (w : Word) : (s.withNext w).config = s.config := rfl
@[simp] theorem State.withNext_devices (w : Word) : (s.withNext w).devices = s.devices := rfl
@[simp] theorem State.withNext_subDevices (w : Word) : (s.withNext w).subDevices = s.subDevices := rfl
@[simp] theorem State.withNext_now (w : Word) : (s.withNext w).now = s.now := rfl
@[simp] theorem State.withNext_pending (w : Word) : (s.withNext w).pending = ⟨w, s.now + 1⟩ :: s.pending.tail := rfl
@[simp] theorem State.withNext_returned (w : Word) : (s.withNext w).returned = s.returned := rfl
@[simp] theorem State.withNext_callLog (w : Word) : (s.withNext w).callLog = s.callLog := rfl
@[simp] theorem State.withNext_flagAt (w : Word) (q : Quarter) : (s.withNext w).flagAt q = s.flagAt q := rfl
@[simp] theorem State.withNext_ssrAt (w : Word) (q : Quarter) : (s.withNext w).ssrAt q = s.ssrAt q := rfl
@[simp] theorem State.withNext_slotAt (w : Word) (k : Coord) : (s.withNext w).slotAt k = s.slotAt k := rfl
@[simp] theorem State.withNext_inAt (w : Word) (k : Port) : (s.withNext w).inAt k = s.inAt k := rfl
@[simp] theorem State.withNext_outAt (w : Word) (k : Port) : (s.withNext w).outAt k = s.outAt k := rfl
@[simp] theorem State.withNext_deviceAt (w : Word) (e : DevIndex) : (s.withNext w).deviceAt e = s.deviceAt e := rfl
@[simp] theorem State.withNext_subDeviceAt (w : Word) (i : SubIndex) : (s.withNext w).subDeviceAt i = s.subDeviceAt i := rfl
@[simp] theorem State.withNext_primary (w : Word) (q : Quarter) : (s.withNext w).primary q = s.primary q := rfl
@[simp] theorem State.withNext_primary3 (w : Word) : (s.withNext w).primary3 = s.primary3 := rfl
@[simp] theorem State.withNext_secondary (w : Word) (q : Quarter) : (s.withNext w).secondary q = s.secondary q := rfl
@[simp] theorem State.withNext_visible (w : Word) (q : Quarter) : (s.withNext w).visible q = s.visible q := rfl
@[simp] theorem State.withNext_intercept (w : Word) (a : Addr) : (s.withNext w).intercept a = s.intercept a := rfl
@[simp] theorem State.withNext_resolveMem (w : Word) (a : Addr) : (s.withNext w).resolveMem a = s.resolveMem a := rfl
@[simp] theorem State.withNext_owns (w : Word) (e : DevIndex) : (s.withNext w).owns e = s.owns e := rfl
@[simp] theorem State.withNext_irq (w : Word) : (s.withNext w).irq = s.irq := rfl
@[simp] theorem State.withNext_subAt (w : Word) (k : Byte) : (s.withNext w).subAt k = s.subAt k := rfl
@[simp] theorem State.withNext_muxOccupied (w : Word) : (s.withNext w).muxOccupied = s.muxOccupied := rfl
@[simp] theorem State.withNext_blocked (w : Word) : (s.withNext w).blocked = s.blocked := rfl
@[simp] theorem State.withNext_hasClaims (w : Word) : (s.withNext w).hasClaims = s.hasClaims := rfl

end Sys2Proof.Machine
end

