-- ==== Sys2Proof/Laws/Tables.lean ====
section
/-! SUPPORT. Laws/Tables.lean: read after write, and a write leaves every other entry alone, for each table;
the count of a device's claims after a write; the page of an address. -/

namespace Sys2Proof

/-- Two concatenations of equal widths are equal only part by part. -/
theorem append_inj {n m : Nat} {a a' : BitVec n} {b b' : BitVec m} (h : a ++ b = a' ++ b') : a = a' ∧ b = b' := by
  constructor
  · rw [← BitVec.extractLsb'_append_eq_left (a := a) (b := b), h, BitVec.extractLsb'_append_eq_left]
  · rw [← BitVec.extractLsb'_append_eq_right (a := a) (b := b), h, BitVec.extractLsb'_append_eq_right]

/-- Different coordinates have different numbers (30_encoding.md R96). -/
theorem Coord.number_inj {c e : Coord} (h : c.number = e.number) : c = e := by
  obtain ⟨h, hpg⟩ := append_inj h
  obtain ⟨hps, hss⟩ := append_inj h
  cases c; cases e; simp_all

/-- Every 6-bit number is the number of the coordinate its fields spell. -/
theorem Coord.number_surj (i : BitVec 6) :
    Coord.number ⟨i.extractLsb' 4 2, i.extractLsb' 2 2, i.extractLsb' 0 2⟩ = i := by
  revert i; decide

end Sys2Proof

namespace Sys2Proof.Machine

variable {Time : Type}

/-- The page of an address as a number (20_memory.md R61). -/
theorem page_toNat (addr : Addr) : (page addr).toNat = addr.toNat / 2 ^ 14 := by
  have := addr.isLt
  simp only [page, BitVec.extractLsb'_toNat, Nat.shiftRight_eq_div_pow]
  exact Nat.mod_eq_of_lt (show addr.toNat / 2 ^ 14 < 2 ^ 2 by omega)

variable (s : State Time)

@[simp] theorem State.slotAt_setSlot (c e : Coord) (d : Option DevIndex) :
    (s.setSlot c d).slotAt e = if c = e then d else s.slotAt e := by
  have key : c.number.toNat = e.number.toNat ↔ c = e :=
    ⟨fun h => Coord.number_inj (BitVec.eq_of_toNat_eq h), fun h => by rw [h]⟩
  simp [State.slotAt, State.setSlot, Vector.getElem_set, key]

@[simp] theorem State.ssrAt_setSsr (p q : Quarter) (v : Byte) :
    (s.setSsr p v).ssrAt q = if p = q then v else s.ssrAt q := by
  simp [State.ssrAt, State.setSsr, Vector.getElem_set, BitVec.toNat_inj]

@[simp] theorem State.ssrAt_clearSsr (q : Quarter) : s.clearSsr.ssrAt q = 0x00#8 := by
  simp [State.ssrAt, State.clearSsr]

@[simp] theorem State.inAt_setIn (p q : Port) (d : Option DevIndex) :
    (s.setIn p d).inAt q = if p = q then d else s.inAt q := by
  simp [State.inAt, State.setIn, Vector.getElem_set, BitVec.toNat_inj]

@[simp] theorem State.outAt_setOut (p q : Port) (d : Option DevIndex) :
    (s.setOut p d).outAt q = if p = q then d else s.outAt q := by
  simp [State.outAt, State.setOut, Vector.getElem_set, BitVec.toNat_inj]

@[simp] theorem State.subAt_setSub (i k : Byte) (j : Option SubIndex) :
    (s.setSub i j).subAt k = if i = k then j else s.subAt k := by
  simp [State.subAt, State.setSub, Vector.getElem_set, BitVec.toNat_inj]

@[simp] theorem State.deviceAt_setDevice (d e : DevIndex) (dev : Device) :
    (s.setDevice d dev).deviceAt e = if d = e then dev else s.deviceAt e := by
  simp [State.deviceAt, State.setDevice, Vector.getElem_set, Fin.ext_iff]

@[simp] theorem State.subDeviceAt_setSubDevice (j i : SubIndex) (dev : SubDevice) :
    (s.setSubDevice j dev).subDeviceAt i = if j = i then dev else s.subDeviceAt i := by
  simp [State.subDeviceAt, State.setSubDevice, Vector.getElem_set, Fin.ext_iff]

@[simp] theorem State.setDevice_same (d : DevIndex) : s.setDevice d (s.deviceAt d) = s := by
  simp [State.setDevice, State.deviceAt]

@[simp] theorem State.setPsr_same : s.setPsr s.psr = s := rfl

/-! ## Counting claims (44_configuration.md R193) -/

theorem count_set_add {n : Nat} (v : Vector (Option DevIndex) n) (i : Nat) (hi : i < n) (x y : Option DevIndex) :
    (v.set i x hi).toList.count y + (if v[i] = y then 1 else 0) = v.toList.count y + (if x = y then 1 else 0) := by
  have hmem : v[i] = y → 0 < v.toList.count y := fun h =>
    List.count_pos_iff.mpr (by rw [← h]; simp)
  rw [Vector.toList_set, List.count_set (by simpa using hi)]
  simp only [Vector.getElem_toList, beq_iff_eq]
  split <;> rename_i h
  · have := hmem h; omega
  · omega

theorem State.owns_setIn (p : Port) (x : Option DevIndex) (e : DevIndex) :
    (s.setIn p x).owns e + (if s.inAt p = some e then 1 else 0) = s.owns e + (if x = some e then 1 else 0) := by
  have := count_set_add s.ioIn p.toNat p.isLt x (some e)
  by_cases h1 : s.inAt p = some e <;> by_cases h2 : x = some e <;>
    simp only [State.owns, State.inAt, State.setIn] at h1 ⊢ <;> simp only [h1, h2, if_true, if_false] at this ⊢ <;> omega

theorem State.owns_setOut (p : Port) (x : Option DevIndex) (e : DevIndex) :
    (s.setOut p x).owns e + (if s.outAt p = some e then 1 else 0) = s.owns e + (if x = some e then 1 else 0) := by
  have := count_set_add s.ioOut p.toNat p.isLt x (some e)
  by_cases h1 : s.outAt p = some e <;> by_cases h2 : x = some e <;>
    simp only [State.owns, State.outAt, State.setOut] at h1 ⊢ <;> simp only [h1, h2, if_true, if_false] at this ⊢ <;> omega

theorem State.owns_setSlot (c : Coord) (x : Option DevIndex) (e : DevIndex) :
    (s.setSlot c x).owns e + (if s.slotAt c = some e then 1 else 0) = s.owns e + (if x = some e then 1 else 0) := by
  have := count_set_add s.slotLayout c.number.toNat (by exact c.number.isLt) x (some e)
  by_cases h1 : s.slotAt c = some e <;> by_cases h2 : x = some e <;>
    simp only [State.owns, State.slotAt, State.setSlot] at h1 ⊢ <;> simp only [h1, h2, if_true, if_false] at this ⊢ <;> omega

/-- The owner of a port owns something. -/
theorem State.owns_of_inAt {p : Port} {d : DevIndex} (h : s.inAt p = some d) : s.owns d ≠ 0 := by
  have : 0 < s.ioIn.toList.count (some d) := List.count_pos_iff.mpr (by rw [← h]; simp [State.inAt])
  simp only [State.owns]; omega

theorem State.owns_of_outAt {p : Port} {d : DevIndex} (h : s.outAt p = some d) : s.owns d ≠ 0 := by
  have : 0 < s.ioOut.toList.count (some d) := List.count_pos_iff.mpr (by rw [← h]; simp [State.outAt])
  simp only [State.owns]; omega

theorem State.owns_of_slotAt {c : Coord} {d : DevIndex} (h : s.slotAt c = some d) : s.owns d ≠ 0 := by
  have : 0 < s.slotLayout.toList.count (some d) := List.count_pos_iff.mpr (by rw [← h]; simp [State.slotAt])
  simp only [State.owns]; omega

/-- At construction no device owns anything (70_reset_and_hazards.md R286). -/
theorem State.owns_construction (t : Time) (d : DevIndex) : (State.construction t).owns d = 0 := by
  simp only [State.owns, State.construction, Vector.toList_replicate, List.count_replicate]; rfl

/-! ## Emptiness of a table -/

/-- A table over bit-vector indices has an entry exactly when some index reads one. -/
theorem any_isSome_iff {α : Type} {w : Nat} (v : Vector (Option α) (2 ^ w)) :
    v.toList.any Option.isSome = true ↔ ∃ i : BitVec w, v[i.toNat] ≠ none := by
  simp only [List.any_eq_true, Vector.mem_toList_iff, Vector.mem_iff_getElem]
  constructor
  · rintro ⟨x, ⟨i, hi, rfl⟩, hx⟩
    refine ⟨BitVec.ofNat w i, ?_⟩
    simp only [BitVec.toNat_ofNat, Nat.mod_eq_of_lt hi]
    exact Option.isSome_iff_ne_none.mp hx
  · rintro ⟨i, hi⟩
    exact ⟨_, ⟨i.toNat, i.isLt, rfl⟩, Option.isSome_iff_ne_none.mpr hi⟩

theorem State.muxOccupied_iff : s.muxOccupied = true ↔ ∃ id, s.subAt id ≠ none :=
  any_isSome_iff (w := 8) s.mux.table

theorem State.hasClaims_iff :
    s.hasClaims = true ↔ (∃ c, s.slotAt c ≠ none) ∨ (∃ p, s.inAt p ≠ none) ∨ ∃ p, s.outAt p ≠ none := by
  have hslot : s.slotLayout.toList.any Option.isSome = true ↔ ∃ c, s.slotAt c ≠ none := by
    rw [any_isSome_iff (w := 6)]
    constructor
    · rintro ⟨i, hi⟩
      refine ⟨⟨i.extractLsb' 4 2, i.extractLsb' 2 2, i.extractLsb' 0 2⟩, ?_⟩
      simpa only [State.slotAt, Coord.number_surj] using hi
    · rintro ⟨c, hc⟩
      exact ⟨c.number, hc⟩
  simp only [State.hasClaims, Bool.or_eq_true, hslot, any_isSome_iff (w := 8) s.ioIn, any_isSome_iff (w := 8) s.ioOut,
    or_assoc]
  rfl

end Sys2Proof.Machine
end

