-- ==== Sys2Proof/Laws/Decode.lean ====
section
/-! SUPPORT. Laws/Decode.lean: the fields of a packed word, and of a packed operand, are what was packed; a word
is packed from its own fields. -/

namespace Sys2Proof

/-- The upper part of a concatenation, read further down. -/
theorem extract_append_high {n m : Nat} (x : BitVec n) (y : BitVec m) (start len : Nat) (h : m ≤ start) :
    (x ++ y).extractLsb' start len = x.extractLsb' (start - m) len := by
  ext i hi
  simp only [BitVec.getElem_extractLsb', BitVec.getLsbD_append, if_neg (show ¬ start + i < m by omega)]
  congr 1
  omega

section
variable (kind sub : BitVec 4) (a : BitVec 16) (d : BitVec 8)

@[simp] theorem kind_packWord : Word.kind (packWord kind sub a d) = kind := by
  rw [Word.kind, packWord, extract_append_high _ _ _ _ (by decide), extract_append_high _ _ _ _ (by decide)]
  exact BitVec.extractLsb'_append_eq_left

@[simp] theorem sub_packWord : Word.sub (packWord kind sub a d) = sub := by
  rw [Word.sub, packWord, extract_append_high _ _ _ _ (by decide), extract_append_high _ _ _ _ (by decide)]
  exact BitVec.extractLsb'_append_eq_right

@[simp] theorem a_packWord : Word.a (packWord kind sub a d) = a := by
  rw [Word.a, packWord, extract_append_high _ _ _ _ (by decide)]
  exact BitVec.extractLsb'_append_eq_right

@[simp] theorem d_packWord : Word.d (packWord kind sub a d) = d := BitVec.extractLsb'_append_eq_right

end

/-- Decoding a packed word reads the packed fields. -/
@[simp] theorem decode_packWord (kind sub : BitVec 4) (a : BitVec 16) (d : BitVec 8) :
    decode (packWord kind sub a d) = decodeFields kind sub a d := by
  simp [decode]

/-- A bit vector is the concatenation of its upper and its lower part. -/
theorem append_extract {n m : Nat} (x : BitVec (n + m)) : x.extractLsb' m n ++ x.extractLsb' 0 m = x := by
  ext i hi
  rw [BitVec.getElem_append]
  split
  · simp [BitVec.getLsbD_eq_getElem hi]
  · rw [BitVec.getElem_extractLsb', ← BitVec.getLsbD_eq_getElem hi]
    congr 1
    omega

/-- A word is packed from its own four fields (30_encoding.md R98). -/
theorem packWord_fields (w : Word) : packWord (Word.kind w) (Word.sub w) (Word.a w) (Word.d w) = w := by
  have h1 := append_extract (n := 24) (m := 8) w
  have h2 := append_extract (n := 8) (m := 16) (w.extractLsb' 8 24)
  have h3 := append_extract (n := 4) (m := 4) ((w.extractLsb' 8 24).extractLsb' 16 8)
  have ek : Word.kind w = ((w.extractLsb' 8 24).extractLsb' 16 8).extractLsb' 4 4 := by
    ext i hi; simp [Word.kind, show 4 + i < 8 by omega, show 16 + (4 + i) < 24 by omega]; congr 1; omega
  have es : Word.sub w = ((w.extractLsb' 8 24).extractLsb' 16 8).extractLsb' 0 4 := by
    ext i hi; simp [Word.sub, show i < 8 by omega, show 16 + i < 24 by omega]; congr 1; omega
  have ea : Word.a w = (w.extractLsb' 8 24).extractLsb' 0 16 := by
    ext i hi; simp [Word.a, show i < 24 by omega]
  rw [packWord, ek, es, h3, ea, h2]
  exact h1

@[simp] theorem packByte_high (b : BitVec 8) : (packByte b).extractLsb' 8 8 = 0#8 :=
  BitVec.extractLsb'_append_eq_left

@[simp] theorem packByte_low (b : BitVec 8) : (packByte b).extractLsb' 0 8 = b :=
  BitVec.extractLsb'_append_eq_right

/-- A 16-bit operand whose upper byte is zero is a packed byte. -/
theorem packByte_of_high {a : BitVec 16} (h : a.extractLsb' 8 8 = 0#8) : packByte (a.extractLsb' 0 8) = a := by
  have := append_extract (n := 8) (m := 8) a
  rw [h] at this
  exact this

section
variable (ps ss pg : Quarter)

@[simp] theorem packCoord_high : (packCoord ps ss pg).extractLsb' 6 10 = 0#10 :=
  BitVec.extractLsb'_append_eq_left

@[simp] theorem packCoord_ps : (packCoord ps ss pg).extractLsb' 4 2 = ps := by
  revert ps ss pg; decide

@[simp] theorem packCoord_ss : (packCoord ps ss pg).extractLsb' 2 2 = ss := by
  revert ps ss pg; decide

@[simp] theorem packCoord_pg : (packCoord ps ss pg).extractLsb' 0 2 = pg := by
  revert ps ss pg; decide

end

/-- A 16-bit operand whose upper ten bits are zero is a packed coordinate. -/
theorem packCoord_of_high {a : BitVec 16} (h : a.extractLsb' 6 10 = 0#10) :
    packCoord (a.extractLsb' 4 2) (a.extractLsb' 2 2) (a.extractLsb' 0 2) = a := by
  have h1 := append_extract (n := 10) (m := 6) a
  have h2 := Coord.number_surj (a.extractLsb' 0 6)
  have e4 : (a.extractLsb' 0 6).extractLsb' 4 2 = a.extractLsb' 4 2 := by
    ext i hi; simp
  have e2 : (a.extractLsb' 0 6).extractLsb' 2 2 = a.extractLsb' 2 2 := by
    ext i hi; simp
  have e0 : (a.extractLsb' 0 6).extractLsb' 0 2 = a.extractLsb' 0 2 := by
    ext i hi; simp
  rw [h] at h1
  rw [e4, e2, e0] at h2
  rw [packCoord, h2]
  exact h1

/-! ## The checks of the decoder -/

theorem requireZero_eq_ok {n : Nat} {bits : BitVec n} {x : Except DecodeError Instr} {i : Instr} :
    requireZero bits x = .ok i ↔ bits = 0#n ∧ x = .ok i := by
  unfold requireZero; split <;> simp_all

theorem withByte_eq_ok {a : BitVec 16} {k : BitVec 8 → Except DecodeError Instr} {i : Instr} :
    withByte a k = .ok i ↔ ∃ b, a = packByte b ∧ k b = .ok i := by
  rw [withByte, requireZero_eq_ok]
  constructor
  · rintro ⟨h, hk⟩; exact ⟨_, (packByte_of_high h).symm, hk⟩
  · rintro ⟨b, rfl, hk⟩; simp [hk]

theorem withCoord_eq_ok {a : BitVec 16} {k : Quarter → Quarter → Quarter → Except DecodeError Instr} {i : Instr} :
    withCoord a k = .ok i ↔ ∃ ps ss pg, a = packCoord ps ss pg ∧ k ps ss pg = .ok i := by
  rw [withCoord, requireZero_eq_ok]
  constructor
  · rintro ⟨h, hk⟩; exact ⟨_, _, _, (packCoord_of_high h).symm, hk⟩
  · rintro ⟨ps, ss, pg, rfl, hk⟩; simp [hk]

theorem requireDevice_eq_ok {i k : Instr} : requireDevice i = .ok k ↔ i.wf = true ∧ i = k := by
  unfold requireDevice; split <;> simp_all

end Sys2Proof
end

