-- ==== Sys2Proof/Laws/Ops.lean ====
section
/-! SUPPORT. Laws/Ops.lean: what each shared operation can do, said once: sequencing, the fatal, upcalls, device
operands, claims and releases. -/

namespace Sys2Proof.Machine

variable {Time : Type}

/-! ## Sequencing -/

@[simp] theorem andThen_next (s : State Time) (k : State Time → Result Time) : andThen (.next s) k = k s := rfl
@[simp] theorem andThen_fault (f : Fault Time) (k : State Time → Result Time) : andThen (.fault f) k = .fault f := rfl
@[simp] theorem andThen_refused (q : Refusal) (k : State Time → Result Time) : andThen (.refused q) k = .refused q := rfl

theorem andThen_eq_next {r : Result Time} {k : State Time → Result Time} {t : State Time} :
    andThen r k = .next t ↔ ∃ s, r = .next s ∧ k s = .next t := by
  cases r <;> simp

theorem andThen_eq_fault {r : Result Time} {k : State Time → Result Time} {f : Fault Time} :
    andThen r k = .fault f ↔ r = .fault f ∨ ∃ s, r = .next s ∧ k s = .fault f := by
  cases r <;> simp

theorem andThen_eq_refused {r : Result Time} {k : State Time → Result Time} {q : Refusal} :
    andThen r k = .refused q ↔ r = .refused q ∨ ∃ s, r = .next s ∧ k s = .refused q := by
  cases r <;> simp

theorem andThen_assoc (r : Result Time) (k l : State Time → Result Time) :
    andThen (andThen r k) l = andThen r fun s => andThen (k s) l := by
  cases r <;> rfl

@[simp] theorem finish_eq (s : State Time) : finish s = .next (s.setReturned .nothing) := rfl
@[simp] theorem answer_eq (v : Byte) (s : State Time) : answer v s = .next (s.setReturned (.byte v)) := rfl
@[simp] theorem answerBool_eq (b : Bool) (s : State Time) : answerBool b s = .next (s.setReturned (.bool b)) := rfl

/-- A fatal stops the operation with the code in `fault` and nothing else assigned (60_exceptions.md R263). -/
@[simp] theorem raiseFatal_eq (c : FatalCode) (s : State Time) :
    raiseFatal c s = .fault (.fatal c (s.setFault (some c))) := rfl

/-- An operation has a step exactly when no fault is set and the block is alive (10_state.md R34). -/
theorem State.blocked_eq_none {s : State Time} : s.blocked = none ↔ s.fault = none ∧ s.alive = true := by
  simp only [State.blocked]
  split <;> simp_all

/-! ## The counter and the upcalls -/

/-- A raise never goes above the bound. -/
theorem raisedCount_le {bound : Option Nat} {n m : Nat} (hb : bound = some m) (hn : n ≤ m) :
    raisedCount bound n ≤ m := by
  subst hb
  simp only [raisedCount]
  split <;> omega

theorem lowerIrq_of_pos {s : State Time} (h : s.irqCount ≠ 0) : lowerIrq s = .next (s.setIrqCount (s.irqCount - 1)) :=
  if_neg h

theorem lowerIrq_of_zero {s : State Time} (h : s.irqCount = 0) : lowerIrq s = raiseFatal .irqUnderflow s := if_pos h

/-- Upcalls that never lower at 0 change the count and PSR, and nothing else. -/
theorem runUpcalls_of_count {us : List Upcall} {s : State Time} {n : Nat}
    (h : countAfter s.config.irqCountMax us s.irqCount = some n) :
    runUpcalls us s = .next ((s.setIrqCount n).setPsr (psrAfter us s.psr)) := by
  induction us generalizing s with
  | nil => simp only [countAfter, Option.some.injEq] at h; subst h; rfl
  | cons u us ih =>
    cases u with
    | irqUp => exact ih (s := raiseIrq s) h
    | psw v => exact ih (s := s.setPsr v) h
    | irqDn =>
      simp only [countAfter] at h
      split at h
      · cases h
      · rename_i hn
        rw [runUpcalls, runUpcall, lowerIrq_of_pos hn]
        exact ih (s := s.setIrqCount (s.irqCount - 1)) h

/-- Upcalls that lower at 0 end in F_IRQ_UNDERFLOW, with the code in `fault`. -/
theorem runUpcalls_of_underflow {us : List Upcall} {s : State Time}
    (h : countAfter s.config.irqCountMax us s.irqCount = none) :
    ∃ t, runUpcalls us s = .fault (.fatal .irqUnderflow t) ∧ t.fault = some .irqUnderflow := by
  induction us generalizing s with
  | nil => cases h
  | cons u us ih =>
    cases u with
    | irqUp => exact ih (s := raiseIrq s) h
    | psw v => exact ih (s := s.setPsr v) h
    | irqDn =>
      simp only [countAfter] at h
      split at h
      · rename_i hn
        exact ⟨_, by rw [runUpcalls, runUpcall, lowerIrq_of_zero hn]; rfl, rfl⟩
      · rename_i hn
        rw [runUpcalls, runUpcall, lowerIrq_of_pos hn]
        exact ih (s := s.setIrqCount (s.irqCount - 1)) h

/-- Everything upcalls can do: change the count and PSR, or end in F_IRQ_UNDERFLOW. -/
theorem runUpcalls_cases (us : List Upcall) (s : State Time) :
    (∃ n, countAfter s.config.irqCountMax us s.irqCount = some n ∧
      runUpcalls us s = .next ((s.setIrqCount n).setPsr (psrAfter us s.psr))) ∨
    (countAfter s.config.irqCountMax us s.irqCount = none ∧
      ∃ t, runUpcalls us s = .fault (.fatal .irqUnderflow t) ∧ t.fault = some .irqUnderflow) := by
  cases h : countAfter s.config.irqCountMax us s.irqCount with
  | none => exact .inr ⟨rfl, runUpcalls_of_underflow h⟩
  | some n => exact .inl ⟨n, rfl, runUpcalls_of_count h⟩

/-- Upcalls keep the count within the bound. -/
theorem countAfter_le {bound : Option Nat} {us : List Upcall} {n k m : Nat} (hb : bound = some m) (hn : n ≤ m)
    (h : countAfter bound us n = some k) : k ≤ m := by
  induction us generalizing n with
  | nil => simp only [countAfter, Option.some.injEq] at h; omega
  | cons u us ih =>
    cases u with
    | irqUp => exact ih (raisedCount_le hb hn) h
    | psw v => exact ih hn h
    | irqDn =>
      simp only [countAfter] at h
      split at h
      · cases h
      · exact ih (by omega) h

theorem countAfter_append (bound : Option Nat) (us vs : List Upcall) (n : Nat) :
    countAfter bound (us ++ vs) n = (countAfter bound us n).bind (countAfter bound vs) := by
  induction us generalizing n with
  | nil => rfl
  | cons u us ih =>
    cases u with
    | irqUp => exact ih _
    | psw v => exact ih _
    | irqDn => simp only [List.cons_append, countAfter]; split <;> simp [ih]

/-! ## Device operands -/

theorem withDevice_of {d : DevRef} {s : State Time} {i : DevIndex} (k : DevIndex → Result Time)
    (h : deviceIndex d = some i) (hn : i.val < s.config.nDev) : withDevice d s k = k i := by
  simp [withDevice, h, hn]

/-- Everything a device operand can do: name a device of the machine, or be refused. -/
theorem withDevice_cases (d : DevRef) (s : State Time) (k : DevIndex → Result Time) :
    (∃ i, deviceIndex d = some i ∧ i.val < s.config.nDev ∧ withDevice d s k = k i) ∨
    (deviceIndex d = none ∧ withDevice d s k = .refused .noneOperand) ∨
    (∃ i, deviceIndex d = some i ∧ s.config.nDev ≤ i.val ∧ withDevice d s k = .refused .noSuchDevice) := by
  simp only [withDevice]
  cases h : deviceIndex d with
  | none => simp
  | some i =>
    by_cases hn : i.val < s.config.nDev
    · simp [hn]
    · simp [hn, Nat.le_of_not_lt hn]

theorem withDevice_next {d : DevRef} {s t : State Time} {k : DevIndex → Result Time} (h : withDevice d s k = .next t) :
    ∃ i, deviceIndex d = some i ∧ i.val < s.config.nDev ∧ k i = .next t := by
  obtain ⟨i, hi, hn, e⟩ | ⟨-, e⟩ | ⟨i, -, -, e⟩ := withDevice_cases d s k <;> rw [e] at h
  · exact ⟨i, hi, hn, h⟩
  · cases h
  · cases h

theorem withDevice_fault {d : DevRef} {s : State Time} {f : Fault Time} {k : DevIndex → Result Time}
    (h : withDevice d s k = .fault f) : ∃ i, deviceIndex d = some i ∧ i.val < s.config.nDev ∧ k i = .fault f := by
  obtain ⟨i, hi, hn, e⟩ | ⟨-, e⟩ | ⟨i, -, -, e⟩ := withDevice_cases d s k <;> rw [e] at h
  · exact ⟨i, hi, hn, h⟩
  · cases h
  · cases h

/-- Only 0xFF names no device index (30_encoding.md R97). -/
theorem deviceIndex_eq_none {d : DevRef} : deviceIndex d = none ↔ d = 0xFF#8 := by
  revert d; decide

/-- Everything the mux gate can do: go on while the mux exists, or be refused. -/
theorem withMux_next {s t : State Time} {k : State Time → Result Time} (h : withMux s k = .next t) :
    s.mux.alive = true ∧ k s = .next t := by
  unfold withMux at h
  split at h
  · exact ⟨‹_›, h⟩
  · cases h

theorem withMux_fault {s : State Time} {f : Fault Time} {k : State Time → Result Time} (h : withMux s k = .fault f) :
    s.mux.alive = true ∧ k s = .fault f := by
  unfold withMux at h
  split at h
  · exact ⟨‹_›, h⟩
  · cases h

theorem withMux_of {s : State Time} (k : State Time → Result Time) (h : s.mux.alive = true) : withMux s k = k s := if_pos h

/-! ## Claims and releases -/

theorem State.enroll_eq (s : State Time) (d : DevIndex) :
    s.enroll d = s.setResetOrder (if s.owns d = 0 then s.resetOrder ++ [d] else s.resetOrder) := by
  simp only [State.enroll]; split <;> rfl

theorem State.strike_eq (s : State Time) (d : DevIndex) :
    s.strike d = s.setResetOrder (if s.owns d = 0 then s.resetOrder.filter fun e => e ≠ d else s.resetOrder) := by
  simp only [State.strike]; split <;> rfl

theorem claimIn_taken {p : Port} {s : State Time} {o : DevIndex} (d : DevIndex) (h : s.inAt p = some o) :
    claimIn p d s = s.logDiag (.dupIn p o d) := by simp [claimIn, h]

theorem claimIn_free {p : Port} {s : State Time} (d : DevIndex) (h : s.inAt p = none) :
    claimIn p d s = (s.enroll d).setIn p (some d) := by simp [claimIn, h]

theorem claimOut_taken {p : Port} {s : State Time} {o : DevIndex} (d : DevIndex) (h : s.outAt p = some o) :
    claimOut p d s = s.logDiag (.dupOut p o d) := by simp [claimOut, h]

theorem claimOut_free {p : Port} {s : State Time} (d : DevIndex) (h : s.outAt p = none) :
    claimOut p d s = (s.enroll d).setOut p (some d) := by simp [claimOut, h]

theorem claimSlot_taken {c : Coord} {s : State Time} {o : DevIndex} (d : DevIndex) (h : s.slotAt c = some o) :
    claimSlot c d s = s.logDiag (.dupSlot c o d) := by simp [claimSlot, h]

theorem claimSlot_free {c : Coord} {s : State Time} (d : DevIndex) (h : s.slotAt c = none) :
    claimSlot c d s = (s.enroll d).setSlot c (some d) := by simp [claimSlot, h]

theorem releaseIn_owner {p : Port} {d : DevIndex} {s : State Time} (h : s.inAt p = some d) :
    releaseIn p d s = .next ((s.setIn p none).strike d) := if_pos h

theorem releaseIn_other {p : Port} {d : DevIndex} {s : State Time} (h : s.inAt p ≠ some d) :
    releaseIn p d s = raiseFatal .unregInNotOwner s := if_neg h

theorem releaseOut_owner {p : Port} {d : DevIndex} {s : State Time} (h : s.outAt p = some d) :
    releaseOut p d s = .next ((s.setOut p none).strike d) := if_pos h

theorem releaseOut_other {p : Port} {d : DevIndex} {s : State Time} (h : s.outAt p ≠ some d) :
    releaseOut p d s = raiseFatal .unregOutNotOwner s := if_neg h

theorem releaseSlot_owner {c : Coord} {d : DevIndex} {s : State Time} (h : s.slotAt c = some d) :
    releaseSlot c d s = .next ((s.setSlot c none).strike d) := if_pos h

theorem releaseSlot_other {c : Coord} {d : DevIndex} {s : State Time} (h : s.slotAt c ≠ some d) :
    releaseSlot c d s = raiseFatal .unregSlotNotOwner s := if_neg h

/-- A release of a port for reading that completes empties the port, and strikes the owner (R187). -/
theorem releaseIn_next {p : Port} {d : DevIndex} {s t : State Time} (h : releaseIn p d s = .next t) :
    s.inAt p = some d ∧ t = (s.setIn p none).strike d := by
  by_cases ho : s.inAt p = some d
  · rw [releaseIn_owner ho] at h; cases h; exact ⟨ho, rfl⟩
  · rw [releaseIn_other ho] at h; cases h

theorem releaseOut_next {p : Port} {d : DevIndex} {s t : State Time} (h : releaseOut p d s = .next t) :
    s.outAt p = some d ∧ t = (s.setOut p none).strike d := by
  by_cases ho : s.outAt p = some d
  · rw [releaseOut_owner ho] at h; cases h; exact ⟨ho, rfl⟩
  · rw [releaseOut_other ho] at h; cases h

theorem releaseSlot_next {c : Coord} {d : DevIndex} {s t : State Time} (h : releaseSlot c d s = .next t) :
    s.slotAt c = some d ∧ t = (s.setSlot c none).strike d := by
  by_cases ho : s.slotAt c = some d
  · rw [releaseSlot_owner ho] at h; cases h; exact ⟨ho, rfl⟩
  · rw [releaseSlot_other ho] at h; cases h

/-- A claim of a port for reading writes ioIn, resetOrder and diagLog, and nothing else (R185). -/
theorem claimIn_frame (p : Port) (d : DevIndex) (s : State Time) :
    claimIn p d s =
      { s with ioIn := (claimIn p d s).ioIn, resetOrder := (claimIn p d s).resetOrder, diagLog := (claimIn p d s).diagLog } := by
  cases h : s.inAt p with
  | none => rw [claimIn_free d h, State.enroll_eq]; rfl
  | some o => rw [claimIn_taken d h]; rfl

/-- A claim of a port for writing writes ioOut, resetOrder and diagLog, and nothing else (R186). -/
theorem claimOut_frame (p : Port) (d : DevIndex) (s : State Time) :
    claimOut p d s =
      { s with ioOut := (claimOut p d s).ioOut, resetOrder := (claimOut p d s).resetOrder, diagLog := (claimOut p d s).diagLog } := by
  cases h : s.outAt p with
  | none => rw [claimOut_free d h, State.enroll_eq]; rfl
  | some o => rw [claimOut_taken d h]; rfl

/-- A claim of a coordinate writes slotLayout, resetOrder and diagLog, and nothing else (R189). -/
theorem claimSlot_frame (c : Coord) (d : DevIndex) (s : State Time) :
    claimSlot c d s =
      { s with slotLayout := (claimSlot c d s).slotLayout, resetOrder := (claimSlot c d s).resetOrder,
               diagLog := (claimSlot c d s).diagLog } := by
  cases h : s.slotAt c with
  | none => rw [claimSlot_free d h, State.enroll_eq]; rfl
  | some o => rw [claimSlot_taken d h]; rfl

/-! ## The mux window -/

/-- Every offset of the window is in the list the window operations walk. -/
theorem mem_windowOffsets (i : BitVec 4) : i ∈ windowOffsets := by revert i; decide

theorem windowOffsets_nodup : windowOffsets.Nodup := by decide

theorem windowPort_inj {c : Config} {i k : BitVec 4} : windowPort c i = windowPort c k ↔ i = k :=
  ⟨fun h => (append_inj h).2, fun h => by rw [h]⟩

/-- The offset of a window port is its place in the window (30_encoding.md R95). -/
@[simp] theorem windowOffset_windowPort (c : Config) (i : BitVec 4) : windowOffset (windowPort c i) = i :=
  BitVec.extractLsb'_append_eq_right

/-- Claiming one window port writes ioIn, ioOut, resetOrder and diagLog, and nothing else. -/
theorem claimWindowPort_frame (s : State Time) (i : BitVec 4) :
    claimWindowPort s i =
      { s with ioIn := (claimWindowPort s i).ioIn, ioOut := (claimWindowPort s i).ioOut,
               resetOrder := (claimWindowPort s i).resetOrder, diagLog := (claimWindowPort s i).diagLog } := by
  unfold claimWindowPort
  rw [claimOut_frame, claimIn_frame]

/-- Claiming window ports writes ioIn, ioOut, resetOrder and diagLog, and nothing else (R217). -/
theorem claimWindowPorts_frame (is : List (BitVec 4)) (s : State Time) :
    is.foldl claimWindowPort s =
      { s with ioIn := (is.foldl claimWindowPort s).ioIn, ioOut := (is.foldl claimWindowPort s).ioOut,
               resetOrder := (is.foldl claimWindowPort s).resetOrder, diagLog := (is.foldl claimWindowPort s).diagLog } := by
  induction is generalizing s with
  | nil => rfl
  | cons i is ih =>
    rw [List.foldl_cons, ih, claimWindowPort_frame]

/-- Claiming the window writes ioIn, ioOut, resetOrder and diagLog, and nothing else (R217). -/
theorem claimWindow_frame (s : State Time) :
    claimWindow s =
      { s with ioIn := (claimWindow s).ioIn, ioOut := (claimWindow s).ioOut,
               resetOrder := (claimWindow s).resetOrder, diagLog := (claimWindow s).diagLog } :=
  claimWindowPorts_frame windowOffsets s

/-- Releasing window ports writes ioIn, ioOut and resetOrder, and nothing else (R218). -/
theorem releasePorts_frame {is : List (BitVec 4)} {s t : State Time} (h : releasePorts is s = .next t) :
    t = { s with ioIn := t.ioIn, ioOut := t.ioOut, resetOrder := t.resetOrder } := by
  induction is generalizing s with
  | nil => cases h; rfl
  | cons i is ih =>
    obtain ⟨u, hu, h⟩ := andThen_eq_next.mp h
    obtain ⟨v, hv, h⟩ := andThen_eq_next.mp h
    have ht := ih h
    obtain ⟨-, rfl⟩ := releaseOut_next hv
    obtain ⟨-, rfl⟩ := releaseIn_next hu
    simp only [State.strike_eq] at ht
    rw [ht]; rfl

end Sys2Proof.Machine
end

