-- ==== Sys2Proof/Laws/Forward.lean ====
section
/-! SUPPORT. Laws/Forward.lean: what the calls on devices, and the operations that make them, can change and how
they can stop. -/

namespace Sys2Proof.Machine

variable {Time : Type}

/-- `t` differs from `s` at most in what steady-state operations write through devices (10_state.md R39):
the device states, irqCount, PSR, the selector of the mux, and the model's own records of the call. -/
def SteadyFrame (s t : State Time) : Prop :=
  t = { s with devices := t.devices, subDevices := t.subDevices, irqCount := t.irqCount, psr := t.psr,
               callLog := t.callLog, returned := t.returned,
               mux := { s.mux with selector := t.mux.selector } }

theorem SteadyFrame.refl (s : State Time) : SteadyFrame s s := rfl

theorem SteadyFrame.trans {s t u : State Time} (h : SteadyFrame s t) (k : SteadyFrame t u) : SteadyFrame s u := by
  unfold SteadyFrame at *
  rw [k, h]

/-- A fault of a device call is F_IRQ_UNDERFLOW, with the code in `fault` (60_exceptions.md R261). -/
def UnderflowOnly (r : Result Time) : Prop :=
  ∀ f, r = .fault f → ∃ u, f = .fatal .irqUnderflow u ∧ u.fault = some .irqUnderflow

theorem UnderflowOnly.next (s : State Time) : UnderflowOnly (.next s) := by intro f h; cases h
theorem UnderflowOnly.refused (q : Refusal) : UnderflowOnly (.refused q : Result Time) := by intro f h; cases h

theorem UnderflowOnly.andThen {r : Result Time} {k : State Time → Result Time} (h : UnderflowOnly r)
    (hk : ∀ s, UnderflowOnly (k s)) : UnderflowOnly (andThen r k) := by
  cases r with
  | next s => exact hk s
  | fault f => exact h
  | refused q => exact .refused q

theorem runUpcalls_underflowOnly (us : List Upcall) (s : State Time) : UnderflowOnly (runUpcalls us s) := by
  intro f hf
  obtain ⟨n, -, h⟩ | ⟨-, t, h, ht⟩ := runUpcalls_cases us s
  · rw [h] at hf; cases hf
  · rw [h] at hf; cases hf; exact ⟨t, rfl, ht⟩

theorem runUpcalls_steady {us : List Upcall} {s t : State Time} (h : runUpcalls us s = .next t) : SteadyFrame s t := by
  obtain ⟨n, -, h'⟩ | ⟨-, u, h', -⟩ := runUpcalls_cases us s
  · rw [h'] at h; cases h; rfl
  · rw [h'] at h; cases h

theorem applyEffect_steady {d : DevIndex} {e : Effect Device} {s t : State Time} (h : applyEffect d e s = .next t) :
    SteadyFrame s t :=
  .trans (t := s.setDevice d e.device) rfl (runUpcalls_steady h)

theorem applySubEffect_steady {j : SubIndex} {e : Effect SubDevice} {s t : State Time}
    (h : applySubEffect j e s = .next t) : SteadyFrame s t :=
  .trans (t := s.setSubDevice j e.device) rfl (runUpcalls_steady h)

variable [LinearOrder Time]

/-- A sub-device is reset from outside only while operations have a step (10_state.md R34; log 31). -/
theorem resetSubDevice_next {j : SubIndex} {n : Time} {s t : State Time} (h : resetSubDevice j n s = .next t) :
    s.blocked = none ∧ applySubEffect j ((s.subDeviceAt j).reset j n) s = .next t := by
  unfold resetSubDevice at h
  split at h
  · cases h
  · exact ⟨‹_›, h⟩

theorem resetSubDevice_blocked (j : SubIndex) (n : Time) {s : State Time} {r : Refusal} (h : s.blocked = some r) :
    resetSubDevice j n s = .refused r := by
  simp [resetSubDevice, h]

theorem resetSubDevice_steady {j : SubIndex} {n : Time} {s t : State Time} (h : resetSubDevice j n s = .next t) :
    SteadyFrame s t :=
  applySubEffect_steady (resetSubDevice_next h).2

theorem callSubReadIO_steady {j : SubIndex} {p : Port} {s t : State Time} (h : callSubReadIO j p s = .next t) :
    SteadyFrame s t := by
  obtain ⟨u, hu, ht⟩ := andThen_eq_next.mp h
  cases ht
  exact .trans (t := s.logCall _) rfl (.trans (applySubEffect_steady hu) rfl)

theorem callSubWriteIO_steady {j : SubIndex} {p : Port} {v : Byte} {s t : State Time}
    (h : callSubWriteIO j p v s = .next t) : SteadyFrame s t := by
  obtain ⟨u, hu, ht⟩ := andThen_eq_next.mp h
  cases ht
  exact .trans (t := s.logCall _) rfl (.trans (applySubEffect_steady hu) rfl)

theorem muxReadIO_steady {p : Port} {s t : State Time} (h : muxReadIO p s = .next t) : SteadyFrame s t := by
  unfold muxReadIO at h
  split at h
  · exact callSubReadIO_steady h
  · cases h; rfl

theorem muxWriteIO_steady {p : Port} {v : Byte} {s t : State Time} (h : muxWriteIO p v s = .next t) :
    SteadyFrame s t := by
  unfold muxWriteIO at h
  split at h
  · cases h; rfl
  · split at h
    · exact callSubWriteIO_steady h
    · cases h; rfl

theorem callReadMem_steady {d : DevIndex} {a : Addr} {s t : State Time} (h : callReadMem d a s = .next t) :
    SteadyFrame s t := by
  unfold callReadMem at h
  split at h
  · cases h
  · obtain ⟨u, hu, ht⟩ := andThen_eq_next.mp h
    cases ht
    exact .trans (t := s.logCall _) rfl (.trans (applyEffect_steady hu) rfl)

theorem callWriteMem_steady {d : DevIndex} {a : Addr} {v : Byte} {s t : State Time}
    (h : callWriteMem d a v s = .next t) : SteadyFrame s t := by
  unfold callWriteMem at h
  split at h
  · cases h
  · obtain ⟨u, hu, ht⟩ := andThen_eq_next.mp h
    cases ht
    exact .trans (t := s.logCall _) rfl (.trans (applyEffect_steady hu) rfl)

theorem callReadIO_steady {d : DevIndex} {p : Port} {s t : State Time} (h : callReadIO d p s = .next t) :
    SteadyFrame s t := by
  unfold callReadIO at h
  split at h
  · exact .trans (t := s.logCall _) rfl (muxReadIO_steady h)
  · obtain ⟨u, hu, ht⟩ := andThen_eq_next.mp h
    cases ht
    exact .trans (t := s.logCall _) rfl (.trans (applyEffect_steady hu) rfl)

theorem callWriteIO_steady {d : DevIndex} {p : Port} {v : Byte} {s t : State Time}
    (h : callWriteIO d p v s = .next t) : SteadyFrame s t := by
  unfold callWriteIO at h
  split at h
  · exact .trans (t := s.logCall _) rfl (muxWriteIO_steady h)
  · obtain ⟨u, hu, ht⟩ := andThen_eq_next.mp h
    cases ht
    exact .trans (t := s.logCall _) rfl (.trans (applyEffect_steady hu) rfl)

theorem callReset_steady {d : DevIndex} {s t : State Time} (h : callReset d s = .next t) : SteadyFrame s t := by
  unfold callReset at h
  split at h
  · cases h; rfl
  · exact .trans (t := s.logCall _) rfl (applyEffect_steady h)

theorem resetDevices_steady {ds : List DevIndex} {s t : State Time} (h : resetDevices ds s = .next t) :
    SteadyFrame s t := by
  induction ds generalizing s with
  | nil => cases h; rfl
  | cons d ds ih =>
    obtain ⟨u, hu, ht⟩ := andThen_eq_next.mp h
    exact .trans (callReset_steady hu) (ih ht)

/-! ## How a call can fault -/

theorem callReadMem_underflowOnly (d : DevIndex) (a : Addr) (s : State Time) : UnderflowOnly (callReadMem d a s) := by
  unfold callReadMem
  split
  · exact .refused _
  · exact .andThen (runUpcalls_underflowOnly _ _) fun _ => .next _

theorem callWriteMem_underflowOnly (d : DevIndex) (a : Addr) (v : Byte) (s : State Time) :
    UnderflowOnly (callWriteMem d a v s) := by
  unfold callWriteMem
  split
  · exact .refused _
  · exact .andThen (runUpcalls_underflowOnly _ _) fun _ => .next _

theorem muxReadIO_underflowOnly (p : Port) (s : State Time) : UnderflowOnly (muxReadIO p s) := by
  unfold muxReadIO
  split
  · exact .andThen (runUpcalls_underflowOnly _ _) fun _ => .next _
  · exact .next _

theorem muxWriteIO_underflowOnly (p : Port) (v : Byte) (s : State Time) : UnderflowOnly (muxWriteIO p v s) := by
  unfold muxWriteIO
  split
  · exact .next _
  · split
    · exact .andThen (runUpcalls_underflowOnly _ _) fun _ => .next _
    · exact .next _

theorem callReadIO_underflowOnly (d : DevIndex) (p : Port) (s : State Time) : UnderflowOnly (callReadIO d p s) := by
  unfold callReadIO
  split
  · exact muxReadIO_underflowOnly _ _
  · exact .andThen (runUpcalls_underflowOnly _ _) fun _ => .next _

theorem callWriteIO_underflowOnly (d : DevIndex) (p : Port) (v : Byte) (s : State Time) :
    UnderflowOnly (callWriteIO d p v s) := by
  unfold callWriteIO
  split
  · exact muxWriteIO_underflowOnly _ _ _
  · exact .andThen (runUpcalls_underflowOnly _ _) fun _ => .next _

theorem resetDevices_underflowOnly (ds : List DevIndex) (s : State Time) : UnderflowOnly (resetDevices ds s) := by
  induction ds generalizing s with
  | nil => exact .next _
  | cons d ds ih =>
    refine .andThen ?_ ih
    unfold callReset
    split
    · exact .next _
    · exact runUpcalls_underflowOnly _ _

end Sys2Proof.Machine
end

