-- ==== Sys2Proof/Laws/Exec.lean ====
section
/-! SUPPORT. Laws/Exec.lean: what an operation can change, said once for the operations that are not the builder's
and once for the builder's, and which of them can fault. -/

namespace Sys2Proof.Machine

variable {Time : Type} [LinearOrder Time]

/-- An operation that is not the builder's writes the registers and the device states, and nothing else
(10_state.md R39). -/
theorem perform_steady {i : Instr} {s t : State Time} (hi : role i ≠ .builder) (h : perform i s = .next t) :
    t = { s with devices := t.devices, subDevices := t.subDevices, irqCount := t.irqCount, psr := t.psr,
                 ssr := t.ssr, callLog := t.callLog, returned := t.returned,
                 mux := { s.mux with selector := t.mux.selector } } := by
  have weaken : ∀ {s t : State Time}, SteadyFrame s t → t = { s with
      devices := t.devices, subDevices := t.subDevices, irqCount := t.irqCount, psr := t.psr, ssr := t.ssr,
      callLog := t.callLog, returned := t.returned, mux := { s.mux with selector := t.mux.selector } } := by
    intro s t h; rw [h]
  cases i with
  | mrd a =>
    simp only [perform, execMrd] at h
    repeat' split at h
    · cases h; rfl
    · cases h; rfl
    · exact weaken (callReadMem_steady h)
  | mwr a v =>
    simp only [perform, execMwr] at h
    repeat' split at h
    · cases h; rfl
    · cases h; rfl
    · exact weaken (callWriteMem_steady h)
  | iord p =>
    simp only [perform, execIord] at h
    split at h
    · cases h; rfl
    · exact weaken (callReadIO_steady h)
  | iowr p v =>
    simp only [perform, execIowr] at h
    split at h
    · cases h; rfl
    · exact weaken (callWriteIO_steady h)
  | irqst => cases h; rfl
  | irqup => cases h; rfl
  | irqdn =>
    obtain ⟨u, hu, ht⟩ := andThen_eq_next.mp h
    cases ht
    unfold lowerIrq at hu
    split at hu <;> cases hu
    rfl
  | psw v => cases h; rfl
  | rst =>
    obtain ⟨u, hu, ht⟩ := andThen_eq_next.mp h
    cases ht
    rw [resetDevices_steady hu]; rfl
  | muxrst =>
    simp only [perform, execMuxrst] at h
    obtain ⟨-, h⟩ := withMux_next h
    cases h; rfl
  | regslot _ _ _ _ | muxreg _ _ | unregslot _ _ _ _ | muxunreg _ | regin _ _ | regout _ _ | unregin _ _
  | unregout _ _ | destroy | muxdestroy => exact absurd rfl hi

/-- An operation of the builder writes the tables, ResetOrder, diagLog and the two `alive` flags, and nothing
else (44_configuration.md R198). -/
theorem perform_builder {i : Instr} {s t : State Time} (hi : role i = .builder) (h : perform i s = .next t) :
    t = { s with slotLayout := t.slotLayout, ioIn := t.ioIn, ioOut := t.ioOut, resetOrder := t.resetOrder,
                 diagLog := t.diagLog, alive := t.alive, returned := t.returned,
                 mux := { s.mux with table := t.mux.table, alive := t.mux.alive } } := by
  cases i with
  | regslot ps ss pg d => obtain ⟨i, -, -, h⟩ := withDevice_next h; cases h; rw [claimSlot_frame]; rfl
  | regin p d => obtain ⟨i, -, -, h⟩ := withDevice_next h; cases h; rw [claimIn_frame]; rfl
  | regout p d => obtain ⟨i, -, -, h⟩ := withDevice_next h; cases h; rw [claimOut_frame]; rfl
  | unregslot ps ss pg d =>
    obtain ⟨i, -, -, h⟩ := withDevice_next h
    obtain ⟨u, hu, ht⟩ := andThen_eq_next.mp h
    cases ht
    obtain ⟨-, rfl⟩ := releaseSlot_next hu
    rw [State.strike_eq]; rfl
  | unregin p d =>
    obtain ⟨i, -, -, h⟩ := withDevice_next h
    obtain ⟨u, hu, ht⟩ := andThen_eq_next.mp h
    cases ht
    obtain ⟨-, rfl⟩ := releaseIn_next hu
    rw [State.strike_eq]; rfl
  | unregout p d =>
    obtain ⟨i, -, -, h⟩ := withDevice_next h
    obtain ⟨u, hu, ht⟩ := andThen_eq_next.mp h
    cases ht
    obtain ⟨-, rfl⟩ := releaseOut_next hu
    rw [State.strike_eq]; rfl
  | destroy =>
    simp only [perform, execDestroy] at h
    split at h <;> cases h
    rfl
  | muxreg id j =>
    simp only [perform, execMuxreg] at h
    obtain ⟨-, h⟩ := withMux_next h
    split at h
    · cases h
    · cases h
      unfold muxRegister
      repeat' split
      · rfl
      · rfl
      · have f := claimWindow_frame s
        generalize claimWindow s = g at f ⊢
        rw [f]; rfl
  | muxunreg id =>
    simp only [perform, execMuxunreg] at h
    obtain ⟨-, h⟩ := withMux_next h
    repeat' split at h
    · cases h
    · cases h; rfl
    · obtain ⟨u, hu, ht⟩ := andThen_eq_next.mp h
      cases ht
      rw [releasePorts_frame hu]; rfl
  | muxdestroy =>
    simp only [perform, execMuxdestroy] at h
    obtain ⟨-, h⟩ := withMux_next h
    split at h <;> cases h
    rfl
  | mrd _ | mwr _ _ | iord _ | iowr _ _ | irqst | irqup | irqdn | psw _ | rst | muxrst => cases hi

/-! ## One step -/

omit [LinearOrder Time] in
/-- A step that completes took the next word of the trace, decoded it and ran its operation. -/
theorem runNext_next {run : Instr → State Time → Result Time} {s t : State Time} (h : runNext run s = .next t) :
    ∃ w rest i, s.blocked = none ∧ s.pending = w :: rest ∧ decode w.word = .ok i ∧ run i (s.issue w rest) = .next t := by
  unfold runNext at h
  split at h
  · cases h
  · split at h
    · cases h
    · split at h
      · cases h
      · exact ⟨_, _, _, ‹_›, ‹_›, ‹_›, h⟩

/-! ## The machine of Dispatch.lean and Step.lean, at TraceTime -/

theorem exec_eq_perform (i : Instr) (s : State) : exec i s = perform i s := by cases i <;> rfl

theorem step_eq_stepOver (s : State) : step s = stepOver s := by
  unfold step stepOver
  rw [show exec = perform from funext fun i => funext fun s => exec_eq_perform i s]

theorem exec_steady {i : Instr} {s t : State} (hi : role i ≠ .builder) (h : exec i s = .next t) :
    t = { s with devices := t.devices, subDevices := t.subDevices, irqCount := t.irqCount, psr := t.psr,
                 ssr := t.ssr, callLog := t.callLog, returned := t.returned,
                 mux := { s.mux with selector := t.mux.selector } } :=
  perform_steady hi (exec_eq_perform i s ▸ h)

theorem exec_builder {i : Instr} {s t : State} (hi : role i = .builder) (h : exec i s = .next t) :
    t = { s with slotLayout := t.slotLayout, ioIn := t.ioIn, ioOut := t.ioOut, resetOrder := t.resetOrder,
                 diagLog := t.diagLog, alive := t.alive, returned := t.returned,
                 mux := { s.mux with table := t.mux.table, alive := t.mux.alive } } :=
  perform_builder hi (exec_eq_perform i s ▸ h)

end Sys2Proof.Machine
end

