-- ==== Sys2Proof/Laws/Memory.lean ====
section
/-! SUPPORT. Laws/Memory.lean: the cells of a RAM device: read after write, every other address alone, and
every write keeps the canonical form. -/

namespace Sys2Proof.Machine

/-- Below its first address a canonical list reads as unwritten. -/
theorem Memory.read_below {m : Memory} {lo a : Nat} (h : Memory.wfFrom lo m = true) (ha : a < lo) :
    Memory.read m a = Memory.unwritten := by
  induction m generalizing lo with
  | nil => rfl
  | cons cell m ih =>
    obtain ⟨b, w⟩ := cell
    simp only [Memory.wfFrom, Bool.and_eq_true, decide_eq_true_eq] at h
    rw [Memory.read, if_neg (by omega)]
    exact ih h.2 (by omega)

/-- A read after a write: the value at the written address, what was there before at every other. -/
theorem Memory.read_write {m : Memory} {lo : Nat} (h : Memory.wfFrom lo m = true) (a b : Nat) (v : Byte) :
    Memory.read (Memory.write m a v) b = if b = a then v else Memory.read m b := by
  induction m generalizing lo with
  | nil => by_cases hv : v = Memory.unwritten <;> simp [Memory.write, Memory.read, hv]
  | cons cell m ih =>
    obtain ⟨c, w⟩ := cell
    simp only [Memory.wfFrom, Bool.and_eq_true, decide_eq_true_eq] at h
    have hbelow : ∀ x, x < c + 1 → Memory.read m x = Memory.unwritten := fun x hx => Memory.read_below h.2 hx
    rw [Memory.write]
    split
    · split
      · by_cases hb : b = a
        · subst hb
          simp [Memory.read, hbelow b (by omega), *, show b ≠ c by omega]
        · simp [hb]
      · simp [Memory.read]
    · split
      · subst_vars
        split
        · by_cases hb : b = c
          · simp [hbelow c (by omega), *]
          · simp [Memory.read, hb]
        · by_cases hb : b = c <;> simp [Memory.read, hb]
      · simp only [Memory.read]
        rw [ih h.2]
        by_cases hb : b = c
        · subst hb; simp [show b ≠ a by omega]
        · simp [hb]

/-- A write keeps the canonical form above any bound its address respects. -/
theorem Memory.write_wfFrom {m : Memory} {lo : Nat} (h : Memory.wfFrom lo m = true) (a : Nat) (v : Byte)
    (hlo : lo ≤ a) (ha : a < 65536) : Memory.wfFrom lo (Memory.write m a v) = true := by
  induction m generalizing lo with
  | nil => by_cases hv : v = Memory.unwritten <;> simp [Memory.write, Memory.wfFrom, hv, hlo, ha]
  | cons cell m ih =>
    obtain ⟨c, w⟩ := cell
    simp only [Memory.wfFrom, Bool.and_eq_true, decide_eq_true_eq] at h
    obtain ⟨⟨⟨h1, h2⟩, h3⟩, h4⟩ := h
    have weaken : Memory.wfFrom lo m = true := by
      cases m with
      | nil => rfl
      | cons cell m =>
        obtain ⟨e, u⟩ := cell
        simp only [Memory.wfFrom, Bool.and_eq_true, decide_eq_true_eq] at h4 ⊢
        exact ⟨⟨⟨by omega, h4.1.1.2⟩, h4.1.2⟩, h4.2⟩
    rw [Memory.write]
    split
    · split
      · simp [Memory.wfFrom, *]
      · simp [Memory.wfFrom, *]
    · split
      · split
        · exact weaken
        · simp [Memory.wfFrom, *]
      · simp only [Memory.wfFrom, Bool.and_eq_true, decide_eq_true_eq]
        exact ⟨⟨⟨h1, h2⟩, h3⟩, ih h4 (by omega)⟩

/-- Every write to an address of the memory space keeps the canonical form. -/
theorem Memory.write_wf {m : Memory} (h : Memory.wf m = true) (a : Addr) (v : Byte) :
    Memory.wf (Memory.write m a.toNat v) = true :=
  Memory.write_wfFrom h a.toNat v (Nat.zero_le _) a.isLt

end Sys2Proof.Machine
end

