-- ==== Sys2Proof/Laws/PerInstr.lean ====
section
/-! SUPPORT. Laws/PerInstr.lean: facts about the operations as syntax, one lemma per constructor. -/

namespace Sys2Proof.Laws.RowMatch

/-- The word of an operation has the fixed bits of the operation's row (30_encoding.md R99). -/
def Statement (i : Instr) : Prop :=
  ∃ r ∈ opcodeRows, r.mnemonic = i.mnemonic ∧ encode i &&& r.mask = r.bits

theorem append_and {n m : Nat} (x x' : BitVec n) (y y' : BitVec m) :
    (x ++ y) &&& (x' ++ y') = (x &&& x') ++ (y &&& y') := by
  ext i hi
  simp only [BitVec.getElem_and, BitVec.getElem_append]
  split <;> simp

/-- Masking a packed word masks its fields. -/
theorem packWord_and (k k' s s' : BitVec 4) (a a' : BitVec 16) (d d' : BitVec 8) :
    packWord k s a d &&& packWord k' s' a' d' = packWord (k &&& k') (s &&& s') (a &&& a') (d &&& d') := by
  have h1 := append_and k k' s s'
  have h2 := append_and (k ++ s) (k' ++ s') a a'
  have h3 := append_and (k ++ s ++ a) (k' ++ s' ++ a') d d'
  rw [h1] at h2
  rw [h2] at h3
  exact h3

theorem packByte_and (b : BitVec 8) : packByte b &&& 0xFF00 = 0 := by revert b; decide

theorem packCoord_and (ps ss pg : Quarter) : packCoord ps ss pg &&& 0xFFC0 = 0 := by revert ps ss pg; decide

theorem mrd (addr : Addr) : Statement (.mrd addr) := by
  refine ⟨⟨"MRD", 0x00000000, 0xFF0000FF, false⟩, by simp [opcodeRows], rfl, ?_⟩
  rw [encode, show (0xFF0000FF : Word) = packWord 0xF 0xF 0x0000 0xFF by decide, packWord_and]
  simp; decide

theorem mwr (addr : Addr) (v : Byte) : Statement (.mwr addr v) := by
  refine ⟨⟨"MWR", 0x10000000, 0xFF000000, false⟩, by simp [opcodeRows], rfl, ?_⟩
  rw [encode, show (0xFF000000 : Word) = packWord 0xF 0xF 0x0000 0x00 by decide, packWord_and]
  simp; decide

theorem iord (p : Port) : Statement (.iord p) := by
  refine ⟨⟨"IORD", 0x20000000, 0xFFFF00FF, false⟩, by simp [opcodeRows], rfl, ?_⟩
  rw [encode, show (0xFFFF00FF : Word) = packWord 0xF 0xF 0xFF00 0xFF by decide, packWord_and]
  rw [packByte_and]
  simp; decide

theorem iowr (p : Port) (v : Byte) : Statement (.iowr p v) := by
  refine ⟨⟨"IOWR", 0x30000000, 0xFFFF0000, false⟩, by simp [opcodeRows], rfl, ?_⟩
  rw [encode, show (0xFFFF0000 : Word) = packWord 0xF 0xF 0xFF00 0x00 by decide, packWord_and]
  rw [packByte_and]
  simp; decide

theorem irqst : Statement .irqst := by
  refine ⟨⟨"IRQST", 0x40000000, 0xFFFFFFFF, false⟩, by simp [opcodeRows], rfl, ?_⟩
  decide

theorem irqup : Statement .irqup := by
  refine ⟨⟨"IRQUP", 0x50000000, 0xFFFFFFFF, false⟩, by simp [opcodeRows], rfl, ?_⟩
  decide

theorem irqdn : Statement .irqdn := by
  refine ⟨⟨"IRQDN", 0x60000000, 0xFFFFFFFF, false⟩, by simp [opcodeRows], rfl, ?_⟩
  decide

theorem psw (v : Byte) : Statement (.psw v) := by
  refine ⟨⟨"PSW", 0x70000000, 0xFFFFFF00, false⟩, by simp [opcodeRows], rfl, ?_⟩
  rw [encode, show (0xFFFFFF00 : Word) = packWord 0xF 0xF 0xFFFF 0x00 by decide, packWord_and]
  simp; decide

theorem rst : Statement .rst := by
  refine ⟨⟨"RST", 0x80000000, 0xFFFFFFFF, false⟩, by simp [opcodeRows], rfl, ?_⟩
  decide

theorem muxrst : Statement .muxrst := by
  refine ⟨⟨"MUXRST", 0x81000000, 0xFFFFFFFF, false⟩, by simp [opcodeRows], rfl, ?_⟩
  decide

theorem regslot (ps ss pg : Quarter) (d : DevRef) : Statement (.regslot ps ss pg d) := by
  refine ⟨⟨"REGSLOT", 0x90000000, 0xFFFFC000, true⟩, by simp [opcodeRows], rfl, ?_⟩
  rw [encode, show (0xFFFFC000 : Word) = packWord 0xF 0xF 0xFFC0 0x00 by decide, packWord_and]
  rw [packCoord_and]
  simp; decide

theorem muxreg (id : Byte) (j : DevRef) : Statement (.muxreg id j) := by
  refine ⟨⟨"MUXREG", 0x91000000, 0xFFFF0000, true⟩, by simp [opcodeRows], rfl, ?_⟩
  rw [encode, show (0xFFFF0000 : Word) = packWord 0xF 0xF 0xFF00 0x00 by decide, packWord_and]
  rw [packByte_and]
  simp; decide

theorem unregslot (ps ss pg : Quarter) (d : DevRef) : Statement (.unregslot ps ss pg d) := by
  refine ⟨⟨"UNREGSLOT", 0xA0000000, 0xFFFFC000, true⟩, by simp [opcodeRows], rfl, ?_⟩
  rw [encode, show (0xFFFFC000 : Word) = packWord 0xF 0xF 0xFFC0 0x00 by decide, packWord_and]
  rw [packCoord_and]
  simp; decide

theorem muxunreg (id : Byte) : Statement (.muxunreg id) := by
  refine ⟨⟨"MUXUNREG", 0xA1000000, 0xFFFF00FF, false⟩, by simp [opcodeRows], rfl, ?_⟩
  rw [encode, show (0xFFFF00FF : Word) = packWord 0xF 0xF 0xFF00 0xFF by decide, packWord_and]
  rw [packByte_and]
  simp; decide

theorem regin (p : Port) (d : DevRef) : Statement (.regin p d) := by
  refine ⟨⟨"REGIN", 0xB0000000, 0xFFFF0000, true⟩, by simp [opcodeRows], rfl, ?_⟩
  rw [encode, show (0xFFFF0000 : Word) = packWord 0xF 0xF 0xFF00 0x00 by decide, packWord_and]
  rw [packByte_and]
  simp; decide

theorem regout (p : Port) (d : DevRef) : Statement (.regout p d) := by
  refine ⟨⟨"REGOUT", 0xC0000000, 0xFFFF0000, true⟩, by simp [opcodeRows], rfl, ?_⟩
  rw [encode, show (0xFFFF0000 : Word) = packWord 0xF 0xF 0xFF00 0x00 by decide, packWord_and]
  rw [packByte_and]
  simp; decide

theorem unregin (p : Port) (d : DevRef) : Statement (.unregin p d) := by
  refine ⟨⟨"UNREGIN", 0xD0000000, 0xFFFF0000, true⟩, by simp [opcodeRows], rfl, ?_⟩
  rw [encode, show (0xFFFF0000 : Word) = packWord 0xF 0xF 0xFF00 0x00 by decide, packWord_and]
  rw [packByte_and]
  simp; decide

theorem unregout (p : Port) (d : DevRef) : Statement (.unregout p d) := by
  refine ⟨⟨"UNREGOUT", 0xE0000000, 0xFFFF0000, true⟩, by simp [opcodeRows], rfl, ?_⟩
  rw [encode, show (0xFFFF0000 : Word) = packWord 0xF 0xF 0xFF00 0x00 by decide, packWord_and]
  rw [packByte_and]
  simp; decide

theorem destroy : Statement .destroy := by
  refine ⟨⟨"DESTROY", 0xF0000000, 0xFFFFFFFF, false⟩, by simp [opcodeRows], rfl, ?_⟩
  decide

theorem muxdestroy : Statement .muxdestroy := by
  refine ⟨⟨"MUXDESTROY", 0xF1000000, 0xFFFFFFFF, false⟩, by simp [opcodeRows], rfl, ?_⟩
  decide

end Sys2Proof.Laws.RowMatch
end

