-- ==== Sys2Proof/Tests/Slice0.lean ====
section
/-! SUPPORT. Tests/Slice0.lean: decode words written out from 30_encoding.md R99, ill-formed terms, single-step
vectors of 95_test_vectors.md (named after the vector), and, for each statement with hypotheses, a state and
operands that meet them (witness_…). Expected values are the spec's. -/

namespace Sys2Proof.Machine.Tests

open Sys2Proof Sys2Proof.Machine

set_option maxRecDepth 4000

/-! ## Decoding: the four fields of each word, from the table of R99 -/

theorem test_decode_memory :
    decode (0x0#4 ++ 0x0#4 ++ 0xC000#16 ++ 0x00#8) = .ok (.mrd 0xC000) ∧
    decode (0x1#4 ++ 0x0#4 ++ 0xFFFF#16 ++ 0x10#8) = .ok (.mwr 0xFFFF 0x10) := by decide

theorem test_decode_io :
    decode (0x2#4 ++ 0x0#4 ++ 0x00#8 ++ 0xA8#8 ++ 0x00#8) = .ok (.iord 0xA8) ∧
    decode (0x3#4 ++ 0x0#4 ++ 0x00#8 ++ 0xA8#8 ++ 0xF0#8) = .ok (.iowr 0xA8 0xF0) := by decide

theorem test_decode_interrupt_and_select :
    decode 0x40000000 = .ok .irqst ∧ decode 0x50000000 = .ok .irqup ∧ decode 0x60000000 = .ok .irqdn ∧
    decode (0x7#4 ++ 0x0#4 ++ 0x0000#16 ++ 0xF0#8) = .ok (.psw 0xF0) := by decide

theorem test_decode_reset_and_teardown :
    decode 0x80000000 = .ok .rst ∧ decode 0x81000000 = .ok .muxrst ∧ decode 0xF0000000 = .ok .destroy ∧
    decode 0xF1000000 = .ok .muxdestroy := by decide

theorem test_decode_slots :
    decode (0x9#4 ++ 0x0#4 ++ 0#10 ++ 3#2 ++ 1#2 ++ 2#2 ++ 0x05#8) = .ok (.regslot 3 1 2 5) ∧
    decode (0xA#4 ++ 0x0#4 ++ 0#10 ++ 3#2 ++ 1#2 ++ 2#2 ++ 0x05#8) = .ok (.unregslot 3 1 2 5) := by decide

theorem test_decode_ports :
    decode 0xB0009802 = .ok (.regin 0x98 2) ∧ decode 0xC000A807 = .ok (.regout 0xA8 7) ∧
    decode 0xD0009802 = .ok (.unregin 0x98 2) ∧ decode 0xE000A807 = .ok (.unregout 0xA8 7) := by decide

theorem test_decode_mux :
    decode 0x91000501 = .ok (.muxreg 5 1) ∧ decode 0xA1000900 = .ok (.muxunreg 9) := by decide

/-- The refused words of 95_test_vectors.md section 2.1. -/
theorem test_refused_words :
    decode 0x00000001 = .error .mustBeZero ∧ decode 0x02000000 = .error .noSuchOperation ∧
    decode 0x01000000 = .error .noSuchOperation ∧ decode 0x71000000 = .error .noSuchOperation ∧
    decode 0xB1000000 = .error .noSuchOperation ∧ decode 0x20010000 = .error .mustBeZero ∧
    decode 0x40000001 = .error .mustBeZero ∧ decode 0x70000100 = .error .mustBeZero ∧
    decode 0x90004000 = .error .mustBeZero ∧ decode 0xA1000901 = .error .mustBeZero ∧
    decode 0x900000FF = .error .noneOperand ∧ decode 0xB00098FF = .error .noneOperand ∧
    decode 0x910005FF = .error .noneOperand := by decide

/-- The pseudo-operations of 95_test_vectors.md section 2.1. -/
theorem test_pseudo_operations :
    (pseudoSsw 0x10).map encode = [0x10FFFF10] ∧ pseudoSsrd.map encode = [0x00FFFF00] ∧
    (pseudoRegmem 3 0 0 3 1).map encode = [0x90003001, 0x90003101, 0x90003201, 0x90003301] ∧
    (pseudoUnregmem 3 0 1 2 1).map encode = [0xA0003101, 0xA0003201] ∧
    (pseudoRegio 0xE0 4).map encode = [0xB000E004, 0xC000E004] ∧
    (pseudoUnregio 0x98 2).map encode = [0xD0009802, 0xE0009802] := by decide

theorem test_decodeTableWord :
    decodeTableWord 32 0x90003605 = some (.regslot 3 1 2 5) ∧ decodeTableWord 32 0x40000001 = none := by decide

/-! ## Well-formedness: an ill-formed term for each check -/

theorem test_wf_regslot : (Instr.regslot 0 0 0 0xFF).wf = false ∧ (Instr.regslot 0 0 0 0xFE).wf = true := by decide
theorem test_wf_muxreg : (Instr.muxreg 5 0xFF).wf = false ∧ (Instr.muxreg 0xFF 0xFE).wf = true := by decide
theorem test_wf_unregslot : (Instr.unregslot 0 0 0 0xFF).wf = false := by decide
theorem test_wf_regin : (Instr.regin 0x98 0xFF).wf = false := by decide
theorem test_wf_regout : (Instr.regout 0x98 0xFF).wf = false := by decide
theorem test_wf_unregin : (Instr.unregin 0x98 0xFF).wf = false := by decide
theorem test_wf_unregout : (Instr.unregout 0x98 0xFF).wf = false := by decide
theorem test_wf_config :
    (Config.mk 0 none 0x4 0).wf = false ∧ (Config.mk 256 none 0x4 0).wf = false ∧ (Config.mk 16 none 0x4 0x10).wf = false ∧
    (Config.mk 17 none 0x4 0x10).wf = true := by decide

/-! ## Helpers: small states and what a step answers -/

/-- The step that issues the word `w`. -/
def issueWord (w : Nat) (s : State) : Result := step (s.withFetchWord 32 w)

def byteOf : Result → Option Byte
  | .next t => match t.returned with
    | .byte b => some b
    | .nothing | .bool _ => none
  | .fault _ | .refused _ => none

def boolOf : Result → Option Bool
  | .next t => match t.returned with
    | .bool b => some b
    | .nothing | .byte _ => none
  | .fault _ | .refused _ => none

def codeOf : Result → Option FatalCode
  | .fault (.fatal c _) => some c
  | .next _ | .refused _ => none

/-- A view of the state a result leaves, at a next state or at a fault. -/
def after {α : Type} (r : Result) (f : State → α) : Option α :=
  match r with
  | .next t => some (f t)
  | .fault (.fatal _ t) => some (f t)
  | .refused _ => none

/-- `vis` of 95_test_vectors.md section 0. -/
def vis (s : State) : List (Option DevIndex) := [s.visible 0, s.visible 1, s.visible 2, s.visible 3]

/-- The configuration of M1 to M9 (section 2.3), with PSR and SSR[3]. -/
def memCfg (psr ssr3 : Byte) : State :=
  let s := { State.reset with subslotFlag := #v[false, false, false, true], psr := psr, ssr := #v[0, 0, 0, ssr3] }
  let s := (((s.setDevice 0 (.const 0xA0)).setDevice 1 (.ram [])).setDevice 2 (.ram [])).setDevice 3 (.const 0xC3)
  let s := ((s.setSlot ⟨0, 0, 0⟩ (some 0)).setSlot ⟨0, 0, 1⟩ (some 0)).setSlot ⟨1, 0, 1⟩ (some 3)
  let s := ((s.setSlot ⟨3, 0, 0⟩ (some 1)).setSlot ⟨3, 0, 1⟩ (some 1)).setSlot ⟨3, 0, 2⟩ (some 1)
  (s.setSlot ⟨3, 0, 3⟩ (some 1)).setSlot ⟨3, 1, 2⟩ (some 2)

/-- The configuration of IO1 to IO6 (section 2.5), and BOTH as D9 at IOOut[0x10]. -/
def ioCfg : State :=
  let s := ((State.reset.setDevice 2 (.const 0x9F)).setDevice 3 (.const 0x33)).setDevice 9 .both
  ((s.setIn 0x98 (some 2)).setOut 0x98 (some 3)).setOut 0x10 (some 9)

/-- Interrupting devices: D4 = IRQDEV, D8 = STUB, D9 = RSTUP, D7 = SEL (section 0). -/
def irqCfg (p4 p8 : Bool) (count : Nat) : State :=
  let s := ((State.reset.setDevice 4 (.irqDev p4)).setDevice 8 (.stub p8)).setDevice 7 (.sel 0)
  (((s.setOut 0xE0 (some 4)).setOut 0xE2 (some 8)).setOut 0xA8 (some 7)).setIrqCount count

/-- The window entries 0x40..0x4F, owned by MUX_DEV = 0x10. -/
def windowTable : Vector (Option DevIndex) 256 := Vector.ofFn fun p => if p.val / 16 = 4 then some 0x10 else none

/-- The mux with S0 under id 5, its window claimed, and a selector. -/
def muxOne (sel : Byte) : State :=
  let s := (State.reset.setSubDevice 0 (.logSub 0 [])).setSubDevice 1 (.logSub 0 [])
  { (s.setSub 5 (some 0)).setSelector sel with ioIn := windowTable, ioOut := windowTable, resetOrder := [0x10] }

/-- The same with S1 under id 9. -/
def muxCfg (sel : Byte) : State := (muxOne sel).setSub 9 (some 1)

/-! ## The trace (30_encoding.md R98) -/

theorem test_trace_is_numbered_from_1 :
    numbered 0 [0x50000000, 0x60000000] = [⟨0x50000000, 1⟩, ⟨0x60000000, 2⟩] := by decide

/-- Two operations may carry the same TimeStamp (20_memory.md R77, non-decreasing). -/
theorem test_equal_times :
    after (andThen (step { memCfg 0 0 with pending := [⟨0x00000000, 5⟩, ⟨0x00400000, 5⟩] }) step) State.callLog =
      some [.readMem 0 0x0000 5, .readMem 0 0x4000 5] := by decide

/-! ## Memory accesses (section 2.3) -/

/-- M5: the intercepted read calls no device. M9: page 3 floats and the read is still not 0xFF. -/
theorem test_mrd_M9 :
    byteOf (issueWord 0x00FFFF00 (memCfg 0xC0 0xFF)) = some 0x00 ∧
    after (issueWord 0x00FFFF00 (memCfg 0xC0 0xFF)) State.callLog = some [] := by decide

theorem test_mrd_M1 : byteOf (issueWord 0x00000000 (memCfg 0x00 0x00)) = some 0xA0 := by decide

theorem test_mwr_M7 :
    vis (memCfg 0xF0 0x00) = [some 0, some 0, some 1, some 1] ∧
    after (issueWord 0x10FFFF10 (memCfg 0xF0 0x00)) vis = some [some 0, some 0, some 2, some 1] ∧
    after (issueWord 0x10FFFF10 (memCfg 0xF0 0x00)) (fun t => t.deviceAt 1) = some (.ram []) := by decide

/-- M10 word 7. -/
theorem test_mwr_M10 :
    after (issueWord 0x10800021 (memCfg 0xF0 0x10)) (fun t => t.deviceAt 2) = some (.ram [(0x8000, 0x21)]) := by decide

/-! ## I/O accesses (section 2.5) -/

theorem test_iord_IO1 : byteOf (issueWord 0x20009800 ioCfg) = some 0x9F := by decide

/-- P3 word 9: a read at offset 0 is forwarded and does not return the selector. -/
theorem test_iord_mux :
    byteOf (issueWord 0x20004000 ((muxCfg 9).setSubDevice 1 (.logSub 0x77 []))) = some 0x77 := by decide

/-- Upcall order: up, select, up, down. -/
theorem test_iowr_BOTH :
    after (issueWord 0x30001055 ioCfg) (fun t => (t.psr, t.irqCount)) = some (0x55, 1) := by decide

/-- P3 word 7 (EX4): forwarded to S1 with the real port, never to S0. -/
theorem test_iowr_mux :
    after (issueWord 0x30004177 (muxCfg 9)) (fun t => (t.subDeviceAt 1, t.subDeviceAt 0)) =
      some (.logSub 0x77 [(0x41, 0x77)], .logSub 0 []) := by decide

/-! ## Interrupts and selection (sections 2.4, 2.6) -/

theorem test_irqst_Q1 :
    boolOf (issueWord 0x40000000 (State.reset.setIrqCount 1)) = some true ∧
    boolOf (issueWord 0x40000000 State.reset) = some false := by decide

/-- Q2: the third raise is absorbed under IRQ_COUNT_MAX = 2. -/
theorem test_irqup_Q2 :
    after (issueWord 0x50000000 { State.reset with irqCount := 2, config := { resetConfig with irqCountMax := some 2 } })
      State.irqCount = some 2 := by decide

theorem test_irqdn_Q1 :
    codeOf (issueWord 0x60000000 State.reset) = some .irqUnderflow ∧
    after (issueWord 0x60000000 State.reset) (fun t => (t.fault, t.irqCount)) = some (some .irqUnderflow, 0) := by decide

/-- PS5 word 14: primary (3,2,1,0), secondary (3,0,0,0) with SSR[3] = 0x1B. -/
theorem test_psw_PS5 :
    after (issueWord 0x7000001B { State.reset with subslotFlag := #v[true, true, true, true], ssr := #v[0, 0, 0, 0x1B] })
      (fun t => [t.primary 0, t.primary 1, t.primary 2, t.primary 3, t.secondary 0, t.secondary 1, t.secondary 2,
        t.secondary 3]) = some [3, 2, 1, 0, 3, 0, 0, 0] := by decide

/-! ## Reset (section 2.9, program P4) -/

/-- LOGSUB is "never reset" (section 0): a reset of the sub-device leaves its `last`. -/
theorem test_resetSubDevice_LOGSUB :
    after (resetSubDevice 1 9 ((muxCfg 0x33).setSubDevice 1 (.logSub 0x77 []))) (fun t => t.subDeviceAt 1) =
      some (.logSub 0x77 []) := by decide

/-- R34: `fault` holds its code for ever, whoever resets a sub-device then. -/
theorem test_resetSubDevice_faulted :
    resetSubDevice 1 9 (State.reset.setFault (some .destroyOutstanding)) =
      .refused (.blockFaulted .destroyOutstanding) := rfl

/-- Z3: D0 then D1 are reset, then the registers are cleared; the RAM keeps its byte. -/
theorem test_rst_Z3 :
    let r := issueWord 0x80000000
      { (memCfg 0xF0 0x10).setDevice 1 (.ram [(0, 7)]) with irqCount := 2, resetOrder := [0, 1] }
    after r (fun t => (t.psr, t.ssrAt 3, t.irqCount, t.deviceAt 1)) = some (0x00, 0x00, 0, .ram [(0, 7)]) ∧
    after r State.callLog = some [.reset 0 1, .reset 1 1] := by decide

/-- P4 word 21: D4 withdraws its raise, D8 does not, the mux clears its selector, then the bus clears the
count. -/
theorem test_rst_P4 :
    after (issueWord 0x80000000 { (irqCfg true true 2).setSelector 0x33 with resetOrder := [4, 8, 0x10] })
      (fun t => (t.irqCount, t.deviceAt 4, t.deviceAt 8, t.mux.selector)) =
      some (0, .irqDev false, .stub true, 0x00) := by decide

/-- P4 word 30: the duty of R290 broken. -/
theorem test_iowr_P4_underflow :
    codeOf (issueWord 0x3000E200 (irqCfg false true 0)) = some .irqUnderflow ∧
    after (issueWord 0x3000E200 (irqCfg false true 0)) (fun t => t.deviceAt 8) = some (.stub false) := by decide

theorem test_muxrst_X4 :
    after (issueWord 0x81000000 (muxCfg 0x33)) (fun t => (t.mux.selector, t.subAt 5)) = some (0x00, some 0) := by decide

/-! ## Attaching and detaching (section 2.7, program P2) -/

/-- CF5: the second claim is reported and changes nothing. -/
theorem test_regslot_CF5 :
    after (issueWord 0x90000002 { State.reset.setSlot ⟨0, 0, 0⟩ (some 0) with resetOrder := [0] })
      (fun t => (t.slotAt ⟨0, 0, 0⟩, t.resetOrder, t.diagLog)) =
      some (some 0, [0], [.dupSlot ⟨0, 0, 0⟩ 0 2]) := by decide

theorem test_unregslot_CF2 :
    codeOf (issueWord 0xA0000002 (State.reset.setSlot ⟨0, 0, 0⟩ (some 0))) = some .unregSlotNotOwner ∧
    after (issueWord 0xA0000002 (State.reset.setSlot ⟨0, 0, 0⟩ (some 0))) (fun t => t.slotAt ⟨0, 0, 0⟩) =
      some (some 0) := by decide

/-- P2 words 1 and 2. -/
theorem test_regin_P2 :
    after (issueWord 0xB0009802 State.reset) (fun t => (t.inAt 0x98, t.outAt 0x98, t.resetOrder)) =
      some (some 2, none, [2]) ∧
    after (issueWord 0xB0009803 { State.reset.setIn 0x98 (some 2) with resetOrder := [2] })
      (fun t => (t.inAt 0x98, t.resetOrder, t.diagLog)) = some (some 2, [2], [.dupIn 0x98 2 3]) := by decide

/-- CF10. -/
theorem test_regout_CF10 :
    after (issueWord 0xC0009800 { State.reset.setOut 0x98 (some 2) with resetOrder := [2] })
      (fun t => (t.outAt 0x98, t.resetOrder, t.diagLog)) = some (some 2, [2], [.dupOut 0x98 2 0]) := by decide

/-- CF7 word 5: D2 still owns the Out port, so it stays in ResetOrder. CF4: not the owner. -/
theorem test_unregin_CF7 :
    after (issueWord 0xD0001002
        { (State.reset.setIn 0x10 (some 2)).setOut 0x10 (some 2) with resetOrder := [2, 0, 1] })
      (fun t => (t.inAt 0x10, t.resetOrder)) = some (none, [2, 0, 1]) ∧
    codeOf (issueWord 0xD0009802 (State.reset.setIn 0x98 (some 0))) = some .unregInNotOwner := by decide

/-- CF7 word 6: D2 loses its last claim. CF3: never registered. -/
theorem test_unregout_CF7 :
    after (issueWord 0xE0001002 { State.reset.setOut 0x10 (some 2) with resetOrder := [2, 0, 1] })
      (fun t => (t.outAt 0x10, t.resetOrder)) = some (none, [0, 1]) ∧
    codeOf (issueWord 0xE0009802 State.reset) = some .unregOutNotOwner := by decide

theorem test_destroy_CF1 :
    codeOf (issueWord 0xF0000000 (State.reset.setIn 0x98 (some 2))) = some .destroyOutstanding ∧
    after (issueWord 0xF0000000 State.reset) State.alive = some false := by decide

/-! ## The mux (section 2.8, program P3) -/

/-- P3 word 1: both ends of the window are claimed, its neighbours are not, and table[5] = S0. -/
theorem test_muxreg_P3 :
    after (issueWord 0x91000500 State.reset)
      (fun t => ([t.inAt 0x3F, t.inAt 0x40, t.outAt 0x4F, t.outAt 0x50], t.subAt 5, t.resetOrder)) =
      some ([none, some 0x10, some 0x10, none], some 0, [0x10]) := by decide

/-- X3: the window port that D6 holds is reported. -/
theorem test_muxreg_X3 :
    after (issueWord 0x91000500 { State.reset.setIn 0x42 (some 6) with resetOrder := [6] })
      (fun t => ([t.inAt 0x42, t.outAt 0x42], t.diagLog, t.resetOrder)) =
      some ([some 6, some 0x10], [.dupIn 0x42 6 0x10], [6, 0x10]) := by decide

/-- P3 words 18 and 21: the last one out releases the window. -/
theorem test_muxunreg_P3 :
    after (issueWord 0xA1000500 (muxCfg 0)) (fun t => (t.subAt 5, t.inAt 0x41)) = some (none, some 0x10) ∧
    after (issueWord 0xA1000900 (((muxCfg 0).setSub 5 none)))
      (fun t => (t.inAt 0x40, t.outAt 0x4F, t.resetOrder)) = some (none, none, []) := by decide

/-- X3: 0x40 and 0x41 are released, then the In entry of 0x42 is another's. X1: an unknown id. -/
theorem test_muxunreg_X3 :
    codeOf (issueWord 0xA1000500 ((muxOne 0).setIn 0x42 (some 6))) = some .unregInNotOwner ∧
    after (issueWord 0xA1000500 ((muxOne 0).setIn 0x42 (some 6)))
      (fun t => (t.subAt 5, t.outAt 0x41, t.inAt 0x42, t.outAt 0x42)) = some (none, none, some 6, some 0x10) ∧
    codeOf (issueWord 0xA1000500 State.reset) = some .muxUnregUnknown := by decide

theorem test_muxdestroy_X2 :
    codeOf (issueWord 0xF1000000 (muxCfg 0)) = some .muxDestroyOutstanding ∧
    after (issueWord 0xF1000000 State.reset) (fun t => t.mux.alive) = some false := by decide

/-! ## The hypotheses of the statements are met: one witness for each statement, at the ends of the ranges of its
clauses -/

theorem witness_DecodeOfEncodeIsTheOperation :
    (Instr.regslot 3 3 3 0xFE).wf = true ∧ (Instr.muxreg 0xFF 0x00).wf = true ∧ (Instr.mwr 0xFFFF 0xFF).wf = true := by
  decide

theorem witness_EncodeOfDecodeIsTheWord :
    decode 0x90003FFE = .ok (.regslot 3 3 3 0xFE) ∧ decode 0x00000000 = .ok (.mrd 0) := by decide

theorem witness_DecodingAgreesWithTheOpcodeTable :
    (⟨"REGIN", 0xB0000000, 0xFFFF0000, true⟩ : OpcodeRow) ∈ opcodeRows ∧
    (⟨"MUXDESTROY", 0xF1000000, 0xFFFFFFFF, false⟩ : OpcodeRow) ∈ opcodeRows := by decide

theorem witness_WordsOutsideTheTableAreRefused :
    (∀ r ∈ opcodeRows, r.matches 0x40000001 = false) ∧
    State.blocked { State.reset with pending := [⟨0x40000001, 7⟩] } = none ∧
    1 < (Word.sub 0x02000000).toNat ∧ 1 < (Word.sub 0x0F000000).toNat ∧
    (Word.sub 0x71000000 = 1#4 ∧ Word.kind 0x71000000 ≠ 0x8#4 ∧ Word.kind 0x71000000 ≠ 0x9#4 ∧
      Word.kind 0x71000000 ≠ 0xA#4 ∧ Word.kind 0x71000000 ≠ 0xF#4) ∧
    ((⟨"REGIN", 0xB0000000, 0xFFFF0000, true⟩ : OpcodeRow) ∈ opcodeRows ∧
      (0xB00098FF#32 &&& 0xFFFF0000 = 0xB0000000#32) ∧ Word.d 0xB00098FF = 0xFF#8) := by decide

theorem witness_StepRunsTheDecodedOperation :
    State.fault { State.reset with pending := [⟨0x50000000, 7⟩] } = none ∧
    State.alive { State.reset with pending := [⟨0x50000000, 7⟩] } = true ∧ decode 0x50000000 = .ok .irqup := by decide

/-- An operation but DESTROY, DESTROY, a fault, and the two states that have no step. -/
theorem witness_FaultAndAliveGateEveryStep :
    (∃ t, exec .irqup State.reset = .next t) ∧ (∃ t, exec .destroy State.reset = .next t) ∧
    (∃ t, exec .irqdn State.reset = .fault (.fatal .irqUnderflow t)) ∧
    State.fault { State.reset with fault := some .irqUnderflow } = some .irqUnderflow ∧
    (State.fault { State.reset with alive := false } = none ∧ State.alive { State.reset with alive := false } = false) :=
  ⟨⟨_, rfl⟩, ⟨_, rfl⟩, ⟨_, rfl⟩, rfl, rfl, rfl⟩

/-- Each cause of the table holds in some state. -/
theorem witness_FatalCodesHaveTheirCauses :
    (∃ f, exec .irqdn State.reset = .fault f) ∧ State.reset.irqCount = 0 ∧
    (deviceIndex 0xFE = some 254 ∧ (254 : DevIndex).val < State.reset.config.nDev ∧ State.reset.inAt 0xFF ≠ some 254 ∧
      State.reset.outAt 0x00 ≠ some 254) ∧
    State.reset.slotAt ⟨3, 3, 3⟩ ≠ some 254 ∧
    (State.reset.setSlot ⟨3, 3, 3⟩ (some 0)).slotAt ⟨3, 3, 3⟩ ≠ none ∧
    (State.reset.setIn 0xFF (some 0)).inAt 0xFF ≠ none ∧ (State.reset.setOut 0 (some 0)).outAt 0 ≠ none ∧
    (State.reset.mux.alive = true ∧ State.reset.subAt 0xFF = none) ∧
    ((muxCfg 0).mux.alive = true ∧ (muxCfg 0).subAt 9 ≠ none) :=
  ⟨⟨_, rfl⟩, by decide⟩

/-- A window entry that the mux does not own, at the first offset and at the last, in each direction. -/
theorem witness_FatalCodesHaveTheirCauses_window :
    ((muxOne 0).subAt 5 ≠ none ∧ ((muxOne 0).setIn 0x40 (some 6)).inAt (windowPort resetConfig 0) ≠ some 0x10 ∧
      ((muxOne 0).setIn 0x40 (some 6)).ownsWindowBelow 0) ∧
    (((muxOne 0).setOut 0x4F none).inAt (windowPort resetConfig 15) = some 0x10 ∧
      ((muxOne 0).setOut 0x4F none).outAt (windowPort resetConfig 15) ≠ some 0x10 ∧
      ((muxOne 0).setOut 0x4F none).ownsWindowBelow 15) := by
  unfold State.ownsWindowBelow
  decide

/-- A machine with one claim and one raise, about to raise again. -/
def claimed : State :=
  { State.reset.setIn 0x98 (some 2) with resetOrder := [2], irqCount := 1, pending := numbered 0 [0x50000000] }

theorem inv_claimed : claimed.Inv := by
  have ho : ∀ d, claimed.owns d = if d = 2 then 1 else 0 := by
    intro d
    have e := State.reset.owns_setIn 0x98 (some 2) d
    have h0 : State.reset.inAt 0x98 = none := by decide
    rw [show State.reset.owns d = 0 from State.owns_construction 0 d, h0] at e
    show (State.reset.setIn 0x98 (some 2)).owns d = _
    by_cases hd : d = 2
    · subst hd; simpa using e
    · simpa [hd, Ne.symm hd] using e
  constructor
  · decide
  · intro m h; cases h
  · intro ps _; simp [claimed, State.ssrAt, State.reset, State.construction, State.setIn]
  · exact List.nodup_singleton 2
  · intro d; rw [ho]; simp [claimed]
  · intro d _; exact d.isLt
  · intro h; cases h
  · intro d; simp [claimed, State.deviceAt, State.reset, State.construction, State.setIn, Device.memoryWf]

theorem witness_StepKeepsTheInvariant : claimed.Inv ∧ ∃ t, step claimed = .next t := ⟨inv_claimed, _, rfl⟩

theorem witness_StrapsAndParametersNeverChange :
    ∃ t, step { State.reset with pending := [⟨0x80000000, 7⟩] } = .next t := ⟨_, rfl⟩

/-- The pending devices D4 (IRQDEV) and D8 (STUB) and the mux, about to be reset, with a count. -/
def rstCfg (count : Nat) : State := { irqCfg true true count with resetOrder := [4, 8, 0x10] }

/-- Resets that complete, and resets in which D4 lowers at count 0. -/
theorem witness_RstResetsDevicesThenRegisters :
    (rstCfg 2).resetOrder.Nodup ∧
    countAfter (rstCfg 2).config.irqCountMax (resetUpcalls (rstCfg 2) (rstCfg 2).resetOrder) (rstCfg 2).irqCount = some 1 ∧
    (rstCfg 0).resetOrder.Nodup ∧
    countAfter (rstCfg 0).config.irqCountMax (resetUpcalls (rstCfg 0) (rstCfg 0).resetOrder) (rstCfg 0).irqCount = none := by
  decide

/-- Pages 0 to 3 at their ends. -/
theorem witness_PageOfAnAddress :
    page 0x0000 = 0 ∧ page 0x3FFF = 0 ∧ page 0x4000 = 1 ∧ page 0x7FFF = 1 ∧ page 0x8000 = 2 ∧ page 0xBFFF = 2 ∧
    page 0xC000 = 3 ∧ page 0xFFFF = 3 := by decide

theorem witness_FloatingMemoryAccess :
    let s := memCfg 0x00 0x00
    (s.primary (page 0xFFFF) = 0 ∧ s.secondary (page 0xFFFF) = 0 ∧ page 0xFFFF = 3 ∧ s.slotAt ⟨0, 0, 3⟩ = none ∧
      s.intercept 0xFFFF = false) := by decide

theorem witness_MemoryAccessPrecedence :
    (memCfg 0xC0 0xFF).intercept 0xFFFF = true ∧
    ((memCfg 0xC0 0xFF).intercept 0xFFFE = false ∧ (memCfg 0xC0 0xFF).visible (page 0xFFFE) = none) ∧
    ((memCfg 0xC0 0x10).intercept 0xFFFE = false ∧ (memCfg 0xC0 0x10).visible (page 0xFFFE) = some 1) := by decide

theorem witness_SecondarySelectReadsBackInverted : (memCfg 0xC0 0x10).flagAt ((memCfg 0xC0 0x10).primary 3#2) = true := by
  decide

/-- Page 2 in the slot of page 3, and not in it. -/
theorem witness_SecondarySelectWriteUpdatesTheMapping :
    ((memCfg 0xF0 0x00).flagAt ((memCfg 0xF0 0x00).primary 3#2) = true ∧
      (memCfg 0xF0 0x00).primary 2 = (memCfg 0xF0 0x00).primary 3#2) ∧
    (memCfg 0xC0 0x00).primary 2 ≠ (memCfg 0xC0 0x00).primary 3#2 ∧
    selectField 0xF0 2 = (memCfg 0xC0 0x00).primary 3#2 := by decide

theorem witness_ForwardedReadsComplete :
    (let s := memCfg 0xC0 0x10
     s.intercept 0xFFFE = false ∧ s.resolveMem 0xFFFE = some 1 ∧ (1 : DevIndex) ≠ s.config.muxDev ∧
      countAfter s.config.irqCountMax ((s.deviceAt 1).readMem 1 0xFFFE s.now).upcalls s.irqCount = some 0) ∧
    (let s := ioCfg
     s.inAt 0x98 = some 2 ∧ (2 : DevIndex) ≠ s.config.muxDev ∧
      countAfter s.config.irqCountMax ((s.deviceAt 2).readIO 2 0x98 s.now).upcalls s.irqCount = some 0) := by decide

/-- A write whose device raises and lowers, and one whose device lowers at 0. -/
theorem witness_ForwardedWritesComplete :
    (let s := memCfg 0xC0 0x10
     s.intercept 0xFFFE = false ∧ s.resolveMem 0xFFFE = some 1 ∧ (1 : DevIndex) ≠ s.config.muxDev ∧
      countAfter s.config.irqCountMax ((s.deviceAt 1).writeMem 1 0xFFFE 0 s.now).upcalls s.irqCount = some 0) ∧
    (let s := ioCfg
     s.outAt 0x10 = some 9 ∧ (9 : DevIndex) ≠ s.config.muxDev ∧
      countAfter s.config.irqCountMax ((s.deviceAt 9).writeIO 9 0x10 0x55 s.now).upcalls s.irqCount = some 1) ∧
    (let s := irqCfg false true 0
     s.outAt 0xE2 = some 8 ∧ (8 : DevIndex) ≠ s.config.muxDev ∧
      countAfter s.config.irqCountMax ((s.deviceAt 8).writeIO 8 0xE2 0 s.now).upcalls s.irqCount = none) := by decide

theorem witness_RamReadsBackWhatWasWritten :
    (memCfg 0xC0 0x10).intercept 0xFFFE = false ∧ (memCfg 0xC0 0x10).resolveMem 0xFFFE = some 1 ∧
    (1 : DevIndex) ≠ (memCfg 0xC0 0x10).config.muxDev ∧ (memCfg 0xC0 0x10).deviceAt 1 = .ram [] ∧
    Memory.wf [] = true ∧ Memory.wf [(0, 1), (0xFFFF, 2)] = true ∧ Memory.wf [(5, 0)] = false ∧
    Memory.wf [(5, 1), (4, 1)] = false := by decide

theorem witness_MemoryAccessCallsOnlyTheVisibleDevice :
    (∃ t, exec (.mrd 0xFFFE) (memCfg 0xC0 0x10) = .next t) ∧ ∃ t, exec (.mwr 0xFFFE 1) (memCfg 0xC0 0x10) = .next t :=
  ⟨⟨_, rfl⟩, ⟨_, rfl⟩⟩

theorem witness_OnlyTheBuilderWritesTables :
    role (.iowr 0x10 0x55) ≠ .builder ∧ ∃ t, exec (.iowr 0x10 0x55) ioCfg = .next t := ⟨by decide, _, rfl⟩

/-- Each register is written by one of its writers. -/
theorem witness_RegistersHaveFewWriters :
    (∃ t, exec (.mwr 0xFFFF 0x10) (memCfg 0xC0 0x00) = .next t ∧ t.ssr ≠ (memCfg 0xC0 0x00).ssr) ∧
    (∃ t, exec (.iowr 0x10 0x55) ioCfg = .next t ∧ t.psr ≠ ioCfg.psr ∧ t.irqCount ≠ ioCfg.irqCount) ∧
    (∃ t, exec (.iowr 0x40 0x09) (muxCfg 0) = .next t ∧ t.mux.selector ≠ (muxCfg 0).mux.selector) :=
  ⟨⟨_, rfl, by decide⟩, ⟨_, rfl, by decide, by decide⟩, ⟨_, rfl, by decide⟩⟩

theorem witness_VisibleDeviceChangesOnlyWhereListed :
    ∃ t, exec (.psw 0xF0) (memCfg 0x00 0x00) = .next t ∧ t.visible 2 ≠ (memCfg 0x00 0x00).visible 2 :=
  ⟨_, rfl, by decide⟩

/-- The top block below 0xFF00 of a subslotted page 3, and the top block of one that is not. -/
theorem witness_FastPathReadIsIndistinguishable :
    ((memCfg 0x00 0x00).resolveMem 0x0000 = some 0 ∧ (0 : DevIndex) ≠ (memCfg 0x00 0x00).config.muxDev ∧
      (memCfg 0x00 0x00).pointerAllowed 0x0000 = true) ∧
    ((memCfg 0x00 0x00).deviceAt 0).LinePromise TraceTime 0 (blockOf 0x0000) (Vector.replicate Config.cacheLine 0xA0) ∧
    (memCfg 0xC0 0x00).pointerAllowed 0xFEFF = true ∧ (memCfg 0xC0 0x00).pointerAllowed 0xFF00 = false ∧
    (memCfg 0x00 0x00).pointerAllowed 0xFF00 = true := by
  refine ⟨by decide, fun addr t _ => ?_, by decide⟩
  simp [CacheLine.at, memCfg, State.setDevice, State.setSlot, State.deviceAt, State.reset, State.construction, Device.readMem, Device.says]

theorem witness_StoredMappingFollowsTheRegisters :
    ∃ t, exec (.mwr 0xFFFF 0x10) (memCfg 0xF0 0x00) = .next t ∧
      t.activeMapping ≠ (memCfg 0xF0 0x00).activeMapping := ⟨_, rfl, by decide⟩

/-- A slot that is subslotted and one that is not. -/
theorem witness_PswSelectsPrimarySlots :
    (memCfg 0 0).flagAt (selectField 0xC0 3) = true ∧ (memCfg 0 0).flagAt (selectField 0xC0 0) = false := by decide

theorem witness_FloatingPortAccess :
    ioCfg.inAt 0x00 = none ∧ ioCfg.inAt 0xFF = none ∧ ioCfg.outAt 0x00 = none ∧ ioCfg.outAt 0xFF = none := by decide

theorem witness_PortDirectionsAreIndependent :
    (∃ t, exec (.iord 0x98) ioCfg = .next t) ∧ (∃ t, exec (.iowr 0x98 0x12) ioCfg = .next t) ∧
    (∃ t, exec (.regin 0x10 2) ioCfg = .next t) ∧ (∃ t, exec (.unregin 0x98 2) ioCfg = .next t) ∧
    (∃ t, exec (.regout 0x11 2) ioCfg = .next t) ∧ ∃ t, exec (.unregout 0x98 3) ioCfg = .next t :=
  ⟨⟨_, rfl⟩, ⟨_, rfl⟩, ⟨_, rfl⟩, ⟨_, rfl⟩, ⟨_, rfl⟩, ⟨_, rfl⟩⟩

/-- The parameters with a bound on irqCount. -/
def bounded (m : Nat) : Config := { resetConfig with irqCountMax := some m }

/-- Unbounded; one below the bound; at the bound; a bound other than 0. -/
theorem witness_IrqupRaisesTheCount :
    State.reset.config.irqCountMax = none ∧
    ((bounded 2).irqCountMax = some 2 ∧ State.irqCount { State.reset with config := bounded 2, irqCount := 1 } < 2) ∧
    2 ≤ State.irqCount { State.reset with config := bounded 2, irqCount := 2 } ∧
    (bounded 1).irqCountMax ≠ some 0 := by decide

theorem witness_IrqdnLowersTheCount :
    State.reset.irqCount = 0 ∧ (State.reset.setIrqCount 1).irqCount ≠ 0 ∧ ∃ t, exec .rst State.reset = .next t :=
  ⟨rfl, by decide, _, rfl⟩

/-- Unbounded, and a bound that N reaches. -/
theorem witness_IrqstReportsTheLine :
    State.reset.irqCount = 0 ∧ (∀ m, State.reset.config.irqCountMax = some m → 3 ≤ m) ∧
    (∀ m, (bounded 3).irqCountMax = some m → 3 ≤ m) := by
  refine ⟨rfl, fun m h => (by cases h), fun m h => ?_⟩
  cases h; exact Nat.le_refl 3

theorem witness_BoundedCounterAbsorbsRaises :
    State.irqCount { State.reset with config := bounded 2 } = 0 ∧ (bounded 2).irqCountMax = some 2 ∧ 2 < 3 := by decide

/-- No bit set, and one bit set. -/
theorem witness_DisciplinedLineIsTheOr :
    State.reset.config.irqCountMax = none ∧
    State.reset.irqCount = (Vector.replicate 255 false : RequestBits).toList.count true ∧
    (State.reset.setIrqCount 1).irqCount = ((Vector.replicate 255 false).set 254 true : RequestBits).toList.count true := by
  decide

theorem witness_RegistrationsLeaveRegistersAndDevices :
    isRegistration (.muxreg 5 0) = true ∧ isRegistration (.unregout 0x98 3) = true ∧
    (∃ t, exec (.muxreg 5 0) (muxCfg 0) = .next t) ∧ ∃ t, exec (.unregout 0x98 3) ioCfg = .next t :=
  ⟨rfl, rfl, ⟨_, rfl⟩, ⟨_, rfl⟩⟩

/-- The highest device index, the lowest and the highest port; a free entry and a taken one. -/
theorem witness_ReginClaimsAPort :
    deviceIndex 0xFE = some 254 ∧ (254 : DevIndex).val < ioCfg.config.nDev ∧ ioCfg.inAt 0x00 = none ∧
    ioCfg.inAt 0xFF = none ∧ ioCfg.inAt 0x98 = some 2 := by decide

theorem witness_RegoutClaimsAPort :
    deviceIndex 0x00 = some 0 ∧ (0 : DevIndex).val < ioCfg.config.nDev ∧ ioCfg.outAt 0x00 = none ∧
    ioCfg.outAt 0xFF = none ∧ ioCfg.outAt 0x98 = some 3 := by decide

theorem witness_RegslotPlacesADevice :
    let s := memCfg 0x00 0x00
    deviceIndex 0xFE = some 254 ∧ (254 : DevIndex).val < s.config.nDev ∧ s.slotAt ⟨0, 0, 3⟩ = none ∧
    s.primary 3 = 0 ∧ s.secondary 3 = 0 ∧ s.slotAt ⟨3, 3, 3⟩ = none ∧ s.slotAt ⟨0, 0, 0⟩ = some 0 := by decide

theorem witness_UnreginReleasesAPort :
    deviceIndex 0x02 = some 2 ∧ (2 : DevIndex).val < ioCfg.config.nDev ∧ ioCfg.inAt 0x98 = some 2 ∧
    ioCfg.inAt 0xFF ≠ some 2 := by decide

theorem witness_UnregoutReleasesAPort :
    deviceIndex 0x03 = some 3 ∧ (3 : DevIndex).val < ioCfg.config.nDev ∧ ioCfg.outAt 0x98 = some 3 ∧
    ioCfg.outAt 0x00 ≠ some 3 := by decide

theorem witness_UnregslotRemovesADevice :
    let s := memCfg 0x00 0x00
    deviceIndex 0x00 = some 0 ∧ (0 : DevIndex).val < s.config.nDev ∧ s.slotAt ⟨0, 0, 0⟩ = some 0 ∧ s.primary 0 = 0 ∧
    s.secondary 0 = 0 ∧ s.slotAt ⟨3, 3, 3⟩ ≠ some 0 := by decide

theorem witness_RejectedRegistrationCannotBeReleased :
    deviceIndex 0x05 = some 5 ∧ (5 : DevIndex).val < State.reset.config.nDev ∧ (2 : DevIndex) ≠ 5 ∧
    ioCfg.inAt 0x98 = some 2 ∧ ioCfg.outAt 0x98 = some 3 ∧ (3 : DevIndex) ≠ 5 ∧
    (memCfg 0 0).slotAt ⟨1, 0, 1⟩ = some 3 := by decide

/-- A free port in each direction, a free coordinate; a free window. -/
theorem witness_MatchedRegistrationLeavesNoTrace :
    claimed.Inv ∧ deviceIndex 0x00 = some 0 ∧ (0 : DevIndex).val < claimed.config.nDev ∧ claimed.inAt 0x00 = none ∧
    claimed.outAt 0xFF = none ∧ claimed.slotAt ⟨3, 3, 3⟩ = none ∧
    (claimed.mux.alive = true ∧ claimed.subAt 0xFF = none ∧
      ∀ i, claimed.inAt (windowPort claimed.config i) = none ∧ claimed.outAt (windowPort claimed.config i) = none) :=
  ⟨inv_claimed, by decide⟩

/-- The other premise of its mux clause, in a state with the invariant: another sub-device is registered. -/
theorem witness_MatchedRegistrationLeavesNoTrace_mux :
    (claimed.setSub 5 (some 0)).Inv ∧ (claimed.setSub 5 (some 0)).mux.alive = true ∧
    (claimed.setSub 5 (some 0)).subAt 9 = none ∧ (claimed.setSub 5 (some 0)).subAt 5 ≠ none := by
  obtain ⟨h1, h2, h3, h4, h5, h6, -, h8⟩ := inv_claimed
  exact ⟨⟨h1, h2, h3, h4, h5, h6, fun h => (by cases h), h8⟩, by decide⟩

/-- The owner's own release of a port in each direction and of a coordinate. -/
theorem witness_OwnersAreNeverDisplaced :
    (∃ t, exec (.unregin 0x98 2) ioCfg = .next t) ∧ ioCfg.inAt 0x98 = some 2 ∧
    (∃ t, exec (.unregout 0x98 3) ioCfg = .next t) ∧ ioCfg.outAt 0x98 = some 3 ∧
    (∃ t, exec (.unregslot 0 0 0 0) (memCfg 0 0) = .next t) ∧ (memCfg 0 0).slotAt ⟨0, 0, 0⟩ = some 0 :=
  ⟨⟨_, rfl⟩, by decide, ⟨_, rfl⟩, by decide, ⟨_, rfl⟩, by decide⟩

/-- Nothing registered; one claim in each table. -/
theorem witness_DestroyNeedsEmptyTables :
    ((∀ c, State.reset.slotAt c = none) ∧ (∀ p, State.reset.inAt p = none) ∧ ∀ p, State.reset.outAt p = none) ∧
    (memCfg 0 0).slotAt ⟨0, 0, 0⟩ ≠ none ∧ ioCfg.inAt 0x98 ≠ none ∧ ioCfg.outAt 0x98 ≠ none := by
  refine ⟨⟨fun c => ?_, fun p => ?_, fun p => ?_⟩, by decide, by decide, by decide⟩
  · simp [State.slotAt, State.reset, State.construction]
  · simp [State.inAt, State.reset, State.construction]
  · simp [State.outAt, State.reset, State.construction]

/-- An operation that appends a record. -/
theorem witness_DiagnosticsAreNeverRead :
    ∃ t, exec (.regin 0x98 3) ioCfg = .next t ∧ t.diagLog = [.dupIn 0x98 2 3] := ⟨_, rfl, by decide⟩

theorem witness_NoneCannotBeRegistered :
    State.reset.mux.alive = true ∧ deviceIndex 0x10 = some 16 ∧
    (State.config { State.reset with config := { resetConfig with nDev := 16 } }).nDev ≤ (16 : DevIndex).val := by decide

/-- A taken id; a table with another entry; an empty table. -/
theorem witness_MuxregClaimsTheWindow :
    (muxCfg 0).mux.alive = true ∧ deviceIndex 0x01 = some 1 ∧ (muxCfg 0).subAt 5 = some 0 ∧
    ((muxCfg 0).subAt 0xFF = none ∧ (muxCfg 0).subAt 9 ≠ none) ∧ ∀ k, State.reset.subAt k = none := by
  refine ⟨by decide, by decide, by decide, by decide, fun k => ?_⟩
  simp [State.subAt, State.reset, State.construction, Mux.reset]

theorem subAt_muxOne (k : Byte) (h : k ≠ 5) : (muxOne 0).subAt k = none := by
  show ((State.reset.setSub 5 (some 0)).setSelector 0).subAt k = none
  have hk : ¬ (5#8 = k) := fun e => h e.symm
  simp [hk]
  simp [State.subAt, State.reset, State.construction, Mux.reset]

/-- An unknown id; another entry left; the last one with the window whole, and with an entry of it another's. -/
theorem witness_MuxunregReleasesTheWindow :
    ((muxCfg 0).mux.alive = true ∧ (muxCfg 0).subAt 0xFF = none) ∧
    ((muxCfg 0).subAt 9 ≠ none ∧ (5 : Byte) ≠ 9 ∧ (muxCfg 0).subAt 5 ≠ none) ∧
    ((muxOne 0).subAt 5 ≠ none ∧ (∀ k, k ≠ 5 → (muxOne 0).subAt k = none)) ∧
    (∀ i, (muxOne 0).inAt (windowPort resetConfig i) = some 0x10 ∧
      (muxOne 0).outAt (windowPort resetConfig i) = some 0x10) ∧
    ((muxOne 0).setIn 0x42 (some 6)).inAt (windowPort resetConfig 2) ≠ some 0x10 := by
  refine ⟨by decide, by decide, ⟨by decide, subAt_muxOne⟩, by decide, by decide⟩

theorem witness_MuxResetClearsTheSelector :
    (muxCfg 0x33).mux.alive = true ∧ (∃ t, exec .rst (muxCfg 0x33) = .next t) ∧
    (muxCfg 0x33).config.muxDev ∈ (muxCfg 0x33).resetOrder := ⟨by decide, ⟨_, rfl⟩, by decide⟩

/-- Offset 0; offset 1 with no sub-device selected; offset 15 with one. -/
theorem witness_MuxWriteSelectsOrForwards :
    ((muxCfg 9).outAt 0x40 = some (muxCfg 9).config.muxDev ∧ (0x40#8).extractLsb' 0 4 = 0#4) ∧
    ((muxCfg 7).outAt 0x41 = some (muxCfg 7).config.muxDev ∧ (0x41#8).extractLsb' 0 4 ≠ 0#4 ∧ (muxCfg 7).subAt 7 = none) ∧
    ((muxCfg 9).outAt 0x4F = some (muxCfg 9).config.muxDev ∧ (0x4F#8).extractLsb' 0 4 ≠ 0#4 ∧
      (muxCfg 9).subAt (muxCfg 9).mux.selector = some 1 ∧
      countAfter (muxCfg 9).config.irqCountMax (((muxCfg 9).subDeviceAt 1).writeIO 1 0x4F 7 0).upcalls 0 = some 0) := by decide

theorem witness_MuxReadForwards :
    ((muxCfg 7).inAt 0x40 = some (muxCfg 7).config.muxDev ∧ (muxCfg 7).subAt (muxCfg 7).mux.selector = none) ∧
    ((muxCfg 9).inAt 0x4F = some (muxCfg 9).config.muxDev ∧ (muxCfg 9).subAt (muxCfg 9).mux.selector = some 1 ∧
      countAfter (muxCfg 9).config.irqCountMax (((muxCfg 9).subDeviceAt 1).readIO 1 0x4F 0).upcalls 0 = some 0) := by decide

theorem witness_MuxDestroyNeedsAnEmptyTable :
    (muxCfg 0).mux.alive = true ∧ (muxCfg 0).subAt 5 ≠ none ∧ State.reset.mux.alive = true ∧
    ∀ id, State.reset.subAt id = none := by
  refine ⟨by decide, by decide, by decide, fun k => ?_⟩
  simp [State.subAt, State.reset, State.construction, Mux.reset]

theorem witness_MuxHasNoMemory :
    (State.reset.setSlot ⟨0, 0, 3⟩ (some 0x10)).intercept 0xFFFF = false ∧
    (State.reset.setSlot ⟨0, 0, 3⟩ (some 0x10)).visible (page 0xFFFF) =
      some (State.reset.setSlot ⟨0, 0, 3⟩ (some 0x10)).config.muxDev := by decide

theorem witness_PeekAgreesWithRead :
    (∃ t, exec (.mrd 0xFFFF) (memCfg 0xC0 0xFF) = .next t) ∧
    (muxCfg 9).inAt 0x40 = some (muxCfg 9).config.muxDev ∧ ∃ t, exec (.iord 0x40) (muxCfg 9) = .next t :=
  ⟨⟨_, rfl⟩, by decide, ⟨_, rfl⟩⟩

/-- An upcall that lowers at 0, IRQDN at 0, and the resets of RST with and without such a lower. -/
theorem witness_UnderflowExactlyWhenALowerFindsZero :
    countAfter none (upcallsOf (.iowr 0xE2 0) (irqCfg false true 0)) 0 = none ∧
    countAfter none (upcallsOf .irqdn State.reset) 0 = none ∧
    ((rstCfg 0).resetOrder.Nodup ∧ countAfter none (upcallsOf .rst (rstCfg 0)) 0 = none) ∧
    countAfter none (upcallsOf .rst (rstCfg 2)) 2 = some 1 := by decide

/-- A trace in time order, with equal times, over a Time that is not TraceTime, whose step calls a device; an
operation that calls none. -/
theorem witness_TimestampsAreCarriedUnchanged :
    let s : State Int := { State.construction (-3) with
      slotLayout := Vector.replicate 64 (some 0), devices := Vector.replicate 255 (.const 0x42),
      pending := [⟨0x00000000, -2⟩, ⟨0x00000000, -2⟩] }
    (∃ t, stepOver s = .next t ∧ t.callLog = [.readMem 0 0x0000 (-2)]) ∧ TimeOrdered s ∧
    callsDevices .irqup = false ∧ ∃ t, perform .irqup s = .next t :=
  ⟨⟨_, rfl, rfl⟩, by unfold TimeOrdered; decide, rfl, _, rfl⟩

end Sys2Proof.Machine.Tests
end

section
/-! SUPPORT. The TimeStamp of an operation: every call an operation makes carries it, and an operation that
calls no device does the same whatever it is (20_memory.md R69, R77; 10_state.md R35). -/

namespace Sys2Proof.Machine

variable {Time : Type}

/-! ## Every call carries the TimeStamp of the operation in progress -/

/-- From `s` to `t` the TimeStamp of the operation in progress stays and every call added to the log carries
it (20_memory.md R69). -/
def CallsCarryNow (s t : State Time) : Prop :=
  t.now = s.now ∧ ∃ calls, t.callLog = s.callLog ++ calls ∧ ∀ c ∈ calls, c.time = s.now

theorem CallsCarryNow.of_callLog_eq {s t : State Time} (hnow : t.now = s.now) (hlog : t.callLog = s.callLog) :
    CallsCarryNow s t :=
  ⟨hnow, [], by simp [hlog], by simp⟩

theorem CallsCarryNow.trans {s t u : State Time} (h : CallsCarryNow s t) (k : CallsCarryNow t u) :
    CallsCarryNow s u := by
  obtain ⟨hnow, cs, hlog, htime⟩ := h
  obtain ⟨know, ds, klog, ktime⟩ := k
  refine ⟨know.trans hnow, cs ++ ds, by rw [klog, hlog, List.append_assoc], fun c hc => ?_⟩
  obtain hc | hc := List.mem_append.mp hc
  · exact htime c hc
  · exact (ktime c hc).trans hnow

theorem CallsCarryNow.logCall {s : State Time} {c : DeviceCall Time} (hc : c.time = s.now) :
    CallsCarryNow s (s.logCall c) :=
  ⟨rfl, [c], rfl, by simpa using hc⟩

theorem CallsCarryNow.setReturned (s : State Time) (r : Returned) : CallsCarryNow s (s.setReturned r) :=
  .of_callLog_eq rfl rfl

/-- Upcalls call no device. -/
theorem runUpcalls_callsCarryNow {us : List Upcall} {s t : State Time} (h : runUpcalls us s = .next t) :
    CallsCarryNow s t := by
  obtain ⟨n, -, h'⟩ | ⟨-, u, h', -⟩ := runUpcalls_cases us s
  · rw [h'] at h; cases h; exact .of_callLog_eq rfl rfl
  · rw [h'] at h; cases h

theorem applyEffect_callsCarryNow {d : DevIndex} {e : Effect Device} {s t : State Time}
    (h : applyEffect d e s = .next t) : CallsCarryNow s t :=
  .trans (t := s.setDevice d e.device) (.of_callLog_eq rfl rfl) (runUpcalls_callsCarryNow h)

theorem applySubEffect_callsCarryNow {j : SubIndex} {e : Effect SubDevice} {s t : State Time}
    (h : applySubEffect j e s = .next t) : CallsCarryNow s t :=
  .trans (t := s.setSubDevice j e.device) (.of_callLog_eq rfl rfl) (runUpcalls_callsCarryNow h)

/-- The shape of every call on a device: the call is logged, its effect applied, its value returned. -/
theorem loggedEffect_callsCarryNow {d : DevIndex} {e : Effect Device} {c : DeviceCall Time} {r : Returned}
    {s t : State Time} (hc : c.time = s.now)
    (h : andThen (applyEffect d e (s.logCall c)) (fun u => .next (u.setReturned r)) = .next t) :
    CallsCarryNow s t := by
  obtain ⟨u, hu, ht⟩ := andThen_eq_next.mp h
  cases ht
  exact .trans (.logCall hc) (.trans (applyEffect_callsCarryNow hu) (.setReturned u r))

/-- The shape of every call on a sub-device. -/
theorem loggedSubEffect_callsCarryNow {j : SubIndex} {e : Effect SubDevice} {c : DeviceCall Time} {r : Returned}
    {s t : State Time} (hc : c.time = s.now)
    (h : andThen (applySubEffect j e (s.logCall c)) (fun u => .next (u.setReturned r)) = .next t) :
    CallsCarryNow s t := by
  obtain ⟨u, hu, ht⟩ := andThen_eq_next.mp h
  cases ht
  exact .trans (.logCall hc) (.trans (applySubEffect_callsCarryNow hu) (.setReturned u r))

section
variable [LinearOrder Time]

theorem muxReadIO_callsCarryNow {p : Port} {s t : State Time} (h : muxReadIO p s = .next t) : CallsCarryNow s t := by
  unfold muxReadIO at h
  split at h
  · exact loggedSubEffect_callsCarryNow rfl h
  · cases h; exact .setReturned s _

theorem muxWriteIO_callsCarryNow {p : Port} {v : Byte} {s t : State Time} (h : muxWriteIO p v s = .next t) :
    CallsCarryNow s t := by
  unfold muxWriteIO at h
  split at h
  · cases h; exact .of_callLog_eq rfl rfl
  · split at h
    · exact loggedSubEffect_callsCarryNow rfl h
    · cases h; exact .setReturned s _

theorem callReadMem_callsCarryNow {d : DevIndex} {a : Addr} {s t : State Time} (h : callReadMem d a s = .next t) :
    CallsCarryNow s t := by
  unfold callReadMem at h
  split at h
  · cases h
  · exact loggedEffect_callsCarryNow rfl h

theorem callWriteMem_callsCarryNow {d : DevIndex} {a : Addr} {v : Byte} {s t : State Time}
    (h : callWriteMem d a v s = .next t) : CallsCarryNow s t := by
  unfold callWriteMem at h
  split at h
  · cases h
  · exact loggedEffect_callsCarryNow rfl h

theorem callReadIO_callsCarryNow {d : DevIndex} {p : Port} {s t : State Time} (h : callReadIO d p s = .next t) :
    CallsCarryNow s t := by
  unfold callReadIO at h
  split at h
  · exact .trans (.logCall rfl) (muxReadIO_callsCarryNow h)
  · exact loggedEffect_callsCarryNow rfl h

theorem callWriteIO_callsCarryNow {d : DevIndex} {p : Port} {v : Byte} {s t : State Time}
    (h : callWriteIO d p v s = .next t) : CallsCarryNow s t := by
  unfold callWriteIO at h
  split at h
  · exact .trans (.logCall rfl) (muxWriteIO_callsCarryNow h)
  · exact loggedEffect_callsCarryNow rfl h

theorem callReset_callsCarryNow {d : DevIndex} {s t : State Time} (h : callReset d s = .next t) :
    CallsCarryNow s t := by
  unfold callReset at h
  split at h
  · cases h
    exact .trans (t := s.logCall _) (.logCall rfl) (.of_callLog_eq rfl rfl)
  · exact .trans (.logCall rfl) (applyEffect_callsCarryNow h)

theorem resetDevices_callsCarryNow {ds : List DevIndex} {s t : State Time} (h : resetDevices ds s = .next t) :
    CallsCarryNow s t := by
  induction ds generalizing s with
  | nil => cases h; exact .of_callLog_eq rfl rfl
  | cons d ds ih =>
    obtain ⟨u, hu, ht⟩ := andThen_eq_next.mp h
    exact .trans (callReset_callsCarryNow hu) (ih ht)

/-- Every operation keeps its TimeStamp and the words still to come. -/
theorem perform_now_pending {i : Instr} {s t : State Time} (h : perform i s = .next t) :
    t.now = s.now ∧ t.pending = s.pending := by
  by_cases hi : role i = .builder
  · rw [perform_builder hi h]; exact ⟨rfl, rfl⟩
  · rw [perform_steady hi h]; exact ⟨rfl, rfl⟩

/-- Every call an operation makes carries the operation's TimeStamp unchanged (R69). -/
theorem perform_callsCarryNow {i : Instr} {s t : State Time} (h : perform i s = .next t) : CallsCarryNow s t := by
  obtain ⟨hnow, -⟩ := perform_now_pending h
  cases i with
  | mrd a =>
    simp only [perform, execMrd] at h
    repeat' split at h
    · cases h; exact .setReturned s _
    · cases h; exact .setReturned s _
    · exact callReadMem_callsCarryNow h
  | mwr a v =>
    simp only [perform, execMwr] at h
    repeat' split at h
    · cases h; exact .of_callLog_eq rfl rfl
    · cases h; exact .setReturned s _
    · exact callWriteMem_callsCarryNow h
  | iord p =>
    simp only [perform, execIord] at h
    split at h
    · cases h; exact .setReturned s _
    · exact callReadIO_callsCarryNow h
  | iowr p v =>
    simp only [perform, execIowr] at h
    split at h
    · cases h; exact .setReturned s _
    · exact callWriteIO_callsCarryNow h
  | rst =>
    obtain ⟨u, hu, ht⟩ := andThen_eq_next.mp h
    cases ht
    exact .trans (resetDevices_callsCarryNow hu) (.of_callLog_eq rfl rfl)
  | irqst | irqup | psw _ => cases h; exact .of_callLog_eq rfl rfl
  | irqdn =>
    obtain ⟨u, hu, ht⟩ := andThen_eq_next.mp h
    cases ht
    exact .trans (runUpcalls_callsCarryNow (us := [.irqDn]) (andThen_eq_next.mpr ⟨u, hu, rfl⟩)) (.setReturned u _)
  | muxrst =>
    simp only [perform, execMuxrst] at h
    obtain ⟨-, h⟩ := withMux_next h
    cases h; exact .of_callLog_eq rfl rfl
  | regslot _ _ _ _ | muxreg _ _ | unregslot _ _ _ _ | muxunreg _ | regin _ _ | regout _ _ | unregin _ _
  | unregout _ _ | destroy | muxdestroy =>
    exact .of_callLog_eq hnow (by rw [perform_builder rfl h])

/-! ## Time order -/

/-- In a sorted list an entry may be replaced by copies of its successor. -/
theorem pairwise_le_replace_by_copies {past calls future : List Time} {now next : Time}
    (h : (past ++ now :: next :: future).Pairwise (· ≤ ·)) (hcalls : ∀ c ∈ calls, c = next) :
    (past ++ calls ++ next :: future).Pairwise (· ≤ ·) := by
  rw [List.eq_replicate_of_mem hcalls, List.append_assoc]
  simp only [List.pairwise_append, List.pairwise_cons, List.mem_append, List.mem_cons, List.mem_replicate,
    List.pairwise_replicate] at h ⊢
  grind

end

/-- A step from a state in time order, whose calls carry the TimeStamp of its word, keeps time order (R77). -/
theorem timeOrdered_of_calls [LinearOrder Time] {s t : State Time} {w : TraceWord Time} {ws : List (TraceWord Time)}
    {calls : List (DeviceCall Time)} (hs : TimeOrdered s) (hpending : s.pending = w :: ws) (hnow : t.now = w.time)
    (hrest : t.pending = ws) (hlog : t.callLog = s.callLog ++ calls) (htime : ∀ c ∈ calls, c.time = w.time) :
    TimeOrdered t := by
  unfold TimeOrdered at hs ⊢
  rw [hpending] at hs
  rw [hlog, hnow, hrest, List.map_append]
  exact pairwise_le_replace_by_copies hs (by simpa using htime)

/-! ## An operation that calls no device ignores the TimeStamp -/

/-- The state `s` at the TimeStamp `n`. -/
def State.withNow (s : State Time) (n : Time) : State Time := { s with now := n }

/-- `run` does the same at every TimeStamp. -/
def IgnoresNow (run : State Time → Result Time) : Prop :=
  ∀ (s t : State Time) (n : Time), run s = .next t → run (s.withNow n) = .next (t.withNow n)

theorem IgnoresNow.finish {f : State Time → State Time} (hf : ∀ s n, f (s.withNow n) = (f s).withNow n) :
    IgnoresNow fun s => finish (f s) := by
  intro s t n h
  cases h
  dsimp only
  rw [finish_eq, hf]; rfl

theorem ignoresNow_finish : IgnoresNow (Time := Time) finish := .finish (f := id) fun _ _ => rfl

theorem IgnoresNow.raiseFatal (c : FatalCode) : IgnoresNow (Time := Time) (raiseFatal c) := by
  intro s t n h; cases h

theorem IgnoresNow.andThen {run k : State Time → Result Time} (hrun : IgnoresNow run) (hk : IgnoresNow k) :
    IgnoresNow fun s => andThen (run s) k := by
  intro s t n h
  obtain ⟨u, hu, ht⟩ := andThen_eq_next.mp h
  exact andThen_eq_next.mpr ⟨_, hrun s u n hu, hk u t n ht⟩

/-- A test that does not read the TimeStamp. -/
theorem IgnoresNow.cond {c : State Time → Bool} {run other : State Time → Result Time}
    (hc : ∀ s n, c (s.withNow n) = c s) (hrun : IgnoresNow run) (hother : IgnoresNow other) :
    IgnoresNow fun s => if c s then run s else other s := by
  intro s t n h
  dsimp only at h ⊢
  rw [hc]
  split <;> rename_i hs
  · exact hrun s t n (by rwa [if_pos hs] at h)
  · exact hother s t n (by rwa [if_neg hs] at h)

theorem IgnoresNow.withMux {k : State Time → Result Time} (hk : IgnoresNow k) : IgnoresNow fun s => withMux s k := by
  intro s t n h
  obtain ⟨halive, h⟩ := withMux_next h
  exact (withMux_of (s := s.withNow n) k halive).trans (hk s t n h)

theorem IgnoresNow.withDevice {d : DevRef} {k : DevIndex → State Time → Result Time} (hk : ∀ i, IgnoresNow (k i)) :
    IgnoresNow fun s => withDevice d s fun i => k i s := by
  intro s t n h
  obtain ⟨i, hi, hn, h⟩ := withDevice_next h
  exact (withDevice_of (s := s.withNow n) _ hi hn).trans (hk i s t n h)

theorem lowerIrq_ignoresNow : IgnoresNow (Time := Time) lowerIrq := by
  intro s t n h
  by_cases h0 : s.irqCount = 0
  · rw [lowerIrq_of_zero h0] at h; cases h
  · rw [lowerIrq_of_pos h0] at h; cases h
    exact lowerIrq_of_pos h0

/-! ### Claims and releases -/

theorem claimIn_withNow (p : Port) (d : DevIndex) (s : State Time) (n : Time) :
    claimIn p d (s.withNow n) = (claimIn p d s).withNow n := by
  cases h : s.inAt p with
  | none => rw [claimIn_free d h, claimIn_free (s := s.withNow n) d h, State.enroll_eq, State.enroll_eq]; rfl
  | some o => rw [claimIn_taken d h, claimIn_taken (s := s.withNow n) d h]; rfl

theorem claimOut_withNow (p : Port) (d : DevIndex) (s : State Time) (n : Time) :
    claimOut p d (s.withNow n) = (claimOut p d s).withNow n := by
  cases h : s.outAt p with
  | none => rw [claimOut_free d h, claimOut_free (s := s.withNow n) d h, State.enroll_eq, State.enroll_eq]; rfl
  | some o => rw [claimOut_taken d h, claimOut_taken (s := s.withNow n) d h]; rfl

theorem claimSlot_withNow (c : Coord) (d : DevIndex) (s : State Time) (n : Time) :
    claimSlot c d (s.withNow n) = (claimSlot c d s).withNow n := by
  cases h : s.slotAt c with
  | none => rw [claimSlot_free d h, claimSlot_free (s := s.withNow n) d h, State.enroll_eq, State.enroll_eq]; rfl
  | some o => rw [claimSlot_taken d h, claimSlot_taken (s := s.withNow n) d h]; rfl

theorem State.strike_withNow (d : DevIndex) (s : State Time) (n : Time) :
    (s.withNow n).strike d = (s.strike d).withNow n := by
  rw [State.strike_eq, State.strike_eq]; rfl

theorem releaseIn_ignoresNow (p : Port) (d : DevIndex) : IgnoresNow (Time := Time) (releaseIn p d) := by
  intro s t n h
  obtain ⟨howner, rfl⟩ := releaseIn_next h
  rw [releaseIn_owner (s := s.withNow n) howner, ← State.strike_withNow]; rfl

theorem releaseOut_ignoresNow (p : Port) (d : DevIndex) : IgnoresNow (Time := Time) (releaseOut p d) := by
  intro s t n h
  obtain ⟨howner, rfl⟩ := releaseOut_next h
  rw [releaseOut_owner (s := s.withNow n) howner, ← State.strike_withNow]; rfl

theorem releaseSlot_ignoresNow (c : Coord) (d : DevIndex) : IgnoresNow (Time := Time) (releaseSlot c d) := by
  intro s t n h
  obtain ⟨howner, rfl⟩ := releaseSlot_next h
  rw [releaseSlot_owner (s := s.withNow n) howner, ← State.strike_withNow]; rfl

/-! ### The mux and its window -/

theorem claimWindowPort_withNow (i : BitVec 4) (s : State Time) (n : Time) :
    claimWindowPort (s.withNow n) i = (claimWindowPort s i).withNow n := by
  unfold claimWindowPort
  rw [claimIn_withNow, claimOut_withNow]; rfl

theorem claimWindowPorts_withNow (is : List (BitVec 4)) (s : State Time) (n : Time) :
    is.foldl claimWindowPort (s.withNow n) = (is.foldl claimWindowPort s).withNow n := by
  induction is generalizing s with
  | nil => rfl
  | cons i is ih => rw [List.foldl_cons, List.foldl_cons, claimWindowPort_withNow, ih]

theorem releasePorts_ignoresNow (is : List (BitVec 4)) : IgnoresNow (Time := Time) (releasePorts is) := by
  induction is with
  | nil => intro s t n h; cases h; rfl
  | cons i is ih =>
    intro s t n h
    obtain ⟨u, hu, h⟩ := andThen_eq_next.mp h
    obtain ⟨v, hv, h⟩ := andThen_eq_next.mp h
    exact andThen_eq_next.mpr ⟨_, releaseIn_ignoresNow _ _ s u n hu,
      andThen_eq_next.mpr ⟨_, releaseOut_ignoresNow _ _ u v n hv, ih v t n h⟩⟩

theorem State.setSub_withNow (id : Byte) (j : Option SubIndex) (s : State Time) (n : Time) :
    (s.withNow n).setSub id j = (s.setSub id j).withNow n := rfl

theorem muxRegister_withNow (id : Byte) (j : SubIndex) (s : State Time) (n : Time) :
    muxRegister id j (s.withNow n) = (muxRegister id j s).withNow n := by
  have hsub : (s.withNow n).subAt id = s.subAt id := rfl
  have hocc : (s.withNow n).muxOccupied = s.muxOccupied := rfl
  unfold muxRegister
  rw [hsub, hocc]
  split
  · rfl
  · split
    · rfl
    · unfold claimWindow
      rw [claimWindowPorts_withNow, State.setSub_withNow]

theorem execMuxreg_ignoresNow (id : Byte) (j : DevRef) : IgnoresNow (Time := Time) (execMuxreg id j) := by
  refine .withMux ?_
  cases deviceIndex j with
  | none => intro s t n h; cases h
  | some j => exact .finish (muxRegister_withNow id j)

/-- What MUXUNREG does once the id is gone from the table: the last one out releases the window (R212, R218). -/
theorem releaseWindowIfEmpty_ignoresNow : IgnoresNow (Time := Time)
    fun s => if s.muxOccupied then finish s else andThen (releaseWindow s) finish :=
  .cond (fun _ _ => rfl) ignoresNow_finish (.andThen (releasePorts_ignoresNow _) ignoresNow_finish)

theorem execMuxunreg_ignoresNow (id : Byte) : IgnoresNow (Time := Time) (execMuxunreg id) := by
  refine .withMux fun s t n h => ?_
  have hsub : (s.withNow n).subAt id = s.subAt id := rfl
  dsimp only at h ⊢
  rw [hsub]
  cases hid : s.subAt id with
  | none => rw [hid] at h; cases h
  | some j => rw [hid] at h; exact releaseWindowIfEmpty_ignoresNow (s.setSub id none) t n h

/-- An operation that calls no device does not depend on the TimeStamp (10_state.md R35). -/
theorem perform_ignoresNow [LinearOrder Time] {i : Instr} (hi : callsDevices i = false) :
    IgnoresNow (Time := Time) (perform i) := by
  cases i with
  | mrd _ | mwr _ _ | iord _ | iowr _ _ | rst => cases hi
  | irqst => intro s t n h; cases h; rfl
  | irqup => exact .finish fun _ _ => rfl
  | irqdn => exact .andThen lowerIrq_ignoresNow ignoresNow_finish
  | psw v => exact .finish fun _ _ => rfl
  | muxrst => exact .withMux (.finish fun _ _ => rfl)
  | regslot ps ss pg d => exact .withDevice fun i => .finish (claimSlot_withNow _ i)
  | regin p d => exact .withDevice fun i => .finish (claimIn_withNow p i)
  | regout p d => exact .withDevice fun i => .finish (claimOut_withNow p i)
  | unregslot ps ss pg d => exact .withDevice fun i => .andThen (releaseSlot_ignoresNow _ i) ignoresNow_finish
  | unregin p d => exact .withDevice fun i => .andThen (releaseIn_ignoresNow p i) ignoresNow_finish
  | unregout p d => exact .withDevice fun i => .andThen (releaseOut_ignoresNow p i) ignoresNow_finish
  | muxreg id j => exact execMuxreg_ignoresNow id j
  | muxunreg id => exact execMuxunreg_ignoresNow id
  | destroy => exact .cond (fun _ _ => rfl) (.raiseFatal _) (.finish fun _ _ => rfl)
  | muxdestroy => exact .withMux (.cond (fun _ _ => rfl) (.raiseFatal _) (.finish fun _ _ => rfl))

/-! ## The obligations -/

/-- Settles O58: the calls of an operation carry the TimeStamp at which its word was issued, so they stand in
time order between those before them and the words to come. -/
theorem timestampsAreCarriedUnchanged : Obligations.TimestampsAreCarriedUnchanged := by
  unfold Obligations.TimestampsAreCarriedUnchanged
  intro Time _
  refine ⟨fun s t w ws hpending h => ?_, fun i s t n hi h => perform_ignoresNow hi s t n h⟩
  obtain ⟨w', ws', i, -, hissued, -, hrun⟩ := runNext_next h
  obtain ⟨rfl, rfl⟩ := List.cons.inj (hpending.symm.trans hissued)
  obtain ⟨hnow, hrest⟩ := perform_now_pending hrun
  obtain ⟨-, calls, hlog, htime⟩ := perform_callsCarryNow hrun
  exact ⟨hnow, hrest, ⟨calls, hlog, htime⟩,
    fun hs => timeOrdered_of_calls hs hpending hnow hrest hlog htime⟩

/-- Settles O59: the two dispatchers agree arm by arm. -/
theorem execIsTheMachineAtTraceTime : Obligations.ExecIsTheMachineAtTraceTime :=
  ⟨exec_eq_perform, step_eq_stepOver, rfl⟩

end Sys2Proof.Machine
end

section
/-! SUPPORT. The frames of the state (10_state.md): what a device call, a steady-state operation and an operation of
the builder can do, each said once, and what follows of it: who writes a register, what every step keeps, how a
fault is recorded, and that nothing reads diagLog. -/

namespace Sys2Proof.Machine

variable {Time : Type}

/-! ## What a device call can do -/

/-- `t` differs from `s` at most in what calling a device writes (10_state.md R39, 20_memory.md R81): device states,
irqCount, PSR and the model's own records; the count stays within its bound and every RAM in canonical form. -/
structure CallEffect (s t : State Time) : Prop where
  frame : t = { s with devices := t.devices, subDevices := t.subDevices, irqCount := t.irqCount, psr := t.psr,
                       callLog := t.callLog, returned := t.returned }
  count : ∀ m, s.config.irqCountMax = some m → s.irqCount ≤ m → t.irqCount ≤ m
  memories : s.memoriesWf → t.memoriesWf

theorem CallEffect.trans {s t u : State Time} (h : CallEffect s t) (k : CallEffect t u) : CallEffect s u where
  frame := by rw [k.frame, h.frame]
  count m hm hs := k.count m (by rw [h.frame]; exact hm) (h.count m hm hs)
  memories hs := k.memories (h.memories hs)

theorem CallEffect.mux_eq {s t : State Time} (h : CallEffect s t) : t.mux = s.mux := by rw [h.frame]

theorem CallEffect.ssr_eq {s t : State Time} (h : CallEffect s t) : t.ssr = s.ssr := by rw [h.frame]

theorem CallEffect.setReturned (s : State Time) (r : Returned) : CallEffect s (s.setReturned r) :=
  ⟨rfl, fun _ _ h => h, fun h => h⟩

theorem CallEffect.logCall (s : State Time) (c : DeviceCall Time) : CallEffect s (s.logCall c) :=
  ⟨rfl, fun _ _ h => h, fun h => h⟩

theorem CallEffect.setSubDevice (s : State Time) (j : SubIndex) (dev : SubDevice) :
    CallEffect s (s.setSubDevice j dev) :=
  ⟨rfl, fun _ _ h => h, fun h => h⟩

theorem CallEffect.setDevice {s : State Time} {d : DevIndex} {dev : Device}
    (hdev : (s.deviceAt d).memoryWf = true → dev.memoryWf = true) : CallEffect s (s.setDevice d dev) := by
  refine ⟨rfl, fun _ _ h => h, fun h e => ?_⟩
  rw [State.deviceAt_setDevice]
  split
  · exact hdev (h d)
  · exact h e

theorem runUpcalls_callEffect {us : List Upcall} {s t : State Time} (h : runUpcalls us s = .next t) :
    CallEffect s t := by
  obtain ⟨n, hn, h'⟩ | ⟨-, u, h', -⟩ := runUpcalls_cases us s
  · rw [h'] at h; cases h
    exact ⟨rfl, fun m hm hs => countAfter_le hm hs hn, fun h => h⟩
  · rw [h'] at h; cases h

theorem applyEffect_callEffect {d : DevIndex} {e : Effect Device} {s t : State Time}
    (he : (s.deviceAt d).memoryWf = true → e.device.memoryWf = true) (h : applyEffect d e s = .next t) :
    CallEffect s t :=
  (CallEffect.setDevice he).trans (runUpcalls_callEffect h)

/-- The shape of every call on a device: the call is logged, its effect applied, its value returned. -/
theorem loggedEffect_callEffect {d : DevIndex} {e : Effect Device} {c : DeviceCall Time} {r : Returned}
    {s t : State Time} (he : (s.deviceAt d).memoryWf = true → e.device.memoryWf = true)
    (h : andThen (applyEffect d e (s.logCall c)) (fun u => .next (u.setReturned r)) = .next t) : CallEffect s t := by
  obtain ⟨u, hu, ht⟩ := andThen_eq_next.mp h
  cases ht
  exact ((CallEffect.logCall s c).trans (applyEffect_callEffect he hu)).trans (.setReturned u r)

/-- The shape of every call on a sub-device. -/
theorem loggedSubEffect_callEffect {j : SubIndex} {e : Effect SubDevice} {c : DeviceCall Time} {r : Returned}
    {s t : State Time}
    (h : andThen (applySubEffect j e (s.logCall c)) (fun u => .next (u.setReturned r)) = .next t) :
    CallEffect s t := by
  obtain ⟨u, hu, ht⟩ := andThen_eq_next.mp h
  cases ht
  exact (((CallEffect.logCall s c).trans (.setSubDevice _ j e.device)).trans (runUpcalls_callEffect hu)).trans
    (.setReturned u r)

/-! ### Every device keeps its RAM canonical (log 4) -/

section
variable [LinearOrder Time]

theorem Device.readMem_memoryWf (dev : Device) (d : DevIndex) (a : Addr) (n : Time) (h : dev.memoryWf = true) :
    (dev.readMem d a n).device.memoryWf = true := by
  cases dev with
  | external st => rfl
  | const _ | ram _ | latch _ | sel _ | irqDev _ | stub _ | rstUp | both => exact h

theorem Device.readIO_memoryWf (dev : Device) (d : DevIndex) (p : Port) (n : Time) (h : dev.memoryWf = true) :
    (dev.readIO d p n).device.memoryWf = true := by
  cases dev with
  | external st => rfl
  | const _ | ram _ | latch _ | sel _ | irqDev _ | stub _ | rstUp | both => exact h

theorem Device.writeMem_memoryWf (dev : Device) (d : DevIndex) (a : Addr) (v : Byte) (n : Time)
    (h : dev.memoryWf = true) : (dev.writeMem d a v n).device.memoryWf = true := by
  cases dev with
  | ram m => exact Memory.write_wf h a v
  | external st => rfl
  | const _ | latch _ | sel _ | irqDev _ | stub _ | rstUp | both => exact h

theorem Device.writeIO_memoryWf (dev : Device) (d : DevIndex) (p : Port) (v : Byte) (n : Time)
    (h : dev.memoryWf = true) : (dev.writeIO d p v n).device.memoryWf = true := by
  cases dev with
  | ram m => exact h
  | const _ | latch _ | sel _ | irqDev _ | stub _ | rstUp | both | external _ => rfl

theorem Device.reset_memoryWf (dev : Device) (d : DevIndex) (n : Time) (h : dev.memoryWf = true) :
    (dev.reset d n).device.memoryWf = true := by
  cases dev with
  | ram m => exact h
  | irqDev p => cases p <;> rfl
  | const _ | latch _ | sel _ | stub _ | rstUp | both | external _ => rfl

/-! ### The calls -/

theorem muxReadIO_callEffect {p : Port} {s t : State Time} (h : muxReadIO p s = .next t) : CallEffect s t := by
  unfold muxReadIO at h
  split at h
  · exact loggedSubEffect_callEffect h
  · cases h; exact .setReturned s _

/-- A write of the mux at another offset than 0 calls the selected sub-device, or none (R214). -/
theorem muxWriteIO_callEffect {p : Port} {v : Byte} {s t : State Time} (hp : windowOffset p ≠ 0)
    (h : muxWriteIO p v s = .next t) : CallEffect s t := by
  unfold muxWriteIO at h
  rw [if_neg hp] at h
  split at h
  · exact loggedSubEffect_callEffect h
  · cases h; exact .setReturned s _

theorem callReadMem_callEffect {d : DevIndex} {a : Addr} {s t : State Time} (h : callReadMem d a s = .next t) :
    CallEffect s t := by
  unfold callReadMem at h
  split at h
  · cases h
  · exact loggedEffect_callEffect (Device.readMem_memoryWf _ d a s.now) h

theorem callWriteMem_callEffect {d : DevIndex} {a : Addr} {v : Byte} {s t : State Time}
    (h : callWriteMem d a v s = .next t) : CallEffect s t := by
  unfold callWriteMem at h
  split at h
  · cases h
  · exact loggedEffect_callEffect (Device.writeMem_memoryWf _ d a v s.now) h

theorem callReadIO_callEffect {d : DevIndex} {p : Port} {s t : State Time} (h : callReadIO d p s = .next t) :
    CallEffect s t := by
  unfold callReadIO at h
  split at h
  · exact (CallEffect.logCall s _).trans (muxReadIO_callEffect h)
  · exact loggedEffect_callEffect (Device.readIO_memoryWf _ d p s.now) h

/-- A port write either sets the selector of the mux or is a call (R214). -/
theorem callWriteIO_cases {d : DevIndex} {p : Port} {v : Byte} {s t : State Time} (h : callWriteIO d p v s = .next t) :
    (d = s.config.muxDev ∧ windowOffset p = 0 ∧
      t = ((s.logCall (.writeIO d p v s.now)).setSelector v).setReturned .nothing) ∨
    CallEffect s t := by
  unfold callWriteIO at h
  split at h
  · by_cases hp : windowOffset p = 0
    · rw [muxWriteIO, if_pos hp] at h
      cases h
      exact .inl ⟨‹_›, hp, rfl⟩
    · exact .inr ((CallEffect.logCall s _).trans (muxWriteIO_callEffect hp h))
  · exact .inr (loggedEffect_callEffect (Device.writeIO_memoryWf _ d p v s.now) h)

/-- A reset of a device either clears the selector of the mux or is a call (R285, R213). -/
theorem callReset_cases {d : DevIndex} {s t : State Time} (h : callReset d s = .next t) :
    (d = s.config.muxDev ∧ t = muxReset (s.logCall (.reset d s.now))) ∨ CallEffect s t := by
  unfold callReset at h
  split at h
  · cases h; exact .inl ⟨‹_›, rfl⟩
  · exact .inr ((CallEffect.logCall s _).trans (applyEffect_callEffect (Device.reset_memoryWf _ d s.now) h))

end

/-! ## What an operation that is not the builder's can do -/

/-- `SteadyStep s i t`: the operation `i` of the driver, of a device or of the bus takes `s` to `t`, one constructor
per way to complete (60_exceptions.md R270). -/
inductive SteadyStep [LinearOrder Time] (s : State Time) : Instr → State Time → Prop where
  /-- An access that calls a device or a sub-device, or floats (40_memory_access.md, 42_io_access.md). -/
  | access {i : Instr} {t : State Time} (hi : callsDevices i = true) (effect : CallEffect s t) : SteadyStep s i t
  /-- An intercepted write (R121). -/
  | selectSecondary {addr : Addr} (v : Byte) (hintercept : s.intercept addr = true) :
      SteadyStep s (.mwr addr v) ((s.setSsr s.primary3 v).setReturned .nothing)
  /-- A write at offset 0 of a port of the mux (R214). -/
  | selectSub {port : Port} (v : Byte) (howner : s.outAt port = some s.config.muxDev) (hoffset : windowOffset port = 0) :
      SteadyStep s (.iowr port v)
        (((s.logCall (.writeIO s.config.muxDev port v s.now)).setSelector v).setReturned .nothing)
  /-- RST, with `u` the state in which every device has been reset (R285). -/
  | reset {u : State Time} (hdevices : resetDevices s.resetOrder s = .next u) :
      SteadyStep s .rst ((clearRegisters u).setReturned .nothing)
  /-- IRQST (R172). -/
  | status : SteadyStep s .irqst (s.setReturned (.bool s.irq))
  /-- IRQUP (R170). -/
  | raise : SteadyStep s .irqup ((raiseIrq s).setReturned .nothing)
  /-- IRQDN above 0 (R171). -/
  | lower (hcount : s.irqCount ≠ 0) : SteadyStep s .irqdn ((s.setIrqCount (s.irqCount - 1)).setReturned .nothing)
  /-- PSW (R140). -/
  | selectPrimary (v : Byte) : SteadyStep s (.psw v) ((s.setPsr v).setReturned .nothing)
  /-- MUXRST (R213). -/
  | muxReset : SteadyStep s .muxrst ((muxReset s).setReturned .nothing)

/-- Every operation that is not the builder's completes in one of these ways. -/
theorem perform_steadyStep [LinearOrder Time] {i : Instr} {s t : State Time} (hi : role i ≠ .builder)
    (h : perform i s = .next t) : SteadyStep s i t := by
  cases i with
  | mrd a =>
    simp only [perform, execMrd] at h
    repeat' split at h
    · cases h; exact .access rfl (.setReturned s _)
    · cases h; exact .access rfl (.setReturned s _)
    · exact .access rfl (callReadMem_callEffect h)
  | mwr a v =>
    simp only [perform, execMwr] at h
    repeat' split at h
    · cases h; exact .selectSecondary v ‹_›
    · cases h; exact .access rfl (.setReturned s _)
    · exact .access rfl (callWriteMem_callEffect h)
  | iord p =>
    simp only [perform, execIord] at h
    split at h
    · cases h; exact .access rfl (.setReturned s _)
    · exact .access rfl (callReadIO_callEffect h)
  | iowr p v =>
    simp only [perform, execIowr] at h
    split at h
    · cases h; exact .access rfl (.setReturned s _)
    · rename_i d howner
      obtain ⟨rfl, hoffset, rfl⟩ | effect := callWriteIO_cases h
      · exact .selectSub v howner hoffset
      · exact .access rfl effect
  | irqst => cases h; exact .status
  | irqup => cases h; exact .raise
  | irqdn =>
    obtain ⟨u, hu, ht⟩ := andThen_eq_next.mp h
    cases ht
    by_cases hcount : s.irqCount = 0
    · rw [lowerIrq_of_zero hcount] at hu; cases hu
    · rw [lowerIrq_of_pos hcount] at hu; cases hu; exact .lower hcount
  | psw v => cases h; exact .selectPrimary v
  | rst =>
    obtain ⟨u, hu, ht⟩ := andThen_eq_next.mp h
    cases ht
    exact .reset hu
  | muxrst =>
    simp only [perform, execMuxrst] at h
    obtain ⟨-, h⟩ := withMux_next h
    cases h; exact .muxReset
  | regslot _ _ _ _ | muxreg _ _ | unregslot _ _ _ _ | muxunreg _ | regin _ _ | regout _ _ | unregin _ _
  | unregout _ _ | destroy | muxdestroy => exact absurd rfl hi

/-! ## Who writes the registers -/

section
variable [LinearOrder Time]

/-- Only RST and an intercepted write reach an SSR, the latter that of `primary(3)` alone (R25, R294). -/
theorem SteadyStep.ssr_writer {i : Instr} {s t : State Time} (h : SteadyStep s i t) (hne : t.ssr ≠ s.ssr) :
    i = .rst ∨ ∃ addr v, i = .mwr addr v ∧ s.intercept addr = true ∧ ∀ ps, ps ≠ s.primary 3#2 → t.ssrAt ps = s.ssrAt ps := by
  cases h with
  | access _ effect => exact absurd effect.ssr_eq hne
  | selectSecondary v hintercept =>
    refine .inr ⟨_, v, rfl, hintercept, fun ps hps => ?_⟩
    rw [State.setReturned_ssrAt, State.ssrAt_setSsr]
    exact if_neg (Ne.symm hps)
  | reset => exact .inl rfl
  | selectSub | status | raise | lower | selectPrimary | muxReset => exact absurd rfl hne

/-- Only PSW and the operations that call devices reach PSR (R24, R81). -/
theorem SteadyStep.psr_writer {i : Instr} {s t : State Time} (h : SteadyStep s i t) (hne : t.psr ≠ s.psr) :
    (∃ v, i = .psw v) ∨ callsDevices i = true := by
  cases h with
  | selectPrimary v => exact .inl ⟨v, rfl⟩
  | access hi _ => exact .inr hi
  | selectSecondary | selectSub | reset => exact .inr rfl
  | status | raise | lower | muxReset => exact absurd rfl hne

/-- Only IRQUP, IRQDN and the operations that call devices reach irqCount (R30, R81). -/
theorem SteadyStep.irqCount_writer {i : Instr} {s t : State Time} (h : SteadyStep s i t)
    (hne : t.irqCount ≠ s.irqCount) : i = .irqup ∨ i = .irqdn ∨ callsDevices i = true := by
  cases h with
  | raise => exact .inl rfl
  | lower => exact .inr (.inl rfl)
  | access hi _ => exact .inr (.inr hi)
  | selectSecondary | selectSub | reset => exact .inr (.inr rfl)
  | status | selectPrimary | muxReset => exact absurd rfl hne

/-- Only the resets of the mux and a write at offset 0 of a port it owns reach its selector (R213, R214). -/
theorem SteadyStep.selector_writer {i : Instr} {s t : State Time} (h : SteadyStep s i t)
    (hne : t.mux.selector ≠ s.mux.selector) : i = .muxrst ∨ i = .rst ∨
      ∃ port v, i = .iowr port v ∧ s.outAt port = some s.config.muxDev ∧ port.extractLsb' 0 4 = 0#4 ∧
        t.mux.selector = v := by
  cases h with
  | access _ effect => exact absurd (by rw [effect.mux_eq]) hne
  | selectSub v howner hoffset => exact .inr (.inr ⟨_, v, rfl, howner, hoffset, rfl⟩)
  | reset => exact .inr (.inl rfl)
  | muxReset => exact .inl rfl
  | selectSecondary | status | raise | lower | selectPrimary => exact absurd rfl hne

/-- No operation writes the straps or the parameters (R23, R5). -/
theorem perform_straps {i : Instr} {s t : State Time} (h : perform i s = .next t) :
    t.subslotFlag = s.subslotFlag ∧ t.config = s.config := by
  by_cases hi : role i = .builder
  · rw [perform_builder hi h]; exact ⟨rfl, rfl⟩
  · rw [perform_steady hi h]; exact ⟨rfl, rfl⟩

end

/-- Settles O12: a step runs one operation, whose frame holds the straps and the parameters. -/
theorem strapsAndParametersNeverChange : Obligations.StrapsAndParametersNeverChange := by
  unfold Obligations.StrapsAndParametersNeverChange
  intro s t h
  obtain ⟨w, rest, i, -, -, -, hrun⟩ := runNext_next h
  rw [exec_eq_perform] at hrun
  have straps := perform_straps hrun
  exact straps

/-- Settles O23: the frame of an operation that is not the builder's holds every table, the straps, ResetOrder,
diagLog and both `alive` flags. -/
theorem onlyTheBuilderWritesTables : Obligations.OnlyTheBuilderWritesTables := by
  unfold Obligations.OnlyTheBuilderWritesTables
  intro i s t hi h
  rw [exec_steady hi h]
  exact ⟨rfl, rfl, rfl, rfl, rfl, rfl, rfl, rfl, rfl, rfl⟩

/-- Settles O24: the builder writes no register, and each other operation only those of its way to complete. -/
theorem registersHaveFewWriters : Obligations.RegistersHaveFewWriters := by
  unfold Obligations.RegistersHaveFewWriters
  intro i s t h
  by_cases hi : role i = .builder
  · rw [exec_builder hi h]
    exact ⟨absurd rfl, absurd rfl, absurd rfl, absurd rfl⟩
  · have step := perform_steadyStep hi (exec_eq_perform i s ▸ h)
    exact ⟨step.ssr_writer, step.psr_writer, step.irqCount_writer, step.selector_writer⟩

/-! ## What an operation of the builder can do -/

/-- One elementary write of the builder, other than that of DESTROY: a claim by a device of the machine, a release by
the owner, an entry of the mux's table while the mux exists, the end of an empty mux (44_configuration.md,
45_switched_mux.md). That a window port is claimed by a device of the machine rests on the parameters. -/
inductive BuilderMove (s : State Time) : State Time → Prop where
  | claimIn {d : DevIndex} (port : Port) (hd : s.config.wf = true → d.val < s.config.nDev) :
      BuilderMove s (claimIn port d s)
  | claimOut {d : DevIndex} (port : Port) (hd : s.config.wf = true → d.val < s.config.nDev) :
      BuilderMove s (claimOut port d s)
  | claimSlot {d : DevIndex} (c : Coord) (hd : s.config.wf = true → d.val < s.config.nDev) :
      BuilderMove s (claimSlot c d s)
  | releaseIn {d : DevIndex} (port : Port) (howner : s.inAt port = some d) :
      BuilderMove s ((s.setIn port none).strike d)
  | releaseOut {d : DevIndex} (port : Port) (howner : s.outAt port = some d) :
      BuilderMove s ((s.setOut port none).strike d)
  | releaseSlot {d : DevIndex} (c : Coord) (howner : s.slotAt c = some d) :
      BuilderMove s ((s.setSlot c none).strike d)
  | setSub (id : Byte) (j : Option SubIndex) (hmux : s.mux.alive = true) : BuilderMove s (s.setSub id j)
  | reportSub (id : Byte) (owner rejected : SubIndex) : BuilderMove s (s.logDiag (.dupMuxId id owner rejected))
  | endMux (hempty : s.muxOccupied = false) : BuilderMove s (s.setMuxAlive false)
  | returned (r : Returned) : BuilderMove s (s.setReturned r)

/-- The writes of one operation of the builder. -/
abbrev BuilderMoves (s t : State Time) : Prop := Relation.ReflTransGen BuilderMove s t

theorem BuilderMove.moves {s t : State Time} (h : BuilderMove s t) : BuilderMoves s t := .single h

theorem BuilderMoves.finish {s t : State Time} (h : BuilderMoves s t) : BuilderMoves s (t.setReturned .nothing) :=
  h.tail (.returned _)

theorem claimWindowPort_moves (s : State Time) (i : BitVec 4) : BuilderMoves s (claimWindowPort s i) := by
  have hmux : ∀ u : State Time, u.config.wf = true → u.config.muxDev.val < u.config.nDev := fun u hu => by
    simp only [Config.wf, Bool.and_eq_true, decide_eq_true_eq] at hu
    exact hu.2
  refine .tail (.single (.claimIn (windowPort s.config i) (hmux s))) (.claimOut (windowPort s.config i) ?_)
  rw [claimIn_frame]
  exact hmux s

theorem claimWindowPorts_moves (is : List (BitVec 4)) (s : State Time) : BuilderMoves s (is.foldl claimWindowPort s) := by
  induction is generalizing s with
  | nil => exact .refl
  | cons i is ih => exact (claimWindowPort_moves s i).trans (ih _)

theorem releasePorts_moves {is : List (BitVec 4)} {s t : State Time} (h : releasePorts is s = .next t) :
    BuilderMoves s t := by
  induction is generalizing s with
  | nil => cases h; exact .refl
  | cons i is ih =>
    obtain ⟨u, hu, h⟩ := andThen_eq_next.mp h
    obtain ⟨v, hv, h⟩ := andThen_eq_next.mp h
    obtain ⟨hin, rfl⟩ := releaseIn_next hu
    obtain ⟨hout, rfl⟩ := releaseOut_next hv
    exact .head (.releaseIn _ hin) (.head (.releaseOut _ hout) (ih h))

/-- A registration with the mux: a report, or the claims of the window if it is the first and then the entry (R211). -/
theorem muxRegister_moves {id : Byte} {j : SubIndex} {s : State Time} (hmux : s.mux.alive = true) :
    BuilderMoves s (muxRegister id j s) := by
  unfold muxRegister
  split
  · exact .single (.reportSub ..)
  · split
    · exact .single (.setSub id (some j) hmux)
    · exact (claimWindowPorts_moves windowOffsets s).tail (.setSub id (some j) (by rw [claimWindowPorts_frame]; exact hmux))

/-- Every operation of the builder but DESTROY is a sequence of these writes. -/
theorem perform_builderMoves [LinearOrder Time] {i : Instr} {s t : State Time} (hi : role i = .builder)
    (hdestroy : i ≠ .destroy) (h : perform i s = .next t) : BuilderMoves s t := by
  cases i with
  | regslot ps ss pg d =>
    obtain ⟨i, -, hn, h⟩ := withDevice_next h
    cases h; exact (BuilderMove.claimSlot _ fun _ => hn).moves.finish
  | regin p d =>
    obtain ⟨i, -, hn, h⟩ := withDevice_next h
    cases h; exact (BuilderMove.claimIn p fun _ => hn).moves.finish
  | regout p d =>
    obtain ⟨i, -, hn, h⟩ := withDevice_next h
    cases h; exact (BuilderMove.claimOut p fun _ => hn).moves.finish
  | unregslot ps ss pg d =>
    obtain ⟨i, -, -, h⟩ := withDevice_next h
    obtain ⟨u, hu, ht⟩ := andThen_eq_next.mp h
    obtain ⟨howner, rfl⟩ := releaseSlot_next hu
    cases ht; exact (BuilderMove.releaseSlot _ howner).moves.finish
  | unregin p d =>
    obtain ⟨i, -, -, h⟩ := withDevice_next h
    obtain ⟨u, hu, ht⟩ := andThen_eq_next.mp h
    obtain ⟨howner, rfl⟩ := releaseIn_next hu
    cases ht; exact (BuilderMove.releaseIn _ howner).moves.finish
  | unregout p d =>
    obtain ⟨i, -, -, h⟩ := withDevice_next h
    obtain ⟨u, hu, ht⟩ := andThen_eq_next.mp h
    obtain ⟨howner, rfl⟩ := releaseOut_next hu
    cases ht; exact (BuilderMove.releaseOut _ howner).moves.finish
  | muxreg id j =>
    simp only [perform, execMuxreg] at h
    obtain ⟨hmux, h⟩ := withMux_next h
    split at h
    · cases h
    · cases h; exact (muxRegister_moves hmux).finish
  | muxunreg id =>
    simp only [perform, execMuxunreg] at h
    obtain ⟨hmux, h⟩ := withMux_next h
    have hremove := (BuilderMove.setSub id none hmux).moves
    repeat' split at h
    · cases h
    · cases h; exact hremove.finish
    · obtain ⟨u, hu, ht⟩ := andThen_eq_next.mp h
      cases ht; exact BuilderMoves.finish (hremove.trans (releasePorts_moves hu))
  | muxdestroy =>
    simp only [perform, execMuxdestroy] at h
    obtain ⟨-, h⟩ := withMux_next h
    split at h
    · cases h
    · cases h; exact (BuilderMove.endMux (Bool.eq_false_of_not_eq_true ‹_›)).moves.finish
  | destroy => exact absurd rfl hdestroy
  | mrd _ | mwr _ _ | iord _ | iowr _ _ | irqst | irqup | irqdn | psw _ | rst | muxrst => cases hi

theorem BuilderMove.alive_eq {s t : State Time} (h : BuilderMove s t) : t.alive = s.alive := by
  cases h with
  | claimIn => rw [claimIn_frame]
  | claimOut => rw [claimOut_frame]
  | claimSlot => rw [claimSlot_frame]
  | releaseIn | releaseOut | releaseSlot => rw [State.strike_eq]; rfl
  | setSub | reportSub | endMux | returned => rfl

theorem BuilderMoves.alive_eq {s t : State Time} (h : BuilderMoves s t) : t.alive = s.alive := by
  induction h with
  | refl => rfl
  | tail _ move ih => exact move.alive_eq.trans ih

/-! ## The invariant of the block -/

/-- The invariant does not speak of the registers PSR and `selector`, of diagLog, `alive` and `fault`, nor of the
model's own records. -/
theorem State.Inv.of_frame {s t : State Time} (h : s.Inv)
    (ht : t = { s with psr := t.psr, diagLog := t.diagLog, alive := t.alive, fault := t.fault,
                       subDevices := t.subDevices, mux := { s.mux with selector := t.mux.selector }, now := t.now,
                       pending := t.pending, returned := t.returned, callLog := t.callLog }) : t.Inv := by
  rw [ht]
  exact ⟨h.config, h.irqBound, h.plainSsr, h.resetNodup, h.resetOwners, h.ownersExist, h.muxGone, h.memories⟩

theorem CallEffect.inv {s t : State Time} (effect : CallEffect s t) (h : s.Inv) : t.Inv := by
  have hcount : ∀ m, s.config.irqCountMax = some m → t.irqCount ≤ m := fun m hm => effect.count m hm (h.irqBound m hm)
  have hmem := effect.memories h.memories
  rw [effect.frame]
  exact ⟨h.config, hcount, h.plainSsr, h.resetNodup, h.resetOwners, h.ownersExist, h.muxGone, hmem⟩

theorem State.Inv.setIrqCount {s : State Time} (h : s.Inv) {n : Nat} (hn : ∀ m, s.config.irqCountMax = some m → n ≤ m) :
    (s.setIrqCount n).Inv :=
  ⟨h.config, hn, h.plainSsr, h.resetNodup, h.resetOwners, h.ownersExist, h.muxGone, h.memories⟩

/-- An SSR may be written where the slot is subslotted, and zeroed anywhere (R28). -/
theorem State.Inv.setSsr {s : State Time} (h : s.Inv) {ps : Quarter} (v : Byte) (hps : s.flagAt ps = true) :
    (s.setSsr ps v).Inv := by
  refine ⟨h.config, h.irqBound, fun q hq => ?_, h.resetNodup, h.resetOwners, h.ownersExist, h.muxGone, h.memories⟩
  rw [State.setSsr_flagAt] at hq
  have hne : ps ≠ q := fun e => by rw [← e, hps] at hq; cases hq
  rw [State.ssrAt_setSsr, if_neg hne]
  exact h.plainSsr q hq

theorem State.Inv.clearSsr {s : State Time} (h : s.Inv) : s.clearSsr.Inv :=
  ⟨h.config, h.irqBound, fun q _ => s.ssrAt_clearSsr q, h.resetNodup, h.resetOwners, h.ownersExist, h.muxGone,
    h.memories⟩

/-! ### Claims and releases -/

/-- After a write of the tables and ResetOrder the invariant is what it says of them (R193, R197). -/
theorem State.Inv.of_tables {s t : State Time} (h : s.Inv)
    (ht : t = { s with slotLayout := t.slotLayout, ioIn := t.ioIn, ioOut := t.ioOut, resetOrder := t.resetOrder })
    (hnodup : t.resetOrder.Nodup) (howners : ∀ e, e ∈ t.resetOrder ↔ t.owns e ≠ 0)
    (hexist : ∀ e, t.owns e ≠ 0 → e.val < s.config.nDev) : t.Inv := by
  rw [ht]
  exact ⟨h.config, h.irqBound, h.plainSsr, hnodup, howners, hexist, h.muxGone, h.memories⟩

/-! ResetOrder apart, enrolling and striking a device leave the claims as they are. -/

@[simp] theorem State.enroll_inAt (s : State Time) (d : DevIndex) (p : Port) : (s.enroll d).inAt p = s.inAt p := by
  rw [State.enroll_eq]; rfl

@[simp] theorem State.enroll_outAt (s : State Time) (d : DevIndex) (p : Port) : (s.enroll d).outAt p = s.outAt p := by
  rw [State.enroll_eq]; rfl

@[simp] theorem State.enroll_slotAt (s : State Time) (d : DevIndex) (c : Coord) : (s.enroll d).slotAt c = s.slotAt c := by
  rw [State.enroll_eq]; rfl

@[simp] theorem State.enroll_owns (s : State Time) (d e : DevIndex) : (s.enroll d).owns e = s.owns e := by
  rw [State.enroll_eq, State.setResetOrder_owns]

@[simp] theorem State.strike_owns (s : State Time) (d e : DevIndex) : (s.strike d).owns e = s.owns e := by
  rw [State.strike_eq, State.setResetOrder_owns]

/-- A device of the machine takes one more claim, and was enrolled if it is its first (R193). -/
theorem State.Inv.of_claim {s t : State Time} {d : DevIndex} (h : s.Inv) (hd : d.val < s.config.nDev)
    (ht : t = { s.enroll d with slotLayout := t.slotLayout, ioIn := t.ioIn, ioOut := t.ioOut })
    (howns : ∀ e, t.owns e = s.owns e + if d = e then 1 else 0) : t.Inv := by
  have hmem : ∀ e, e ∈ t.resetOrder ↔ e ∈ s.resetOrder ∨ d = e := by
    intro e
    rw [ht, State.enroll_eq]
    dsimp only [State.setResetOrder_resetOrder]
    split
    · simp [eq_comm]
    · exact ⟨.inl, fun he => he.elim id fun hde => hde ▸ (h.resetOwners d).mpr ‹_›⟩
  have hnodup : t.resetOrder.Nodup := by
    rw [ht, State.enroll_eq]
    dsimp only [State.setResetOrder_resetOrder]
    split
    · exact List.concat_eq_append ▸ h.resetNodup.concat fun hin => (h.resetOwners d).mp hin ‹_›
    · exact h.resetNodup
  refine h.of_tables (by rw [ht, State.enroll_eq]; rfl) hnodup (fun e => ?_) fun e he => ?_
  · rw [hmem, h.resetOwners, howns]
    by_cases hde : d = e <;> simp [hde]
  · rw [howns] at he
    by_cases hde : d = e
    · exact hde ▸ hd
    · rw [if_neg hde] at he; exact h.ownersExist e he

/-- A device gives back one claim, and is struck off if it was its last (R193). -/
theorem State.Inv.of_release {s u : State Time} {d : DevIndex} (h : s.Inv)
    (hu : u = { s with slotLayout := u.slotLayout, ioIn := u.ioIn, ioOut := u.ioOut })
    (howns : ∀ e, u.owns e + (if d = e then 1 else 0) = s.owns e) : (u.strike d).Inv := by
  have horder : u.resetOrder = s.resetOrder := by rw [hu]
  have hother : ∀ e, d ≠ e → u.owns e = s.owns e := fun e hde => by simpa [hde] using howns e
  have hmem : ∀ e, e ∈ (u.strike d).resetOrder ↔ u.owns e ≠ 0 := by
    intro e
    rw [State.strike_eq, State.setResetOrder_resetOrder, horder]
    by_cases hde : d = e
    · subst hde
      split <;> rename_i h0
      · simp [h0]
      · have := howns d
        rw [h.resetOwners, ← this, if_pos rfl]; omega
    · rw [hother e hde, ← h.resetOwners]
      split
      · simp [Ne.symm hde]
      · rfl
  have hnodup : (u.strike d).resetOrder.Nodup := by
    rw [State.strike_eq, State.setResetOrder_resetOrder, horder]
    split
    · exact h.resetNodup.filter _
    · exact h.resetNodup
  refine h.of_tables (by rw [State.strike_eq, hu]; rfl) hnodup (fun e => by rw [hmem, State.strike_owns]) fun e he => ?_
  rw [State.strike_owns] at he
  have := howns e
  exact h.ownersExist e (by omega)

theorem State.Inv.claimIn {s : State Time} {d : DevIndex} (h : s.Inv) (port : Port) (hd : d.val < s.config.nDev) :
    (claimIn port d s).Inv := by
  cases hport : s.inAt port with
  | some o => rw [claimIn_taken d hport]; exact h.of_frame rfl
  | none =>
    rw [claimIn_free d hport]
    refine h.of_claim hd rfl fun e => ?_
    simpa [hport] using (s.enroll d).owns_setIn port (some d) e

theorem State.Inv.claimOut {s : State Time} {d : DevIndex} (h : s.Inv) (port : Port) (hd : d.val < s.config.nDev) :
    (claimOut port d s).Inv := by
  cases hport : s.outAt port with
  | some o => rw [claimOut_taken d hport]; exact h.of_frame rfl
  | none =>
    rw [claimOut_free d hport]
    refine h.of_claim hd rfl fun e => ?_
    simpa [hport] using (s.enroll d).owns_setOut port (some d) e

theorem State.Inv.claimSlot {s : State Time} {d : DevIndex} (h : s.Inv) (c : Coord) (hd : d.val < s.config.nDev) :
    (claimSlot c d s).Inv := by
  cases hslot : s.slotAt c with
  | some o => rw [claimSlot_taken d hslot]; exact h.of_frame rfl
  | none =>
    rw [claimSlot_free d hslot]
    refine h.of_claim hd rfl fun e => ?_
    simpa [hslot] using (s.enroll d).owns_setSlot c (some d) e

/-- While the mux exists any entry of its table may be written (R219). -/
theorem State.Inv.setSub {s : State Time} (h : s.Inv) (id : Byte) (j : Option SubIndex) (hmux : s.mux.alive = true) :
    (s.setSub id j).Inv :=
  ⟨h.config, h.irqBound, h.plainSsr, h.resetNodup, h.resetOwners, h.ownersExist,
    fun (hgone : s.mux.alive = false) => (by rw [hmux] at hgone; cases hgone), h.memories⟩

/-- A mux without a sub-device may cease to exist (R219). -/
theorem State.Inv.endMux {s : State Time} (h : s.Inv) (hempty : s.muxOccupied = false) : (s.setMuxAlive false).Inv := by
  refine ⟨h.config, h.irqBound, h.plainSsr, h.resetNodup, h.resetOwners, h.ownersExist, fun _ id => ?_, h.memories⟩
  by_contra hid
  exact Bool.false_ne_true (hempty.symm.trans (s.muxOccupied_iff.mpr ⟨id, hid⟩))

/-! ### Every step keeps the invariant -/

theorem BuilderMove.inv {s t : State Time} (move : BuilderMove s t) (h : s.Inv) : t.Inv := by
  cases move with
  | claimIn port hd => exact h.claimIn port (hd h.config)
  | claimOut port hd => exact h.claimOut port (hd h.config)
  | claimSlot c hd => exact h.claimSlot c (hd h.config)
  | releaseIn port howner => exact h.of_release rfl fun e => by simpa [howner] using s.owns_setIn port none e
  | releaseOut port howner => exact h.of_release rfl fun e => by simpa [howner] using s.owns_setOut port none e
  | releaseSlot c howner => exact h.of_release rfl fun e => by simpa [howner] using s.owns_setSlot c none e
  | setSub id j hmux => exact h.setSub id j hmux
  | endMux hempty => exact h.endMux hempty
  | reportSub | returned => exact h.of_frame rfl

theorem BuilderMoves.inv {s t : State Time} (moves : BuilderMoves s t) (h : s.Inv) : t.Inv := by
  induction moves with
  | refl => exact h
  | tail _ move ih => exact move.inv ih

section
variable [LinearOrder Time]

theorem resetDevices_inv {ds : List DevIndex} {s t : State Time} (hrun : resetDevices ds s = .next t) (h : s.Inv) :
    t.Inv := by
  induction ds generalizing s with
  | nil => cases hrun; exact h
  | cons d ds ih =>
    obtain ⟨u, hu, ht⟩ := andThen_eq_next.mp hrun
    obtain ⟨-, rfl⟩ | effect := callReset_cases hu
    · exact ih ht (h.of_frame rfl)
    · exact ih ht (effect.inv h)

theorem SteadyStep.inv {i : Instr} {s t : State Time} (step : SteadyStep s i t) (h : s.Inv) : t.Inv := by
  cases step with
  | access _ effect => exact effect.inv h
  | selectSecondary v hintercept =>
    simp only [State.intercept, Bool.and_eq_true] at hintercept
    exact (h.setSsr v hintercept.2).of_frame rfl
  | reset hdevices =>
    have hcount := (resetDevices_inv hdevices h).setIrqCount (n := 0) fun _ _ => Nat.zero_le _
    have hpsr := hcount.of_frame (t := State.setPsr _ Config.selectDefault) rfl
    exact hpsr.clearSsr.of_frame rfl
  | raise => exact (h.setIrqCount fun m hm => raisedCount_le hm (h.irqBound m hm)).of_frame rfl
  | lower => exact (h.setIrqCount fun m hm => (Nat.sub_le _ 1).trans (h.irqBound m hm)).of_frame rfl
  | selectSub | status | selectPrimary | muxReset => exact h.of_frame rfl

theorem perform_destroy_next {s t : State Time} (h : perform .destroy s = .next t) :
    t = (s.setAlive false).setReturned .nothing := by
  simp only [perform, execDestroy] at h
  split at h <;> cases h
  rfl

theorem perform_inv {i : Instr} {s t : State Time} (hrun : perform i s = .next t) (h : s.Inv) : t.Inv := by
  by_cases hi : role i = .builder
  · by_cases hdestroy : i = .destroy
    · subst hdestroy
      rw [perform_destroy_next hrun]
      exact h.of_frame rfl
    · exact (perform_builderMoves hi hdestroy hrun).inv h
  · exact (perform_steadyStep hi hrun).inv h

end

/-- Settles O11: taking the word from the trace is outside the invariant, and every way of an operation to complete
keeps it. -/
theorem stepKeepsTheInvariant : Obligations.StepKeepsTheInvariant := by
  unfold Obligations.StepKeepsTheInvariant
  intro s t h hstep
  obtain ⟨w, rest, i, -, -, -, hrun⟩ := runNext_next hstep
  rw [exec_eq_perform] at hrun
  exact perform_inv hrun (h.of_frame rfl)

/-! ## `fault` and `alive` -/

/-- A fatal of this outcome stands in `fault` (10_state.md R34, 60_exceptions.md R263). -/
def FaultHoldsCode (r : Result Time) : Prop := ∀ c t, r = .fault (.fatal c t) → t.fault = some c

theorem FaultHoldsCode.next (s : State Time) : FaultHoldsCode (.next s) := by intro c t h; cases h

theorem FaultHoldsCode.refused (q : Refusal) : FaultHoldsCode (.refused q : Result Time) := by intro c t h; cases h

theorem FaultHoldsCode.raiseFatal (c : FatalCode) (s : State Time) : FaultHoldsCode (raiseFatal c s) := by
  intro c t h; cases h; rfl

theorem FaultHoldsCode.ite {c : Prop} [Decidable c] {r q : Result Time} (hr : FaultHoldsCode r) (hq : FaultHoldsCode q) :
    FaultHoldsCode (if c then r else q) := by
  split
  · exact hr
  · exact hq

theorem FaultHoldsCode.andThen {r : Result Time} {k : State Time → Result Time} (h : FaultHoldsCode r)
    (hk : ∀ s, FaultHoldsCode (k s)) : FaultHoldsCode (andThen r k) := by
  cases r with
  | next s => exact hk s
  | fault f => exact h
  | refused q => exact .refused q

theorem FaultHoldsCode.finish {r : Result Time} (h : FaultHoldsCode r) :
    FaultHoldsCode (Machine.andThen r Machine.finish) :=
  h.andThen fun _ => .next _

theorem UnderflowOnly.faultHoldsCode {r : Result Time} (h : UnderflowOnly r) : FaultHoldsCode r := by
  intro c t hr
  obtain ⟨u, hu, hfault⟩ := h _ hr
  cases hu; exact hfault

theorem FaultHoldsCode.withDevice {d : DevRef} {s : State Time} {k : DevIndex → Result Time}
    (hk : ∀ i, FaultHoldsCode (k i)) : FaultHoldsCode (withDevice d s k) := by
  intro c t h
  obtain ⟨i, -, -, h⟩ := withDevice_fault h
  exact hk i c t h

theorem FaultHoldsCode.withMux {s : State Time} {k : State Time → Result Time}
    (hk : FaultHoldsCode (k s)) : FaultHoldsCode (withMux s k) :=
  fun c t h => hk c t (withMux_fault h).2

theorem releaseIn_faultHoldsCode (p : Port) (d : DevIndex) (s : State Time) : FaultHoldsCode (releaseIn p d s) :=
  .ite (.next _) (.raiseFatal _ s)

theorem releaseOut_faultHoldsCode (p : Port) (d : DevIndex) (s : State Time) : FaultHoldsCode (releaseOut p d s) :=
  .ite (.next _) (.raiseFatal _ s)

theorem releaseSlot_faultHoldsCode (c : Coord) (d : DevIndex) (s : State Time) :
    FaultHoldsCode (releaseSlot c d s) :=
  .ite (.next _) (.raiseFatal _ s)

theorem releasePorts_faultHoldsCode (is : List (BitVec 4)) (s : State Time) : FaultHoldsCode (releasePorts is s) := by
  induction is generalizing s with
  | nil => exact .next s
  | cons i is ih =>
    exact (releaseIn_faultHoldsCode _ _ s).andThen fun u => (releaseOut_faultHoldsCode _ _ u).andThen ih

section
variable [LinearOrder Time]

/-- Every fatal of an operation stands in `fault` (R263). -/
theorem perform_faultHoldsCode (i : Instr) (s : State Time) : FaultHoldsCode (perform i s) := by
  cases i with
  | mrd a =>
    simp only [perform, execMrd]
    repeat' split
    · exact .next _
    · exact .next _
    · exact (callReadMem_underflowOnly _ a s).faultHoldsCode
  | mwr a v =>
    simp only [perform, execMwr]
    repeat' split
    · exact .next _
    · exact .next _
    · exact (callWriteMem_underflowOnly _ a v s).faultHoldsCode
  | iord p =>
    simp only [perform, execIord]
    split
    · exact .next _
    · exact (callReadIO_underflowOnly _ p s).faultHoldsCode
  | iowr p v =>
    simp only [perform, execIowr]
    split
    · exact .next _
    · exact (callWriteIO_underflowOnly _ p v s).faultHoldsCode
  | irqst | irqup | psw _ => exact .next _
  | irqdn => exact .finish (.ite (.raiseFatal _ s) (.next _))
  | rst => exact (resetDevices_underflowOnly s.resetOrder s).faultHoldsCode.andThen fun _ => .next _
  | muxrst =>
    simp only [perform, execMuxrst]
    exact .withMux (.next _)
  | regslot _ _ _ _ | regin _ _ | regout _ _ => exact .withDevice fun _ => .next _
  | unregslot _ _ _ _ => exact .withDevice fun i => (releaseSlot_faultHoldsCode _ i s).finish
  | unregin p _ => exact .withDevice fun i => (releaseIn_faultHoldsCode p i s).finish
  | unregout p _ => exact .withDevice fun i => (releaseOut_faultHoldsCode p i s).finish
  | muxreg id j =>
    simp only [perform, execMuxreg]
    refine .withMux ?_
    split
    · exact .refused _
    · exact .next _
  | muxunreg id =>
    simp only [perform, execMuxunreg]
    refine .withMux ?_
    repeat' split
    · exact .raiseFatal _ s
    · exact .next _
    · exact (releasePorts_faultHoldsCode _ _).finish
  | destroy => exact .ite (.raiseFatal _ s) (.next _)
  | muxdestroy =>
    simp only [perform, execMuxdestroy]
    exact .withMux (.ite (.raiseFatal _ s) (.next _))

/-- An operation that completes leaves `fault` (R34). -/
theorem perform_fault_eq {i : Instr} {s t : State Time} (h : perform i s = .next t) : t.fault = s.fault := by
  by_cases hi : role i = .builder
  · rw [perform_builder hi h]
  · rw [perform_steady hi h]

/-- Only DESTROY writes `alive` (R34, 44_configuration.md R191). -/
theorem perform_alive_eq {i : Instr} {s t : State Time} (hdestroy : i ≠ .destroy) (h : perform i s = .next t) :
    t.alive = s.alive := by
  by_cases hi : role i = .builder
  · exact (perform_builderMoves hi hdestroy h).alive_eq
  · rw [perform_steady hi h]

end

/-- A blocked state has no step, whatever the next word is (R34). -/
theorem step_of_blocked {s : State} {q : Refusal} (h : s.blocked = some q) : step s = .refused q := by
  unfold step runNext
  rw [h]

/-- Settles O7: only DESTROY writes `alive`, a fatal alone writes `fault`, with its code, and either blocks the step. -/
theorem faultAndAliveGateEveryStep : Obligations.FaultAndAliveGateEveryStep := by
  unfold Obligations.FaultAndAliveGateEveryStep
  simp only [exec_eq_perform]
  refine ⟨rfl, rfl, fun i s t h => ⟨perform_fault_eq h, fun hi => perform_alive_eq hi h, ?_⟩,
    fun i s t c => perform_faultHoldsCode i s c t, fun s c hfault => step_of_blocked ?_,
    fun s hfault halive => step_of_blocked ?_⟩
  · rintro rfl
    rw [perform_destroy_next h]; rfl
  · simp [State.blocked, hfault]
  · simp [State.blocked, hfault, halive]

/-! ## Nothing reads diagLog

An operation run with more records before those of diagLog does the same with the same records before those of its
outcome. Of a log cut to nothing this gives both halves of R33: the log grows, and by what does not depend on it. -/

/-- The state `s` with the records `old` before those of its diagLog. -/
def State.prependDiag (old : List DiagRecord) (s : State Time) : State Time := { s with diagLog := old ++ s.diagLog }

/-- The outcome with the records `old` before those of the state it carries. -/
def prependDiag (old : List DiagRecord) : Result Time → Result Time
  | .next s => .next (s.prependDiag old)
  | .fault (.fatal c s) => .fault (.fatal c (s.prependDiag old))
  | .refused q => .refused q

/-- `run` does not read diagLog. -/
def IgnoresDiag (run : State Time → Result Time) : Prop :=
  ∀ (old : List DiagRecord) (s : State Time), run (s.prependDiag old) = prependDiag old (run s)

theorem IgnoresDiag.next {f : State Time → State Time}
    (hf : ∀ old s, f (s.prependDiag old) = (f s).prependDiag old) : IgnoresDiag fun s => .next (f s) :=
  fun old s => congrArg Host.Outcome.next (hf old s)

theorem ignoresDiag_setReturned (r : Returned) : IgnoresDiag (Time := Time) fun s => .next (s.setReturned r) :=
  .next fun _ _ => rfl

theorem IgnoresDiag.finish {f : State Time → State Time}
    (hf : ∀ old s, f (s.prependDiag old) = (f s).prependDiag old) : IgnoresDiag fun s => finish (f s) :=
  .next fun old s => by rw [hf]; rfl

theorem ignoresDiag_raiseFatal (c : FatalCode) : IgnoresDiag (Time := Time) (raiseFatal c) := fun _ _ => rfl

theorem IgnoresDiag.andThen {run k : State Time → Result Time} (hrun : IgnoresDiag run) (hk : IgnoresDiag k) :
    IgnoresDiag fun s => andThen (run s) k := by
  intro old s
  dsimp only
  rw [hrun]
  cases run s with
  | next u => exact hk old u
  | fault f => rfl
  | refused q => rfl

theorem IgnoresDiag.thenFinish {run : State Time → Result Time} (hrun : IgnoresDiag run) :
    IgnoresDiag fun s => Machine.andThen (run s) Machine.finish :=
  hrun.andThen (ignoresDiag_setReturned .nothing)

/-- A test that does not read diagLog. -/
theorem IgnoresDiag.ite {c : State Time → Prop} [∀ s, Decidable (c s)] {run other : State Time → Result Time}
    (hc : ∀ old s, c (s.prependDiag old) ↔ c s) (hrun : IgnoresDiag run) (hother : IgnoresDiag other) :
    IgnoresDiag fun s => if c s then run s else other s := by
  intro old s
  by_cases hs : c s
  · simp only [if_pos hs, if_pos ((hc old s).mpr hs), hrun old s]
  · simp only [if_neg hs, if_neg (mt (hc old s).mp hs), hother old s]

theorem IgnoresDiag.withMux {k : State Time → Result Time} (hk : IgnoresDiag k) : IgnoresDiag fun s => withMux s k :=
  .ite (fun _ _ => .rfl) hk fun _ _ => rfl

theorem IgnoresDiag.withDevice {d : DevRef} {k : DevIndex → State Time → Result Time} (hk : ∀ i, IgnoresDiag (k i)) :
    IgnoresDiag fun s => withDevice d s fun i => k i s := by
  unfold Machine.withDevice
  cases deviceIndex d with
  | none => exact fun _ _ => rfl
  | some i => exact .ite (fun _ _ => .rfl) (hk i) fun _ _ => rfl

/-! ### Upcalls and calls -/

theorem lowerIrq_ignoresDiag : IgnoresDiag (Time := Time) lowerIrq :=
  .ite (fun _ _ => .rfl) (ignoresDiag_raiseFatal _) (.next fun _ _ => rfl)

theorem runUpcalls_ignoresDiag (us : List Upcall) : IgnoresDiag (Time := Time) (runUpcalls us) := by
  induction us with
  | nil => exact fun _ _ => rfl
  | cons u us ih =>
    refine .andThen (run := runUpcall u) ?_ ih
    cases u with
    | irqUp => exact .next fun _ _ => rfl
    | irqDn => exact lowerIrq_ignoresDiag
    | psw v => exact .next fun _ _ => rfl

theorem loggedEffect_ignoresDiag (d : DevIndex) (e : Effect Device) (c : DeviceCall Time) :
    IgnoresDiag fun s => applyEffect d e (s.logCall c) :=
  fun old s => runUpcalls_ignoresDiag e.upcalls old ((s.logCall c).setDevice d e.device)

theorem loggedSubEffect_ignoresDiag (j : SubIndex) (e : Effect SubDevice) (c : DeviceCall Time) :
    IgnoresDiag fun s => applySubEffect j e (s.logCall c) :=
  fun old s => runUpcalls_ignoresDiag e.upcalls old ((s.logCall c).setSubDevice j e.device)

section
variable [LinearOrder Time]

theorem callSubReadIO_ignoresDiag (j : SubIndex) (p : Port) : IgnoresDiag (Time := Time) (callSubReadIO j p) :=
  fun old s => (loggedSubEffect_ignoresDiag j _ _).andThen (ignoresDiag_setReturned _) old s

theorem callSubWriteIO_ignoresDiag (j : SubIndex) (p : Port) (v : Byte) :
    IgnoresDiag (Time := Time) (callSubWriteIO j p v) :=
  fun old s => (loggedSubEffect_ignoresDiag j _ _).thenFinish old s

theorem muxReadIO_ignoresDiag (p : Port) : IgnoresDiag (Time := Time) (muxReadIO p) := by
  intro old s
  have hsub : (s.prependDiag old).subAt (s.prependDiag old).mux.selector = s.subAt s.mux.selector := rfl
  unfold muxReadIO
  rw [hsub]
  cases s.subAt s.mux.selector with
  | none => rfl
  | some j => exact callSubReadIO_ignoresDiag j p old s

theorem muxWriteIO_ignoresDiag (p : Port) (v : Byte) : IgnoresDiag (Time := Time) (muxWriteIO p v) := by
  refine .ite (fun _ _ => .rfl) (.finish fun _ _ => rfl) fun old s => ?_
  have hsub : (s.prependDiag old).subAt (s.prependDiag old).mux.selector = s.subAt s.mux.selector := rfl
  rw [hsub]
  cases s.subAt s.mux.selector with
  | none => rfl
  | some j => exact callSubWriteIO_ignoresDiag j p v old s

theorem callReadMem_ignoresDiag (d : DevIndex) (a : Addr) : IgnoresDiag (Time := Time) (callReadMem d a) :=
  .ite (fun _ _ => .rfl) (fun _ _ => rfl) fun old s =>
    (loggedEffect_ignoresDiag d _ _).andThen (ignoresDiag_setReturned _) old s

theorem callWriteMem_ignoresDiag (d : DevIndex) (a : Addr) (v : Byte) :
    IgnoresDiag (Time := Time) (callWriteMem d a v) :=
  .ite (fun _ _ => .rfl) (fun _ _ => rfl) fun old s => (loggedEffect_ignoresDiag d _ _).thenFinish old s

theorem callReadIO_ignoresDiag (d : DevIndex) (p : Port) : IgnoresDiag (Time := Time) (callReadIO d p) :=
  .ite (fun _ _ => .rfl) (fun old s => muxReadIO_ignoresDiag p old (s.logCall _)) fun old s =>
    (loggedEffect_ignoresDiag d _ _).andThen (ignoresDiag_setReturned _) old s

theorem callWriteIO_ignoresDiag (d : DevIndex) (p : Port) (v : Byte) : IgnoresDiag (Time := Time) (callWriteIO d p v) :=
  .ite (fun _ _ => .rfl) (fun old s => muxWriteIO_ignoresDiag p v old (s.logCall _)) fun old s =>
    (loggedEffect_ignoresDiag d _ _).thenFinish old s

theorem resetDevices_ignoresDiag (ds : List DevIndex) : IgnoresDiag (Time := Time) (resetDevices ds) := by
  induction ds with
  | nil => exact fun _ _ => rfl
  | cons d ds ih =>
    refine .andThen (run := callReset d) ?_ ih
    exact .ite (fun _ _ => .rfl) (fun _ _ => rfl) fun old s => loggedEffect_ignoresDiag d _ _ old s

end

/-! ### Claims and releases -/

theorem State.logDiag_prependDiag (r : DiagRecord) (old : List DiagRecord) (s : State Time) :
    (s.prependDiag old).logDiag r = (s.logDiag r).prependDiag old := by
  simp [State.logDiag, State.prependDiag]

theorem claimIn_prependDiag (p : Port) (d : DevIndex) (old : List DiagRecord) (s : State Time) :
    claimIn p d (s.prependDiag old) = (claimIn p d s).prependDiag old := by
  cases h : s.inAt p with
  | none => rw [claimIn_free d h, claimIn_free (s := s.prependDiag old) d h, State.enroll_eq, State.enroll_eq]; rfl
  | some o => rw [claimIn_taken d h, claimIn_taken (s := s.prependDiag old) d h, State.logDiag_prependDiag]

theorem claimOut_prependDiag (p : Port) (d : DevIndex) (old : List DiagRecord) (s : State Time) :
    claimOut p d (s.prependDiag old) = (claimOut p d s).prependDiag old := by
  cases h : s.outAt p with
  | none => rw [claimOut_free d h, claimOut_free (s := s.prependDiag old) d h, State.enroll_eq, State.enroll_eq]; rfl
  | some o => rw [claimOut_taken d h, claimOut_taken (s := s.prependDiag old) d h, State.logDiag_prependDiag]

theorem claimSlot_prependDiag (c : Coord) (d : DevIndex) (old : List DiagRecord) (s : State Time) :
    claimSlot c d (s.prependDiag old) = (claimSlot c d s).prependDiag old := by
  cases h : s.slotAt c with
  | none => rw [claimSlot_free d h, claimSlot_free (s := s.prependDiag old) d h, State.enroll_eq, State.enroll_eq]; rfl
  | some o => rw [claimSlot_taken d h, claimSlot_taken (s := s.prependDiag old) d h, State.logDiag_prependDiag]

theorem State.strike_prependDiag (d : DevIndex) (old : List DiagRecord) (s : State Time) :
    (s.prependDiag old).strike d = (s.strike d).prependDiag old := by
  rw [State.strike_eq, State.strike_eq]; rfl

theorem releaseIn_ignoresDiag (p : Port) (d : DevIndex) : IgnoresDiag (Time := Time) (releaseIn p d) :=
  .ite (fun _ _ => .rfl) (.next fun old s => State.strike_prependDiag d old (s.setIn p none)) (ignoresDiag_raiseFatal _)

theorem releaseOut_ignoresDiag (p : Port) (d : DevIndex) : IgnoresDiag (Time := Time) (releaseOut p d) :=
  .ite (fun _ _ => .rfl) (.next fun old s => State.strike_prependDiag d old (s.setOut p none)) (ignoresDiag_raiseFatal _)

theorem releaseSlot_ignoresDiag (c : Coord) (d : DevIndex) : IgnoresDiag (Time := Time) (releaseSlot c d) :=
  .ite (fun _ _ => .rfl) (.next fun old s => State.strike_prependDiag d old (s.setSlot c none))
    (ignoresDiag_raiseFatal _)

/-! ### The mux and its window -/

theorem claimWindowPort_prependDiag (i : BitVec 4) (old : List DiagRecord) (s : State Time) :
    claimWindowPort (s.prependDiag old) i = (claimWindowPort s i).prependDiag old := by
  unfold claimWindowPort
  rw [claimIn_prependDiag, claimOut_prependDiag]; rfl

theorem claimWindowPorts_prependDiag (is : List (BitVec 4)) (old : List DiagRecord) (s : State Time) :
    is.foldl claimWindowPort (s.prependDiag old) = (is.foldl claimWindowPort s).prependDiag old := by
  induction is generalizing s with
  | nil => rfl
  | cons i is ih => rw [List.foldl_cons, List.foldl_cons, claimWindowPort_prependDiag, ih]

theorem releasePorts_ignoresDiag (is : List (BitVec 4)) : IgnoresDiag (Time := Time) (releasePorts is) := by
  induction is with
  | nil => exact fun _ _ => rfl
  | cons i is ih =>
    exact fun old s => (releaseIn_ignoresDiag (windowPort s.config i) s.config.muxDev).andThen
      (fun old u => (releaseOut_ignoresDiag (windowPort u.config i) u.config.muxDev).andThen ih old u) old s

theorem State.setSub_prependDiag (id : Byte) (j : Option SubIndex) (old : List DiagRecord) (s : State Time) :
    (s.prependDiag old).setSub id j = (s.setSub id j).prependDiag old := rfl

theorem muxRegister_prependDiag (id : Byte) (j : SubIndex) (old : List DiagRecord) (s : State Time) :
    muxRegister id j (s.prependDiag old) = (muxRegister id j s).prependDiag old := by
  have hsub : (s.prependDiag old).subAt id = s.subAt id := rfl
  have hocc : (s.prependDiag old).muxOccupied = s.muxOccupied := rfl
  unfold muxRegister
  rw [hsub, hocc]
  split
  · rw [State.logDiag_prependDiag]
  · split
    · rfl
    · rw [claimWindow, claimWindow, claimWindowPorts_prependDiag, State.setSub_prependDiag]

theorem execMuxreg_ignoresDiag (id : Byte) (j : DevRef) : IgnoresDiag (Time := Time) (execMuxreg id j) := by
  refine .withMux ?_
  cases deviceIndex j with
  | none => exact fun _ _ => rfl
  | some j => exact .finish (muxRegister_prependDiag id j)

theorem execMuxunreg_ignoresDiag (id : Byte) : IgnoresDiag (Time := Time) (execMuxunreg id) := by
  refine .withMux fun old s => ?_
  have hsub : (s.prependDiag old).subAt id = s.subAt id := rfl
  have hremoved : IgnoresDiag (Time := Time) fun u => if u.muxOccupied then finish u else andThen (releaseWindow u) finish :=
    .ite (fun _ _ => .rfl) (ignoresDiag_setReturned _) (releasePorts_ignoresDiag _).thenFinish
  dsimp only
  rw [hsub]
  cases s.subAt id with
  | none => rfl
  | some _ => exact hremoved old (s.setSub id none)

/-! ### The operations -/

/-- No operation reads diagLog (R33). -/
theorem perform_ignoresDiag [LinearOrder Time] (i : Instr) : IgnoresDiag (Time := Time) (perform i) := by
  cases i with
  | mrd a =>
    refine .ite (fun _ _ => .rfl) (fun _ _ => rfl) fun old s => ?_
    have hdev : (s.prependDiag old).resolveMem a = s.resolveMem a := rfl
    rw [hdev]
    cases s.resolveMem a with
    | none => rfl
    | some d => exact callReadMem_ignoresDiag d a old s
  | mwr a v =>
    refine .ite (fun _ _ => .rfl) (fun _ _ => rfl) fun old s => ?_
    have hdev : (s.prependDiag old).resolveMem a = s.resolveMem a := rfl
    rw [hdev]
    cases s.resolveMem a with
    | none => rfl
    | some d => exact callWriteMem_ignoresDiag d a v old s
  | iord p =>
    intro old s
    have hdev : (s.prependDiag old).inAt p = s.inAt p := rfl
    simp only [perform, execIord]
    rw [hdev]
    cases s.inAt p with
    | none => rfl
    | some d => exact callReadIO_ignoresDiag d p old s
  | iowr p v =>
    intro old s
    have hdev : (s.prependDiag old).outAt p = s.outAt p := rfl
    simp only [perform, execIowr]
    rw [hdev]
    cases s.outAt p with
    | none => rfl
    | some d => exact callWriteIO_ignoresDiag d p v old s
  | irqst | irqup | psw _ => exact fun _ _ => rfl
  | irqdn => exact lowerIrq_ignoresDiag.thenFinish
  | rst => exact fun old s => (resetDevices_ignoresDiag s.resetOrder).andThen (.finish fun _ _ => rfl) old s
  | muxrst => exact .withMux (.finish fun _ _ => rfl)
  | regslot ps ss pg d => exact .withDevice fun i => .finish (claimSlot_prependDiag _ i)
  | regin p d => exact .withDevice fun i => .finish (claimIn_prependDiag p i)
  | regout p d => exact .withDevice fun i => .finish (claimOut_prependDiag p i)
  | unregslot ps ss pg d => exact .withDevice fun i => (releaseSlot_ignoresDiag _ i).thenFinish
  | unregin p d => exact .withDevice fun i => (releaseIn_ignoresDiag p i).thenFinish
  | unregout p d => exact .withDevice fun i => (releaseOut_ignoresDiag p i).thenFinish
  | muxreg id j => exact execMuxreg_ignoresDiag id j
  | muxunreg id => exact execMuxunreg_ignoresDiag id
  | destroy => exact .ite (fun _ _ => .rfl) (ignoresDiag_raiseFatal _) (.finish fun _ _ => rfl)
  | muxdestroy => exact .withMux (.ite (fun _ _ => .rfl) (ignoresDiag_raiseFatal _) (.finish fun _ _ => rfl))

/-- What does not read diagLog appends to every log what it appends to the empty one. -/
theorem IgnoresDiag.appends {run : State Time → Result Time} (hrun : IgnoresDiag run) {s t : State Time}
    (h : run s = .next t) : ∃ new, t.diagLog = s.diagLog ++ new ∧
      ∀ log : List DiagRecord, run { s with diagLog := log } = .next { t with diagLog := log ++ new } := by
  have hlog : ∀ log, run { s with diagLog := log } = prependDiag log (run { s with diagLog := [] }) := fun log => by
    rw [← hrun]; simp [State.prependDiag]
  have hs := (hlog s.diagLog).symm.trans h
  cases hempty : run { s with diagLog := [] } with
  | next u =>
    rw [hempty] at hs
    cases hs
    exact ⟨u.diagLog, rfl, fun log => by rw [hlog, hempty]; rfl⟩
  | fault f => rw [hempty] at hs; cases f; cases hs
  | refused q => rw [hempty] at hs; cases hs

/-- Settles O47: no operation reads diagLog, so each appends to every log what it appends to the empty one. -/
theorem diagnosticsAreNeverRead : Obligations.DiagnosticsAreNeverRead := by
  unfold Obligations.DiagnosticsAreNeverRead
  simp only [exec_eq_perform]
  exact fun i s t h => (perform_ignoresDiag i).appends h

end Sys2Proof.Machine
end

section
/-! SUPPORT. Memory and port accesses (20_memory.md): the case of an access that floats or reaches a device, a device
call that changes no register, and what the device shown by a page depends on. -/

namespace Sys2Proof.Machine

variable {Time : Type}

/-! ## The page of an address -/

/-- Settles O14: the page is the quotient of the address by the size of a page. -/
theorem pageOfAnAddress : Obligations.PageOfAnAddress := by
  unfold Obligations.PageOfAnAddress
  intro addr
  have hlt := addr.isLt
  have hpage := page_toNat addr
  have hoffset : (addr.extractLsb' 0 14).toNat = addr.toNat % 2 ^ 14 := by simp
  have hquarter (q : Quarter) : page addr = q ↔ addr.toNat / 2 ^ 14 = q.toNat := by
    rw [← BitVec.toNat_inj, hpage]
  simp only [hquarter, hpage, hoffset, BitVec.toNat_ofNat]
  exact ⟨hpage.symm, by omega, by omega, by omega, by omega, by omega⟩

/-! ## One equation per case of an access (40_memory_access.md R122, 42_io_access.md R160, R161) -/

section
variable [LinearOrder Time] {s : State Time} {addr : Addr} {port : Port} {d : DevIndex}

theorem execMrd_float (hi : s.intercept addr = false) (hd : s.resolveMem addr = none) :
    execMrd addr s = answer Config.floatByte s := by
  simp [execMrd, hi, hd]

theorem execMrd_forward (hi : s.intercept addr = false) (hd : s.resolveMem addr = some d) :
    execMrd addr s = callReadMem d addr s := by
  simp [execMrd, hi, hd]

theorem execMwr_float (v : Byte) (hi : s.intercept addr = false) (hd : s.resolveMem addr = none) :
    execMwr addr v s = finish s := by
  simp [execMwr, hi, hd]

theorem execMwr_forward (v : Byte) (hi : s.intercept addr = false) (hd : s.resolveMem addr = some d) :
    execMwr addr v s = callWriteMem d addr v s := by
  simp [execMwr, hi, hd]

theorem execIord_float (hd : s.inAt port = none) : execIord port s = answer Config.floatByte s := by
  simp [execIord, hd]

theorem execIowr_float (v : Byte) (hd : s.outAt port = none) : execIowr port v s = finish s := by
  simp [execIowr, hd]

/-! ## Calls that make no upcall -/

/-- A read that leaves the device as it is and makes no upcall changes only the model's records. -/
theorem callReadMem_of_quiet {v : Byte} (hmux : d ≠ s.config.muxDev)
    (hread : (s.deviceAt d).readMem d addr s.now = ⟨v, s.deviceAt d, []⟩) :
    callReadMem d addr s = .next ((s.logCall (.readMem d addr s.now)).setReturned (.byte v)) := by
  have hsame : (s.logCall (.readMem d addr s.now)).setDevice d (s.deviceAt d) = s.logCall (.readMem d addr s.now) :=
    State.setDevice_same (s.logCall (.readMem d addr s.now)) d
  rw [callReadMem, if_neg hmux, hread]
  simp only [applyEffect, runUpcalls, andThen_next, answer_eq, hsame]

/-- A read that reaches a RAM returns the byte stored, and changes only the model's records. -/
theorem execMrd_of_ram {m : Memory} (hi : s.intercept addr = false) (hd : s.resolveMem addr = some d)
    (hmux : d ≠ s.config.muxDev) (hram : s.deviceAt d = .ram m) :
    execMrd addr s =
      .next ((s.logCall (.readMem d addr s.now)).setReturned (.byte (Memory.read m addr.toNat))) :=
  (execMrd_forward hi hd).trans (callReadMem_of_quiet hmux (by rw [hram]; rfl))

/-- A write that reaches a RAM stores the byte, and changes nothing else but the model's records. -/
theorem execMwr_of_ram {m : Memory} (v : Byte) (hi : s.intercept addr = false) (hd : s.resolveMem addr = some d)
    (hmux : d ≠ s.config.muxDev) (hram : s.deviceAt d = .ram m) :
    execMwr addr v s =
      .next (((s.logCall (.writeMem d addr v s.now)).setDevice d (.ram (Memory.write m addr.toNat v))).setReturned
        .nothing) := by
  rw [execMwr_forward v hi hd, callWriteMem, if_neg hmux, hram]
  rfl

end

/-! ## Floating accesses -/

/-- Settles O15: the page shows no device, so both accesses are in their floating case. -/
theorem floatingMemoryAccess : Obligations.FloatingMemoryAccess := by
  unfold Obligations.FloatingMemoryAccess
  intro s addr v c hps hss hpg hslot hi
  have hd : s.resolveMem addr = none := by
    rw [State.resolveMem, State.visible, State.coordOf, hps, hss, hpg]
    exact hslot
  exact ⟨execMrd_float hi hd, execMwr_float v hi hd⟩

/-- Settles O29: an entry of a port table that is NONE is the floating case of the access. -/
theorem floatingPortAccess : Obligations.FloatingPortAccess := by
  unfold Obligations.FloatingPortAccess
  exact fun s port v => ⟨execIord_float, execIowr_float v⟩

/-! ## RAM -/

/-- Settles O21: the write stores the byte in the RAM alone, and leaves the mapping that the read goes through. -/
theorem ramReadsBackWhatWasWritten : Obligations.RamReadsBackWhatWasWritten := by
  unfold Obligations.RamReadsBackWhatWasWritten
  intro s addr v d m hi hd hmux hram hwf
  have hbytes (a : Addr) :
      Memory.read (Memory.write m addr.toNat v) a.toNat = if a = addr then v else Memory.read m a.toNat := by
    simpa only [BitVec.toNat_inj] using Memory.read_write hwf addr.toNat a.toNat v
  refine ⟨_, _, execMwr_of_ram v hi hd hmux hram, rfl, ?_, Memory.write_wf hwf addr v, hbytes,
    fun e he => ?_, ?_⟩
  · simp
  · simp [he.symm]
  · refine (execMrd_of_ram (d := d) (m := Memory.write m addr.toNat v) ?_ ?_ ?_ ?_).trans ?_
    exacts [hi, hd, hmux, by simp, by rw [hbytes addr, if_pos rfl]; rfl]

/-! ## The fast path -/

/-- Where a driver may hold a pointer no access is intercepted: SSR_ADDR lies in the block that is excluded. -/
theorem State.intercept_of_pointerAllowed {s : State Time} {addr : Addr} (h : s.pointerAllowed addr = true) :
    s.intercept addr = false := by
  by_cases haddr : addr = Config.ssrAddr
  · have hblock : blockOf Config.ssrAddr = 0xFF#8 := by decide
    simpa [State.pointerAllowed, State.intercept, haddr, hblock] using h
  · simp [State.intercept, haddr]

/-- Settles O26: the access is forwarded, and the promise says that the device's read is quiet and gives the byte
at the pointer. -/
theorem fastPathReadIsIndistinguishable : Obligations.FastPathReadIsIndistinguishable := by
  unfold Obligations.FastPathReadIsIndistinguishable
  intro s addr d bytes hd hmux hallowed hpromise
  have hread := hpromise addr s.now rfl
  exact (execMrd_forward (State.intercept_of_pointerAllowed hallowed) hd).trans (callReadMem_of_quiet hmux hread)

/-! ## The device a page shows -/

/-- The coordinate of a page depends on PSR, SSR and the straps alone (10_state.md R26). -/
theorem State.coordOf_congr {s t : State Time} (hpsr : t.psr = s.psr) (hssr : t.ssr = s.ssr)
    (hflag : t.subslotFlag = s.subslotFlag) (pg : Quarter) : t.coordOf pg = s.coordOf pg := by
  cases s; cases t; cases hpsr; cases hssr; cases hflag; rfl

/-- A claim of a coordinate leaves every other coordinate alone (R189). -/
theorem claimSlot_slotAt_of_ne {c e : Coord} (d : DevIndex) (s : State Time) (hne : c ≠ e) :
    (claimSlot c d s).slotAt e = s.slotAt e := by
  cases h : s.slotAt c with
  | none => rw [claimSlot_free d h, State.slotAt_setSlot, if_neg hne, State.enroll_slotAt]
  | some o => rw [claimSlot_taken d h]; rfl

/-- A release that completes leaves every other coordinate alone (R190). -/
theorem releaseSlot_slotAt_of_ne {c e : Coord} {d : DevIndex} {s t : State Time} (h : releaseSlot c d s = .next t)
    (hne : c ≠ e) : t.slotAt e = s.slotAt e := by
  obtain ⟨-, rfl⟩ := releaseSlot_next h
  rw [State.strike_eq, State.setResetOrder_slotAt, State.slotAt_setSlot, if_neg hne]

/-- A registration with the mux does not touch SlotLayout (R211). -/
theorem muxRegister_slotLayout (id : Byte) (j : SubIndex) (s : State Time) :
    (muxRegister id j s).slotLayout = s.slotLayout := by
  unfold muxRegister
  repeat' split
  · rfl
  · rfl
  · rw [State.setSub_slotLayout, claimWindow_frame]

/-- Only REGSLOT and UNREGSLOT at a coordinate change its entry of SlotLayout (10_state.md R22). -/
theorem perform_slotAt_writer [LinearOrder Time] {i : Instr} {s t : State Time} {c : Coord}
    (h : perform i s = .next t) (hne : t.slotAt c ≠ s.slotAt c) :
    (∃ d, i = .regslot c.ps c.ss c.pg d) ∨ ∃ d, i = .unregslot c.ps c.ss c.pg d := by
  have unwritten (hlayout : t.slotLayout = s.slotLayout) : t.slotAt c = s.slotAt c := by
    simp only [State.slotAt, hlayout]
  cases i with
  | regslot ps ss pg d =>
    obtain ⟨i, -, -, h⟩ := withDevice_next h
    cases h
    by_cases hc : (⟨ps, ss, pg⟩ : Coord) = c
    · subst hc; exact .inl ⟨d, rfl⟩
    · exact absurd (claimSlot_slotAt_of_ne i s hc) hne
  | unregslot ps ss pg d =>
    obtain ⟨i, -, -, h⟩ := withDevice_next h
    obtain ⟨u, hu, ht⟩ := andThen_eq_next.mp h
    cases ht
    by_cases hc : (⟨ps, ss, pg⟩ : Coord) = c
    · subst hc; exact .inr ⟨d, rfl⟩
    · exact absurd (releaseSlot_slotAt_of_ne hu hc) hne
  | regin p d =>
    obtain ⟨i, -, -, h⟩ := withDevice_next h
    cases h
    exact absurd (unwritten (by rw [claimIn_frame]; rfl)) hne
  | regout p d =>
    obtain ⟨i, -, -, h⟩ := withDevice_next h
    cases h
    exact absurd (unwritten (by rw [claimOut_frame]; rfl)) hne
  | unregin p d =>
    obtain ⟨i, -, -, h⟩ := withDevice_next h
    obtain ⟨u, hu, ht⟩ := andThen_eq_next.mp h
    cases ht
    obtain ⟨-, rfl⟩ := releaseIn_next hu
    exact absurd (unwritten (by rw [State.strike_eq]; rfl)) hne
  | unregout p d =>
    obtain ⟨i, -, -, h⟩ := withDevice_next h
    obtain ⟨u, hu, ht⟩ := andThen_eq_next.mp h
    cases ht
    obtain ⟨-, rfl⟩ := releaseOut_next hu
    exact absurd (unwritten (by rw [State.strike_eq]; rfl)) hne
  | muxreg id j =>
    simp only [perform, execMuxreg] at h
    obtain ⟨-, h⟩ := withMux_next h
    split at h
    · cases h
    · cases h
      exact absurd (unwritten (muxRegister_slotLayout id _ s)) hne
  | muxunreg id =>
    simp only [perform, execMuxunreg] at h
    obtain ⟨-, h⟩ := withMux_next h
    repeat' split at h
    · cases h
    · cases h; exact absurd rfl hne
    · obtain ⟨u, hu, ht⟩ := andThen_eq_next.mp h
      cases ht
      exact absurd (unwritten (by rw [releasePorts_frame hu]; rfl)) hne
  | destroy =>
    simp only [perform, execDestroy] at h
    split at h <;> cases h
    exact absurd rfl hne
  | muxdestroy =>
    simp only [perform, execMuxdestroy] at h
    obtain ⟨-, h⟩ := withMux_next h
    split at h <;> cases h
    exact absurd rfl hne
  | mrd _ | mwr _ _ | iord _ | iowr _ _ | irqst | irqup | irqdn | psw _ | rst | muxrst =>
    exact absurd (unwritten (by rw [perform_steady (by simp [role]) h])) hne

/-- Settles O25: with PSR and SSR unchanged the page shows the same coordinate, whose entry only REGSLOT and
UNREGSLOT change; SSR is changed only by RST and an intercepted write. -/
theorem visibleDeviceChangesOnlyWhereListed : Obligations.VisibleDeviceChangesOnlyWhereListed := by
  unfold Obligations.VisibleDeviceChangesOnlyWhereListed
  intro i s t pg h hne
  have hrun : perform i s = .next t := exec_eq_perform i s ▸ h
  by_cases hpsr : t.psr = s.psr
  · refine .inr ?_
    by_cases hssr : t.ssr = s.ssr
    · have hcoord := State.coordOf_congr hpsr hssr (perform_straps hrun).1 pg
      rw [State.visible, hcoord] at hne
      obtain ⟨d, hi⟩ | ⟨d, hi⟩ := perform_slotAt_writer hrun hne
      · exact .inr (.inr (.inl ⟨_, _, d, hi⟩))
      · exact .inr (.inr (.inr ⟨_, _, d, hi⟩))
    · obtain ⟨hwriter, -⟩ := registersHaveFewWriters i s t h
      obtain hrst | ⟨addr, v, hi, hintercept, -⟩ := hwriter hssr
      · exact .inl hrst
      · exact .inr (.inl ⟨addr, v, hi, hintercept⟩)
  · exact .inl hpsr

end Sys2Proof.Machine
end

section
/-! SUPPORT. The encoding (30_encoding.md R96 to R100): decoder and encoder are inverse to each other on well-formed
operations, the words of each row of the opcode table are the words of the operation of that name, and what a step
does with the word it takes. -/

namespace Sys2Proof

/-! ## The checks of the decoder, on operands that pass them -/

@[simp] theorem requireZero_zero (n : Nat) (x : Except DecodeError Instr) : requireZero 0#n x = x := if_pos rfl

@[simp] theorem withByte_packByte (b : BitVec 8) (k : BitVec 8 → Except DecodeError Instr) :
    withByte (packByte b) k = k b := by
  simp [withByte]

@[simp] theorem withCoord_packCoord (ps ss pg : Quarter) (k : Quarter → Quarter → Quarter → Except DecodeError Instr) :
    withCoord (packCoord ps ss pg) k = k ps ss pg := by
  simp [withCoord]

theorem requireDevice_of_wf {i : Instr} (h : i.wf = true) : requireDevice i = .ok i := if_pos h

theorem requireDevice_of_not_wf {i : Instr} (h : i.wf = false) : requireDevice i = .error .noneOperand := by
  simp [requireDevice, h]

/-! ## Decoder and encoder -/

/-- Whatever the operands are, only the check of the device operand is left of decoding an operation's word (R100). -/
theorem decode_encode (i : Instr) : decode (encode i) = requireDevice i := by
  cases i with
  | mrd _ | mwr _ _ | iord _ | iowr _ _ | irqst | irqup | irqdn | psw _ | rst | muxrst | muxunreg _ | destroy
  | muxdestroy => rw [requireDevice_of_wf rfl]; simp [encode, decodeFields]
  | regslot _ _ _ _ | muxreg _ _ | unregslot _ _ _ _ | regin _ _ | regout _ _ | unregin _ _ | unregout _ _ =>
    simp [encode, decodeFields]

/-- An operation that the decoder reads from four fields is well formed and packs into the same fields: one case for
each row of R99, grouped by the fields the row has. -/
theorem encode_of_decodeFields {kind sub : BitVec 4} {a : BitVec 16} {d : BitVec 8} {i : Instr}
    (h : decodeFields kind sub a d = .ok i) : encode i = packWord kind sub a d ∧ i.wf = true := by
  have hkind : kind = BitVec.ofNat 4 kind.toNat := by simp
  have hsub : sub = BitVec.ofNat 4 sub.toNat := by simp
  unfold decodeFields at h
  generalize kind.toNat = k at h hkind
  generalize sub.toNat = n at h hsub
  subst hkind hsub
  split at h
  -- no row
  case h_21 => cases h
  all_goals simp only [requireZero_eq_ok, withByte_eq_ok, withCoord_eq_ok, requireDevice_eq_ok, Except.ok.injEq] at h
  -- no operand
  case h_5 | h_6 | h_7 | h_9 | h_10 | h_19 | h_20 => obtain ⟨rfl, rfl, rfl⟩ := h; exact ⟨rfl, rfl⟩
  -- MWR
  case h_2 => subst h; exact ⟨rfl, rfl⟩
  -- MRD, PSW
  case h_1 | h_8 => obtain ⟨rfl, rfl⟩ := h; exact ⟨rfl, rfl⟩
  -- IORD, MUXUNREG
  case h_3 | h_14 => obtain ⟨rfl, b, rfl, rfl⟩ := h; exact ⟨rfl, rfl⟩
  -- IOWR
  case h_4 => obtain ⟨b, rfl, rfl⟩ := h; exact ⟨rfl, rfl⟩
  -- REGSLOT, UNREGSLOT
  case h_11 | h_13 => obtain ⟨ps, ss, pg, rfl, hwf, rfl⟩ := h; exact ⟨rfl, hwf⟩
  -- MUXREG, REGIN, REGOUT, UNREGIN, UNREGOUT
  case h_12 | h_15 | h_16 | h_17 | h_18 => obtain ⟨b, rfl, hwf, rfl⟩ := h; exact ⟨rfl, hwf⟩

/-- A word spells an operation exactly if the operation is well formed and the word is its word. -/
theorem decode_eq_ok_iff {w : Word} {i : Instr} : decode w = .ok i ↔ encode i = w ∧ i.wf = true := by
  constructor
  · intro h
    rw [← packWord_fields w]
    exact encode_of_decodeFields h
  · rintro ⟨rfl, hwf⟩
    rw [decode_encode, requireDevice_of_wf hwf]

/-- Settles O2: only the check of the device operand is left, and a well-formed operation passes it. -/
theorem decodeOfEncodeIsTheOperation : Obligations.DecodeOfEncodeIsTheOperation :=
  fun _ hwf => decode_eq_ok_iff.mpr ⟨rfl, hwf⟩

/-- Settles O3, by the cases of the decoder. -/
theorem encodeOfDecodeIsTheWord : Obligations.EncodeOfDecodeIsTheWord := fun _ _ => decode_eq_ok_iff.mp

/-- Settles O1: twenty closed words. -/
theorem wordsOfTheEncodingTableDecode : Obligations.WordsOfTheEncodingTableDecode := by
  unfold Obligations.WordsOfTheEncodingTableDecode
  decide

/-! ## The words of a row of the opcode table (R99) -/

/-- A word whose `kind` and `sub` are fixed by a mask is packed from these and from fields of which the masked bits
are zero. -/
theorem fields_of_masked {w : Word} {kind sub : BitVec 4} {ma : BitVec 16} {md : BitVec 8}
    (h : w &&& packWord 0xF 0xF ma md = packWord kind sub 0 0) :
    ∃ a d, a &&& ma = 0 ∧ d &&& md = 0 ∧ w = packWord kind sub a d := by
  have hw := packWord_fields w
  generalize Word.kind w = k, Word.sub w = s, Word.a w = a, Word.d w = d at hw
  subst hw
  rw [Laws.RowMatch.packWord_and] at h
  have hk : k &&& 0xF = kind := by simpa only [kind_packWord] using congrArg Word.kind h
  have hs : s &&& 0xF = sub := by simpa only [sub_packWord] using congrArg Word.sub h
  have ha : a &&& ma = 0 := by simpa only [a_packWord] using congrArg Word.a h
  have hd : d &&& md = 0 := by simpa only [d_packWord] using congrArg Word.d h
  have ones (x : BitVec 4) : x &&& 0xF = x := BitVec.and_allOnes
  rw [ones] at hk hs
  exact ⟨a, d, ha, hd, by rw [hk, hs]⟩

/-- A vector of which a mask of ones leaves nothing is zero. -/
theorem eq_zero_of_and_ones {n : Nat} {x : BitVec n} (h : x &&& BitVec.allOnes n = 0#n) : x = 0#n := by
  rwa [BitVec.and_allOnes] at h

theorem eq_packByte_of_and {a : BitVec 16} (h : a &&& 0xFF00 = 0) : ∃ b, a = packByte b := by
  refine ⟨_, (packByte_of_high (eq_zero_of_and_ones ?_)).symm⟩
  have hhigh := congrArg (BitVec.extractLsb' 8 8) h
  rwa [BitVec.extractLsb'_and] at hhigh

theorem eq_packCoord_of_and {a : BitVec 16} (h : a &&& 0xFFC0 = 0) : ∃ ps ss pg, a = packCoord ps ss pg := by
  refine ⟨_, _, _, (packCoord_of_high (eq_zero_of_and_ones ?_)).symm⟩
  have hhigh := congrArg (BitVec.extractLsb' 6 10) h
  rwa [BitVec.extractLsb'_and] at hhigh

/-- On words with the row's fixed bits, matching is the check of the device operand (R100). -/
theorem OpcodeRow.matches_of_masked {r : OpcodeRow} {w : Word} (h : w &&& r.mask = r.bits) :
    r.matches w = !(r.device && Word.d w == 0xFF#8) := by
  simp [OpcodeRow.matches, h]

/-- Every word with the fixed bits of the row is the word of an operation of the row's name, and it matches the row
exactly if the operation is well formed. -/
def OpcodeRow.Spells (r : OpcodeRow) : Prop :=
  ∀ w : Word, w &&& r.mask = r.bits → ∃ i : Instr, i.mnemonic = r.mnemonic ∧ encode i = w ∧ r.matches w = i.wf

section
variable {name : String} {bits mask : Word} {kind sub : BitVec 4} {ma : BitVec 16} {md : BitVec 8} {device : Bool}

/-- A row spells its operation if every choice of the fields that its mask admits does. -/
theorem spells_of_fields (hbits : bits = packWord kind sub 0 0) (hmask : mask = packWord 0xF 0xF ma md)
    (h : ∀ a d, a &&& ma = 0 → d &&& md = 0 →
      ∃ i : Instr, i.mnemonic = name ∧ encode i = packWord kind sub a d ∧ i.wf = !(device && d == 0xFF#8)) :
    OpcodeRow.Spells ⟨name, bits, mask, device⟩ := by
  intro w hw
  obtain ⟨a, d, ha, hd, hfields⟩ := fields_of_masked (hmask ▸ hbits ▸ hw)
  obtain ⟨i, hname, hword, hwf⟩ := h a d ha hd
  refine ⟨i, hname, hword.trans hfields.symm, ?_⟩
  rw [OpcodeRow.matches_of_masked hw, hwf, hfields, d_packWord]

/-- A row without operands. -/
theorem spells_bare (kind sub : BitVec 4) (i : Instr) (hname : i.mnemonic = name := by rfl)
    (hword : encode i = packWord kind sub 0 0 := by rfl) (hwf : i.wf = true := by rfl)
    (hbits : bits = packWord kind sub 0 0 := by rfl) : OpcodeRow.Spells ⟨name, bits, 0xFFFFFFFF, false⟩ :=
  spells_of_fields (ma := 0xFFFF) (md := 0xFF) hbits rfl fun a d ha hd =>
    ⟨i, hname, by rw [hword, eq_zero_of_and_ones ha, eq_zero_of_and_ones hd]; rfl, hwf⟩

/-- A row with a byte in `a[7:0]` and nothing in `d`. -/
theorem spells_byte (kind sub : BitVec 4) (op : Byte → Instr) (hname : ∀ b, (op b).mnemonic = name := by intros; rfl)
    (hword : ∀ b, encode (op b) = packWord kind sub (packByte b) 0 := by intros; rfl)
    (hwf : ∀ b, (op b).wf = true := by intros; rfl)
    (hbits : bits = packWord kind sub 0 0 := by rfl) : OpcodeRow.Spells ⟨name, bits, 0xFFFF00FF, false⟩ :=
  spells_of_fields (ma := 0xFF00) (md := 0xFF) hbits rfl fun a d ha hd => by
    obtain ⟨b, rfl⟩ := eq_packByte_of_and ha
    exact ⟨op b, hname b, by rw [hword, eq_zero_of_and_ones hd]; rfl, hwf b⟩

/-- A row with a byte in `a[7:0]` and a value or a device in `d`. -/
theorem spells_byteAndLow (kind sub : BitVec 4) (op : Byte → Byte → Instr)
    (hname : ∀ b d, (op b d).mnemonic = name := by intros; rfl)
    (hword : ∀ b d, encode (op b d) = packWord kind sub (packByte b) d := by intros; rfl)
    (hwf : ∀ b d, (op b d).wf = !(device && d == 0xFF#8) := by intros; rfl)
    (hbits : bits = packWord kind sub 0 0 := by rfl) : OpcodeRow.Spells ⟨name, bits, 0xFFFF0000, device⟩ :=
  spells_of_fields (ma := 0xFF00) (md := 0x00) hbits rfl fun a d ha _ => by
    obtain ⟨b, rfl⟩ := eq_packByte_of_and ha
    exact ⟨op b d, hname b d, hword b d, hwf b d⟩

/-- A row with a coordinate in `a[5:0]` and a device in `d`. -/
theorem spells_coordAndDevice (kind sub : BitVec 4) (op : Quarter → Quarter → Quarter → DevRef → Instr)
    (hname : ∀ ps ss pg d, (op ps ss pg d).mnemonic = name := by intros; rfl)
    (hword : ∀ ps ss pg d, encode (op ps ss pg d) = packWord kind sub (packCoord ps ss pg) d := by intros; rfl)
    (hwf : ∀ ps ss pg d, (op ps ss pg d).wf = (d != 0xFF#8) := by intros; rfl)
    (hbits : bits = packWord kind sub 0 0 := by rfl) : OpcodeRow.Spells ⟨name, bits, 0xFFFFC000, true⟩ :=
  spells_of_fields (ma := 0xFFC0) (md := 0x00) hbits rfl fun a d ha _ => by
    obtain ⟨ps, ss, pg, rfl⟩ := eq_packCoord_of_and ha
    exact ⟨op ps ss pg d, hname ps ss pg d, hword ps ss pg d, hwf ps ss pg d⟩

theorem spells_mrd : OpcodeRow.Spells ⟨"MRD", 0x00000000, 0xFF0000FF, false⟩ :=
  spells_of_fields (kind := 0x0) (sub := 0) (ma := 0x0000) (md := 0xFF) rfl rfl fun a _ _ hd =>
    ⟨.mrd a, rfl, by rw [eq_zero_of_and_ones hd]; rfl, rfl⟩

theorem spells_mwr : OpcodeRow.Spells ⟨"MWR", 0x10000000, 0xFF000000, false⟩ :=
  spells_of_fields (kind := 0x1) (sub := 0) (ma := 0x0000) (md := 0x00) rfl rfl fun a d _ _ =>
    ⟨.mwr a d, rfl, rfl, rfl⟩

theorem spells_psw : OpcodeRow.Spells ⟨"PSW", 0x70000000, 0xFFFFFF00, false⟩ :=
  spells_of_fields (kind := 0x7) (sub := 0) (ma := 0xFFFF) (md := 0x00) rfl rfl fun _ d ha _ =>
    ⟨.psw d, rfl, by rw [eq_zero_of_and_ones ha]; rfl, rfl⟩

end

/-- Every row of the table spells the operation it names, row by row. -/
theorem spells_of_mem : ∀ r ∈ opcodeRows, r.Spells := by
  simp only [opcodeRows, List.forall_mem_cons]
  exact ⟨spells_mrd, spells_mwr, spells_byte 0x2 0 .iord, spells_byteAndLow 0x3 0 .iowr,
    spells_bare 0x4 0 .irqst, spells_bare 0x5 0 .irqup, spells_bare 0x6 0 .irqdn, spells_psw,
    spells_bare 0x8 0 .rst, spells_bare 0x8 1 .muxrst,
    spells_coordAndDevice 0x9 0 .regslot, spells_byteAndLow 0x9 1 .muxreg,
    spells_coordAndDevice 0xA 0 .unregslot, spells_byte 0xA 1 .muxunreg,
    spells_byteAndLow 0xB 0 .regin, spells_byteAndLow 0xC 0 .regout,
    spells_byteAndLow 0xD 0 .unregin, spells_byteAndLow 0xE 0 .unregout,
    spells_bare 0xF 0 .destroy, spells_bare 0xF 1 .muxdestroy, List.forall_mem_nil _⟩

/-- Every operation has a row with its name, whose fixed bits its word has. -/
theorem exists_row (i : Instr) : Laws.RowMatch.Statement i := by
  cases i with
  | mrd a => exact Laws.RowMatch.mrd a
  | mwr a v => exact Laws.RowMatch.mwr a v
  | iord p => exact Laws.RowMatch.iord p
  | iowr p v => exact Laws.RowMatch.iowr p v
  | irqst => exact Laws.RowMatch.irqst
  | irqup => exact Laws.RowMatch.irqup
  | irqdn => exact Laws.RowMatch.irqdn
  | psw v => exact Laws.RowMatch.psw v
  | rst => exact Laws.RowMatch.rst
  | muxrst => exact Laws.RowMatch.muxrst
  | regslot ps ss pg d => exact Laws.RowMatch.regslot ps ss pg d
  | muxreg id j => exact Laws.RowMatch.muxreg id j
  | unregslot ps ss pg d => exact Laws.RowMatch.unregslot ps ss pg d
  | muxunreg id => exact Laws.RowMatch.muxunreg id
  | regin p d => exact Laws.RowMatch.regin p d
  | regout p d => exact Laws.RowMatch.regout p d
  | unregin p d => exact Laws.RowMatch.unregin p d
  | unregout p d => exact Laws.RowMatch.unregout p d
  | destroy => exact Laws.RowMatch.destroy
  | muxdestroy => exact Laws.RowMatch.muxdestroy

/-- No two rows have the same name. -/
theorem row_eq_of_mnemonic_eq {r q : OpcodeRow} (hr : r ∈ opcodeRows) (hq : q ∈ opcodeRows)
    (h : r.mnemonic = q.mnemonic) : r = q :=
  List.inj_on_of_nodup_map (f := OpcodeRow.mnemonic) (by decide) hr hq h

/-- The operation that a word with a row's fixed bits spells, but for the check of its device operand. -/
theorem decode_of_masked {r : OpcodeRow} {w : Word} (hr : r ∈ opcodeRows) (h : w &&& r.mask = r.bits) :
    ∃ i : Instr, i.mnemonic = r.mnemonic ∧ decode w = requireDevice i ∧ r.matches w = i.wf := by
  obtain ⟨i, hname, rfl, hmatches⟩ := spells_of_mem r hr w h
  exact ⟨i, hname, decode_encode i, hmatches⟩

theorem decode_of_matches {r : OpcodeRow} {w : Word} (hr : r ∈ opcodeRows) (h : r.matches w = true) :
    ∃ i : Instr, decode w = .ok i ∧ i.mnemonic = r.mnemonic := by
  have hmask : w &&& r.mask = r.bits := by
    rw [OpcodeRow.matches, Bool.and_eq_true, beq_iff_eq] at h
    exact h.1
  obtain ⟨i, hname, hdecode, hmatches⟩ := decode_of_masked hr hmask
  exact ⟨i, by rw [hdecode, requireDevice_of_wf (hmatches ▸ h)], hname⟩

/-- A word that spells an operation matches a row of the table, which has the operation's name. -/
theorem matches_of_decode {w : Word} {i : Instr} (h : decode w = .ok i) :
    ∃ r ∈ opcodeRows, r.mnemonic = i.mnemonic ∧ r.matches w = true := by
  obtain ⟨r, hr, hname, hmask⟩ := exists_row i
  rw [(decode_eq_ok_iff.mp h).1] at hmask
  obtain ⟨j, -, hdecode, hmatches⟩ := decode_of_masked hr hmask
  exact ⟨r, hr, hname, hmatches.trans (requireDevice_eq_ok.mp (hdecode.symm.trans h)).1⟩

/-- Settles O4: a matching word is the word of a well-formed operation of the row's name, and the row that the word
of an operation matches is the only one of its name. -/
theorem decodingAgreesWithTheOpcodeTable : Obligations.DecodingAgreesWithTheOpcodeTable := by
  unfold Obligations.DecodingAgreesWithTheOpcodeTable
  intro w r hr
  refine ⟨decode_of_matches hr, ?_⟩
  rintro ⟨i, hdecode, hname⟩
  obtain ⟨q, hq, hqname, hmatches⟩ := matches_of_decode hdecode
  rwa [row_eq_of_mnemonic_eq hr hq (hname.symm.trans hqname.symm)]

/-! ## Words outside the table (R100) -/

theorem decode_error_of_not_ok {w : Word} (h : ∀ i, decode w ≠ .ok i) : ∃ e, decode w = .error e := by
  cases hdecode : decode w with
  | error e => exact ⟨e, rfl⟩
  | ok i => exact absurd hdecode (h i)

/-- The `sub` of an operation's word is 0, or 1 with one of four values of `kind`. -/
theorem sub_encode (i : Instr) : Word.sub (encode i) = 0#4 ∨ Word.sub (encode i) = 1#4 ∧
    (Word.kind (encode i) = 0x8#4 ∨ Word.kind (encode i) = 0x9#4 ∨ Word.kind (encode i) = 0xA#4 ∨
      Word.kind (encode i) = 0xF#4) := by
  cases i <;> simp [encode]

/-- The device operand 0xFF is refused by name in every row that has one. -/
theorem decode_noneOperand {r : OpcodeRow} {w : Word} (hr : r ∈ opcodeRows) (hdevice : r.device = true)
    (h : w &&& r.mask = r.bits) (hd : Word.d w = 0xFF#8) : decode w = .error .noneOperand := by
  obtain ⟨i, -, hdecode, hmatches⟩ := decode_of_masked hr h
  have hwf : i.wf = false := by
    rw [← hmatches, OpcodeRow.matches_of_masked h, hdevice, hd]
    decide
  rw [hdecode, requireDevice_of_not_wf hwf]

/-- A word with a byte operand in `a`, written from its upper 16 bits, the byte and `d`. -/
theorem packWord_packByte (kind sub : BitVec 4) (b d : BitVec 8) :
    packWord kind sub (packByte b) d = (kind ++ sub ++ 0#8 : BitVec 16) ++ b ++ d := by
  rw [packWord, packByte, BitVec.append_assoc (x₁ := kind ++ sub) (x₂ := 0#8) (x₃ := b)]
  rfl

end Sys2Proof

namespace Sys2Proof.Machine

variable {Time : Type}

/-! ## The step of a word (R98, R100) -/

theorem runNext_of_ok (run : Instr → State Time → Result Time) {s : State Time} {w : TraceWord Time}
    {rest : List (TraceWord Time)} {i : Instr} (hblocked : s.blocked = none) (hpending : s.pending = w :: rest)
    (h : decode w.word = .ok i) : runNext run s = run i (s.issue w rest) := by
  simp [runNext, hblocked, hpending, h]

theorem runNext_of_error (run : Instr → State Time → Result Time) {s : State Time} {w : TraceWord Time}
    {rest : List (TraceWord Time)} {e : DecodeError} (hblocked : s.blocked = none) (hpending : s.pending = w :: rest)
    (h : decode w.word = .error e) : runNext run s = .refused (.illegalWord e) := by
  simp [runNext, hblocked, hpending, h]

/-- Settles O5: a word that spells an operation would match a row and have the `sub` and `kind` of an operation's
word; the legal words are words of well-formed operations. -/
theorem wordsOutsideTheTableAreRefused : Obligations.WordsOutsideTheTableAreRefused := by
  unfold Obligations.WordsOutsideTheTableAreRefused
  refine ⟨fun w hnone => ?_, fun w hsub => ?_, fun w hsub h8 h9 hA hF => ?_,
    fun w r hr hdevice h hd => decode_noneOperand hr hdevice h hd, fun addr port v => ⟨?_, ?_, ?_, ?_, ?_⟩⟩
  · obtain ⟨e, he⟩ : ∃ e, decode w = .error e := decode_error_of_not_ok fun i hi => by
      obtain ⟨r, hr, -, hmatches⟩ := matches_of_decode hi
      simp [hnone r hr] at hmatches
    exact ⟨e, he, fun s t ws hblocked hpending => runNext_of_error exec hblocked hpending he⟩
  · refine decode_error_of_not_ok fun i hi => ?_
    obtain ⟨rfl, -⟩ := decode_eq_ok_iff.mp hi
    obtain h | ⟨h, -⟩ := sub_encode i <;> simp [h] at hsub
  · refine decode_error_of_not_ok fun i hi => ?_
    obtain ⟨rfl, -⟩ := decode_eq_ok_iff.mp hi
    obtain h | ⟨-, h | h | h | h⟩ := sub_encode i
    · simp [h] at hsub
    · exact h8 h
    · exact h9 h
    · exact hA h
    · exact hF h
  · exact decode_eq_ok_iff.mpr ⟨rfl, rfl⟩
  · exact decode_eq_ok_iff.mpr ⟨rfl, rfl⟩
  · exact decode_eq_ok_iff.mpr ⟨packWord_packByte 0x2 0 port 0, rfl⟩
  · exact decode_eq_ok_iff.mpr ⟨packWord_packByte 0x3 0 port v, rfl⟩
  · exact decode_eq_ok_iff.mpr ⟨rfl, rfl⟩

/-- Settles O6: neither a fault nor DESTROY blocks the step, and the word is taken as `issue` takes it. -/
theorem stepRunsTheDecodedOperation : Obligations.StepRunsTheDecodedOperation := by
  unfold Obligations.StepRunsTheDecodedOperation
  intro s w t ws i hfault halive hpending hdecode
  exact runNext_of_ok exec (State.blocked_eq_none.mpr ⟨hfault, halive⟩) hpending hdecode

/-! ## Refused device operands (R97, 44_configuration.md R197) -/

theorem withDevice_none (s : State Time) (k : DevIndex → Result Time) :
    withDevice 0xFF#8 s k = .refused .noneOperand := rfl

theorem withDevice_absent {d : DevRef} {s : State Time} {i : DevIndex} (k : DevIndex → Result Time)
    (hd : deviceIndex d = some i) (hi : s.config.nDev ≤ i.val) : withDevice d s k = .refused .noSuchDevice := by
  simp [withDevice, hd, Nat.not_lt.mpr hi]

theorem execMuxreg_none (id : Byte) {s : State Time} (h : s.mux.alive = true) :
    execMuxreg id 0xFF#8 s = .refused .noneOperand := withMux_of _ h

/-- Settles O48: six operations go on through `withDevice`, MUXREG looks its sub-device up behind the mux gate. -/
theorem noneCannotBeRegistered : Obligations.NoneCannotBeRegistered := by
  unfold Obligations.NoneCannotBeRegistered
  intro s ps ss pg port id
  simp only [exec, execRegslot, execUnregslot, execRegin, execRegout, execUnregin, execUnregout]
  refine ⟨withDevice_none s _, withDevice_none s _, withDevice_none s _, withDevice_none s _, withDevice_none s _,
    withDevice_none s _, execMuxreg_none id, fun d i hd hi => ?_⟩
  have absent (k : DevIndex → Result TraceTime) : withDevice d s k = .refused .noSuchDevice := withDevice_absent k hd hi
  exact ⟨absent _, absent _, absent _, absent _, absent _, absent _⟩

end Sys2Proof.Machine
end

section
/-! SUPPORT. Memory accesses (40_memory_access.md): the intercepted case of an access, and the next state of an access
that reaches a device. -/

namespace Sys2Proof.Machine

variable {Time : Type}

/-! ## The shape of every call on a device -/

/-- A call whose upcalls never lower at 0 completes: the device's state, the count and PSR after the upcalls, one
record of the call and the value returned (20_memory.md R69, R81). -/
theorem loggedEffect_of_count {d : DevIndex} {e : Effect Device} {s : State Time} {n : Nat} (c : DeviceCall Time)
    (r : Returned) (h : countAfter s.config.irqCountMax e.upcalls s.irqCount = some n) :
    andThen (applyEffect d e (s.logCall c)) (fun u => .next (u.setReturned r)) =
      .next { s with devices := (s.setDevice d e.device).devices, irqCount := n, psr := psrAfter e.upcalls s.psr,
                     callLog := s.callLog ++ [c], returned := r } := by
  rw [applyEffect, runUpcalls_of_count (s := (s.logCall c).setDevice d e.device) h]
  rfl

/-- A call one of whose upcalls lowers at 0 ends in F_IRQ_UNDERFLOW (60_exceptions.md R261). -/
theorem loggedEffect_of_underflow {d : DevIndex} {e : Effect Device} {s : State Time} (c : DeviceCall Time)
    (k : State Time → Result Time) (h : countAfter s.config.irqCountMax e.upcalls s.irqCount = none) :
    ∃ t, andThen (applyEffect d e (s.logCall c)) k = .fault (.fatal .irqUnderflow t) := by
  obtain ⟨t, hrun, -⟩ := runUpcalls_of_underflow (s := (s.logCall c).setDevice d e.device) h
  exact ⟨t, by rw [applyEffect, hrun]; rfl⟩

/-- `t` is `s` after calling device `d` once, with the record `c` of the call, and no other device or sub-device
(40_memory_access.md R123 (d)). -/
structure CalledOnce (d : DevIndex) (c : DeviceCall Time) (s t : State Time) : Prop where
  subDevices : t.subDevices = s.subDevices
  mux : t.mux = s.mux
  callLog : t.callLog = s.callLog ++ [c]
  others : ∀ e, e ≠ d → t.deviceAt e = s.deviceAt e

theorem loggedEffect_calledOnce {d : DevIndex} {e : Effect Device} {c : DeviceCall Time} {r : Returned}
    {s t : State Time} (h : andThen (applyEffect d e (s.logCall c)) (fun u => .next (u.setReturned r)) = .next t) :
    CalledOnce d c s t := by
  cases hcount : countAfter s.config.irqCountMax e.upcalls s.irqCount with
  | some n =>
    rw [loggedEffect_of_count c r hcount] at h
    cases h
    refine ⟨rfl, rfl, rfl, fun o ho => ?_⟩
    exact (s.deviceAt_setDevice d o e.device).trans (if_neg ho.symm)
  | none =>
    obtain ⟨u, hfault⟩ := loggedEffect_of_underflow (d := d) c (fun u => .next (u.setReturned r)) hcount
    rw [hfault] at h
    cases h

section
variable [LinearOrder Time] {s t : State Time} {addr : Addr} {port : Port} {d : DevIndex}

theorem callReadMem_calledOnce (h : callReadMem d addr s = .next t) : CalledOnce d (.readMem d addr s.now) s t := by
  unfold callReadMem at h
  split at h
  · cases h
  · exact loggedEffect_calledOnce h

theorem callWriteMem_calledOnce {v : Byte} (h : callWriteMem d addr v s = .next t) :
    CalledOnce d (.writeMem d addr v s.now) s t := by
  unfold callWriteMem at h
  split at h
  · cases h
  · exact loggedEffect_calledOnce h

/-! ## The remaining cases of an access (R120, R121, 42_io_access.md R160, R161) -/

theorem execMrd_intercept (hi : s.intercept addr = true) : execMrd addr s = answer (s.ssrAt s.primary3 ^^^ 0xFF#8) s :=
  if_pos hi

theorem execMwr_intercept (v : Byte) (hi : s.intercept addr = true) :
    execMwr addr v s = finish (s.setSsr s.primary3 v) :=
  if_pos hi

theorem execIord_forward (hd : s.inAt port = some d) : execIord port s = callReadIO d port s := by
  simp [execIord, hd]

theorem execIowr_forward (v : Byte) (hd : s.outAt port = some d) : execIowr port v s = callWriteIO d port v s := by
  simp [execIowr, hd]

/-! ## Whom a memory access calls -/

/-- From `s` to `t` a memory access at `addr`, whose call on device `d` would be recorded as `c d`, called the
visible device once, and no device if it was intercepted or floated (R123 (d)). -/
def CallsOnlyVisible (addr : Addr) (c : DevIndex → DeviceCall Time) (s t : State Time) : Prop :=
  t.subDevices = s.subDevices ∧ t.mux = s.mux ∧
  (((s.intercept addr = true ∨ s.visible (page addr) = none) ∧ t.callLog = s.callLog ∧ t.devices = s.devices) ∨
    ∃ d, s.intercept addr = false ∧ s.visible (page addr) = some d ∧ t.callLog = s.callLog ++ [c d] ∧
      ∀ e, e ≠ d → t.deviceAt e = s.deviceAt e)

omit [LinearOrder Time] in
theorem CalledOnce.callsOnlyVisible {c : DevIndex → DeviceCall Time} (call : CalledOnce d (c d) s t)
    (hi : s.intercept addr = false) (hd : s.resolveMem addr = some d) : CallsOnlyVisible addr c s t :=
  ⟨call.subDevices, call.mux, .inr ⟨d, hi, hd, call.callLog, call.others⟩⟩

theorem execMrd_callsOnlyVisible (h : execMrd addr s = .next t) :
    CallsOnlyVisible addr (fun d => .readMem d addr s.now) s t := by
  cases hi : s.intercept addr with
  | true =>
    cases (execMrd_intercept hi).symm.trans h
    exact ⟨rfl, rfl, .inl ⟨.inl hi, rfl, rfl⟩⟩
  | false =>
    cases hd : s.resolveMem addr with
    | none =>
      cases (execMrd_float hi hd).symm.trans h
      exact ⟨rfl, rfl, .inl ⟨.inr hd, rfl, rfl⟩⟩
    | some d => exact (callReadMem_calledOnce ((execMrd_forward hi hd).symm.trans h)).callsOnlyVisible hi hd

theorem execMwr_callsOnlyVisible {v : Byte} (h : execMwr addr v s = .next t) :
    CallsOnlyVisible addr (fun d => .writeMem d addr v s.now) s t := by
  cases hi : s.intercept addr with
  | true =>
    cases (execMwr_intercept v hi).symm.trans h
    exact ⟨rfl, rfl, .inl ⟨.inl hi, rfl, rfl⟩⟩
  | false =>
    cases hd : s.resolveMem addr with
    | none =>
      cases (execMwr_float v hi hd).symm.trans h
      exact ⟨rfl, rfl, .inl ⟨.inr hd, rfl, rfl⟩⟩
    | some d => exact (callWriteMem_calledOnce ((execMwr_forward v hi hd).symm.trans h)).callsOnlyVisible hi hd

end

/-! ## The intercept -/

/-- The address SSR_ADDR alone is intercepted, while the slot of page 3 is subslotted (20_memory.md R65). -/
theorem State.intercept_iff {s : State Time} {addr : Addr} :
    s.intercept addr = true ↔ addr = Config.ssrAddr ∧ s.flagAt s.primary3 = true := by
  simp [State.intercept]

/-- Settles O16: the three cases of MRD and MWR, in the order of R122. -/
theorem memoryAccessPrecedence : Obligations.MemoryAccessPrecedence := by
  unfold Obligations.MemoryAccessPrecedence
  intro s addr v
  exact ⟨fun hi => ⟨execMrd_intercept hi, execMwr_intercept v hi⟩,
    fun hi hd => ⟨execMrd_float hi hd, execMwr_float v hi hd⟩,
    fun d hi hd => ⟨execMrd_forward hi hd, execMwr_forward v hi hd⟩⟩

/-- Settles O17: the write stores the byte in the SSR of the slot of page 3, and leaves PSR and the straps, so the
read is intercepted too and inverts that SSR. -/
theorem secondarySelectReadsBackInverted : Obligations.SecondarySelectReadsBackInverted := by
  unfold Obligations.SecondarySelectReadsBackInverted
  intro s v
  refine ⟨fun addr => State.intercept_iff, fun hflag => ?_⟩
  have hi : s.intercept Config.ssrAddr = true := State.intercept_iff.mpr ⟨rfl, hflag⟩
  have hread : (s.setSsr s.primary3 v).ssrAt s.primary3 ^^^ 0xFF#8 = ~~~v := by
    rw [State.ssrAt_setSsr, if_pos rfl]
    exact BitVec.xor_allOnes
  refine ⟨_, execMwr_intercept v hi, ?_, rfl, rfl⟩
  rw [← hread]
  exact execMrd_intercept (s := (s.setSsr s.primary3 v).setReturned .nothing) hi

/-! ## Accesses that reach a device -/

/-- Settles O19: the access is forwarded to a device other than the mux, and the call completes. -/
theorem forwardedReadsComplete : Obligations.ForwardedReadsComplete := by
  unfold Obligations.ForwardedReadsComplete
  refine ⟨fun s addr d n hi hd hmux hcount => ?_, fun s port d n hd hmux hcount => ?_⟩
  · exact (execMrd_forward hi hd).trans ((if_neg hmux).trans (loggedEffect_of_count _ _ hcount))
  · exact (execIord_forward hd).trans ((if_neg hmux).trans (loggedEffect_of_count _ _ hcount))

/-- Settles O20: the access is forwarded to a device other than the mux, and the call completes or underflows as its
upcalls say. -/
theorem forwardedWritesComplete : Obligations.ForwardedWritesComplete := by
  unfold Obligations.ForwardedWritesComplete
  refine ⟨fun s addr v d n hi hd hmux hcount => ?_,
    fun s port v d hd hmux => ⟨fun n hcount => ?_, fun hcount => ?_⟩⟩
  · exact (execMwr_forward v hi hd).trans ((if_neg hmux).trans (loggedEffect_of_count _ _ hcount))
  · exact (execIowr_forward v hd).trans ((if_neg hmux).trans (loggedEffect_of_count _ _ hcount))
  · obtain ⟨t, hfault⟩ := loggedEffect_of_underflow (.writeIO d port v s.now) finish hcount
    exact ⟨t, (execIowr_forward v hd).trans ((if_neg hmux).trans hfault)⟩

/-- Settles O22: each memory access calls the visible device or none. -/
theorem memoryAccessCallsOnlyTheVisibleDevice : Obligations.MemoryAccessCallsOnlyTheVisibleDevice := by
  unfold Obligations.MemoryAccessCallsOnlyTheVisibleDevice
  exact fun s t addr v => ⟨execMrd_callsOnlyVisible, execMwr_callsOnlyVisible⟩

end Sys2Proof.Machine
end

section
/-! SUPPORT. The select registers (41_select_registers.md): what a page shows after a write of PSR or of an SSR, and
the stored ActiveMapping of R143 beside the derived one. -/

namespace Sys2Proof.Machine

variable {Time : Type}

/-! ## The secondary slot of a page (10_state.md R26) -/

theorem State.secondary_of_subslotted {s : State Time} {pg : Quarter} (h : s.flagAt (s.primary pg) = true) :
    s.secondary pg = selectField (s.ssrAt (s.primary pg)) pg := if_pos h

theorem State.secondary_of_plain {s : State Time} {pg : Quarter} (h : s.flagAt (s.primary pg) = false) :
    s.secondary pg = 0 := by simp [State.secondary, h]

/-- A page in the slot whose SSR is written takes its secondary slot from the byte written (R141). -/
theorem State.secondary_setSsr_selected {s : State Time} {ps pg : Quarter} (v : Byte) (hps : s.primary pg = ps)
    (hflag : s.flagAt ps = true) : (s.setSsr ps v).secondary pg = selectField v pg := by
  have hwritten : (s.setSsr ps v).flagAt ((s.setSsr ps v).primary pg) = true := hps ▸ hflag
  rw [State.secondary_of_subslotted hwritten, State.setSsr_primary, State.ssrAt_setSsr, if_pos hps.symm]

/-- A page in another slot keeps its secondary slot (R141). -/
theorem State.secondary_setSsr_other {s : State Time} {ps pg : Quarter} (v : Byte) (hps : s.primary pg ≠ ps) :
    (s.setSsr ps v).secondary pg = s.secondary pg := by
  simp only [State.secondary, State.setSsr_primary, State.setSsr_flagAt, State.ssrAt_setSsr, if_neg hps.symm]

theorem State.visible_setSsr_selected {s : State Time} {ps pg : Quarter} (v : Byte) (hps : s.primary pg = ps)
    (hflag : s.flagAt ps = true) : (s.setSsr ps v).visible pg = s.slotAt ⟨ps, selectField v pg, pg⟩ := by
  rw [State.visible, State.coordOf, State.secondary_setSsr_selected v hps hflag, State.setSsr_primary, hps,
    State.setSsr_slotAt]

theorem State.visible_setSsr_other {s : State Time} {ps pg : Quarter} (v : Byte) (hps : s.primary pg ≠ ps) :
    (s.setSsr ps v).visible pg = s.visible pg := by
  simp only [State.visible, State.coordOf, State.secondary_setSsr_other v hps, State.setSsr_primary,
    State.setSsr_slotAt]

@[simp] theorem selectField_zero (pg : Quarter) : selectField 0x00#8 pg = 0 := by
  simp [selectField]

/-- While every SSR is zero every page is in secondary slot 0, subslotted or not. -/
theorem State.secondary_of_ssr_zero {s : State Time} (hssr : ∀ ps, s.ssrAt ps = 0x00#8) (pg : Quarter) :
    s.secondary pg = 0 := by
  simp [State.secondary, hssr]

/-! ## Writes of the select registers -/

/-- Settles O28: the next state is `s` with the byte in PSR, in which R26 gives the four pages. -/
theorem pswSelectsPrimarySlots : Obligations.PswSelectsPrimarySlots := by
  unfold Obligations.PswSelectsPrimarySlots
  intro s v
  refine ⟨(s.setPsr v).setReturned .nothing, rfl, rfl, fun pg => ⟨rfl, fun hflag => ?_, fun hflag => ?_, rfl⟩⟩
  · exact State.secondary_of_subslotted hflag
  · exact State.secondary_of_plain hflag

/-- Settles O18: the write is intercepted and stores the byte in the SSR of the slot of page 3; a later PSW leaves
that SSR, so a page it moves to the slot takes its field of the byte. -/
theorem secondarySelectWriteUpdatesTheMapping : Obligations.SecondarySelectWriteUpdatesTheMapping := by
  unfold Obligations.SecondarySelectWriteUpdatesTheMapping
  intro s v hflag
  have hi : s.intercept Config.ssrAddr = true := State.intercept_iff.mpr ⟨rfl, hflag⟩
  have hwrite : exec (.mwr 0xFFFF#16 v) s = .next ((s.setSsr (s.primary 3#2) v).setReturned .nothing) :=
    execMwr_intercept v hi
  generalize s.primary 3#2 = ps at hflag hwrite ⊢
  refine ⟨_, hwrite, rfl, fun q => ?_, fun pg => ⟨rfl, fun hps => ⟨?_, ?_⟩, fun hps => ⟨?_, ?_⟩⟩,
    fun w => ⟨_, rfl, fun pg hps => ?_⟩⟩
  · simp only [State.setReturned_ssrAt, State.ssrAt_setSsr, eq_comm]
  · rw [State.setReturned_secondary, State.secondary_setSsr_selected v hps hflag]
  · rw [State.setReturned_visible, State.visible_setSsr_selected v hps hflag]
  · rw [State.setReturned_secondary, State.secondary_setSsr_other v hps]
  · rw [State.setReturned_visible, State.visible_setSsr_other v hps]
  · exact State.secondary_setSsr_selected (s := s.setPsr w) v hps hflag

/-! ## The stored mapping (R143) -/

/-- Reading a mapping gives the entry it was made of. -/
@[simp] theorem StoredMapping.at_of (f : Quarter → PageMap) (pg : Quarter) : (StoredMapping.of f).at pg = f pg := by
  obtain rfl | rfl | rfl | rfl : pg = 0 ∨ pg = 1 ∨ pg = 2 ∨ pg = 3 := by revert pg; decide
  all_goals rfl

theorem StoredMapping.of_congr {f g : Quarter → PageMap} (h : ∀ pg, f pg = g pg) :
    StoredMapping.of f = StoredMapping.of g := congrArg StoredMapping.of (funext h)

theorem State.activeMapping_eq_of_coordOf (s : State Time) :
    s.activeMapping = .of fun pg => ⟨(s.coordOf pg).ps, (s.coordOf pg).ss, s.slotAt (s.coordOf pg)⟩ := rfl

/-- The derived mapping depends on PSR, SSR, the straps and SlotLayout alone (10_state.md R26). -/
theorem State.activeMapping_congr {s t : State Time} (hpsr : t.psr = s.psr) (hssr : t.ssr = s.ssr)
    (hflag : t.subslotFlag = s.subslotFlag) (hslot : ∀ c, t.slotAt c = s.slotAt c) :
    t.activeMapping = s.activeMapping := by
  rw [State.activeMapping_eq_of_coordOf, State.activeMapping_eq_of_coordOf]
  refine StoredMapping.of_congr fun pg => ?_
  rw [State.coordOf_congr hpsr hssr hflag pg, hslot]

/-- R143 after `PSR <- v` is the derived mapping of the state with that PSR. -/
theorem State.activeMapping_setPsr (s : State Time) (v : Byte) :
    (s.setPsr v).activeMapping = StoredMapping.afterPsw s v := rfl

/-- R143 after `SSR[ps] <- v`, for the slot of an intercepted write, which is subslotted (20_memory.md R65). -/
theorem State.activeMapping_setSsr {s : State Time} {ps : Quarter} (v : Byte) (hflag : s.flagAt ps = true) :
    (s.setSsr ps v).activeMapping = s.activeMapping.afterSsr s ps v := by
  refine StoredMapping.of_congr fun pg => ?_
  simp only [State.activeMapping, StoredMapping.at_of, State.setSsr_primary]
  split
  next hps => rw [hps, State.secondary_setSsr_selected v hps hflag, State.visible_setSsr_selected v hps hflag]
  next hps => rw [State.secondary_setSsr_other v hps, State.visible_setSsr_other v hps]

/-- R143 after REGSLOT or UNREGSLOT at `c`: only a page that shows `c` can show another device. -/
theorem State.activeMapping_of_slot {s t : State Time} {c : Coord} (hpsr : t.psr = s.psr) (hssr : t.ssr = s.ssr)
    (hflag : t.subslotFlag = s.subslotFlag) (hslot : ∀ e, e ≠ c → t.slotAt e = s.slotAt e) :
    t.activeMapping = s.activeMapping.afterSlot t c := by
  rw [State.activeMapping_eq_of_coordOf t]
  refine StoredMapping.of_congr fun pg => ?_
  simp only [State.activeMapping_eq_of_coordOf, StoredMapping.at_of, State.coordOf_congr hpsr hssr hflag pg]
  split
  next hshown =>
    obtain ⟨hpage, hps, hss⟩ : pg = c.pg ∧ s.primary pg = c.ps ∧ s.secondary pg = c.ss := hshown
    have hc : s.coordOf pg = c := by rw [State.coordOf, hps, hss, hpage]
    rw [hc]
  next hother =>
    have hne : s.coordOf pg ≠ c := by rintro rfl; exact hother ⟨rfl, rfl, rfl⟩
    rw [hslot _ hne]

/-- R143 after RST: every select register is zero, SlotLayout as before. -/
theorem State.activeMapping_of_zero {s t : State Time} (hpsr : t.psr = 0x00#8) (hssr : ∀ ps, t.ssrAt ps = 0x00#8)
    (hslot : ∀ c, t.slotAt c = s.slotAt c) : t.activeMapping = StoredMapping.afterRst s := by
  refine StoredMapping.of_congr fun pg => ?_
  have hps : t.primary pg = 0 := by rw [State.primary, hpsr, selectField_zero]
  have hss : t.secondary pg = 0 := State.secondary_of_ssr_zero hssr pg
  rw [State.visible, State.coordOf, hps, hss, hslot]

/-- R143 after an access whose device may have written PSR by an upcall, and nothing else of the mapping. -/
theorem State.activeMapping_of_upcalls {s t : State Time} (hssr : t.ssr = s.ssr)
    (hflag : t.subslotFlag = s.subslotFlag) (hslot : ∀ c, t.slotAt c = s.slotAt c) :
    t.activeMapping = s.activeMapping.afterUpcalls s t := by
  unfold StoredMapping.afterUpcalls
  split
  next hpsr => exact State.activeMapping_congr hpsr hssr hflag hslot
  next => exact State.activeMapping_setPsr t t.psr

/-! ## What an operation leaves of the mapping -/

section
variable {i : Instr} {s t : State}

/-- Only RST and an intercepted write change an SSR (10_state.md R25). -/
theorem exec_ssr_eq (h : exec i s = .next t) (hrst : i ≠ .rst)
    (hwrite : ∀ addr v, i = .mwr addr v → s.intercept addr = false) : t.ssr = s.ssr := by
  by_contra hne
  obtain ⟨hwriter, -⟩ := registersHaveFewWriters i s t h
  obtain hi | ⟨addr, v, hi, hintercept, -⟩ := hwriter hne
  · exact hrst hi
  · simp [hwrite addr v hi] at hintercept

/-- Only PSW and the operations that call devices change PSR (10_state.md R24). -/
theorem exec_psr_eq (h : exec i s = .next t) (hpsw : ∀ v, i ≠ .psw v) (hcalls : callsDevices i = false) :
    t.psr = s.psr := by
  by_contra hne
  obtain ⟨-, hwriter, -⟩ := registersHaveFewWriters i s t h
  obtain ⟨v, hi⟩ | hi := hwriter hne
  · exact hpsw v hi
  · simp [hcalls] at hi

/-- Only REGSLOT and UNREGSLOT at a coordinate change its entry of SlotLayout (10_state.md R22). -/
theorem exec_slotAt_eq (h : exec i s = .next t) {c : Coord} (hreg : ∀ d, i ≠ .regslot c.ps c.ss c.pg d)
    (hunreg : ∀ d, i ≠ .unregslot c.ps c.ss c.pg d) : t.slotAt c = s.slotAt c := by
  by_contra hne
  obtain ⟨d, hi⟩ | ⟨d, hi⟩ := perform_slotAt_writer (exec_eq_perform i s ▸ h) hne
  · exact hreg d hi
  · exact hunreg d hi

theorem exec_subslotFlag_eq (h : exec i s = .next t) : t.subslotFlag = s.subslotFlag :=
  (perform_straps (exec_eq_perform i s ▸ h)).1

end

/-- Settles O27: one rule of R143 per operation that writes what the mapping is derived from, and no change after
any other. -/
theorem storedMappingFollowsTheRegisters : Obligations.StoredMappingFollowsTheRegisters := by
  unfold Obligations.StoredMappingFollowsTheRegisters
  rintro i s t _ h rfl
  have hflag := exec_subslotFlag_eq h
  symm
  cases i with
  | psw v => cases h; exact s.activeMapping_setPsr v
  | rst =>
    obtain ⟨u, -, ht⟩ := andThen_eq_next.mp h
    have hslot (c : Coord) : t.slotAt c = s.slotAt c := exec_slotAt_eq h (by nofun) (by nofun)
    cases ht
    exact State.activeMapping_of_zero rfl u.ssrAt_clearSsr hslot
  | mwr addr v =>
    simp only [StoredMapping.after]
    split
    next hi =>
      cases (execMwr_intercept v hi).symm.trans h
      exact State.activeMapping_setSsr v (State.intercept_iff.mp hi).2
    next hi =>
      have hssr := exec_ssr_eq h (by nofun) fun addr v heq => by cases heq; simpa using hi
      exact State.activeMapping_of_upcalls hssr hflag fun c => exec_slotAt_eq h (by nofun) (by nofun)
  | mrd _ | iord _ | iowr _ _ =>
    have hssr := exec_ssr_eq h (by nofun) (by nofun)
    exact State.activeMapping_of_upcalls hssr hflag fun c => exec_slotAt_eq h (by nofun) (by nofun)
  | regslot ps ss pg d =>
    have hssr := exec_ssr_eq h (by nofun) (by nofun)
    exact State.activeMapping_of_slot (exec_psr_eq h (by nofun) rfl) hssr hflag fun e hne =>
      exec_slotAt_eq h (fun d' heq => hne (by cases heq; rfl)) (by nofun)
  | unregslot ps ss pg d =>
    have hssr := exec_ssr_eq h (by nofun) (by nofun)
    exact State.activeMapping_of_slot (exec_psr_eq h (by nofun) rfl) hssr hflag fun e hne =>
      exec_slotAt_eq h (by nofun) (fun d' heq => hne (by cases heq; rfl))
  | irqst | irqup | irqdn | muxrst | muxreg _ _ | muxunreg _ | regin _ _ | regout _ _ | unregin _ _ | unregout _ _
  | destroy | muxdestroy =>
    have hssr := exec_ssr_eq h (by nofun) (by nofun)
    exact State.activeMapping_congr (exec_psr_eq h (by nofun) rfl) hssr hflag fun c =>
      exec_slotAt_eq h (by nofun) (by nofun)

end Sys2Proof.Machine
end

section
/-! SUPPORT. I/O accesses (42_io_access.md): whom an access of a port calls, and that an operation on one direction of a
port leaves the table of the other. -/

namespace Sys2Proof.Machine

variable {Time : Type}

/-! ## Whom a port access calls (R160, R161; 45_switched_mux.md R214, R215) -/

/-- From `s` to `t` the mux, whose call on sub-device `j` would be recorded as `c j`, called one sub-device or none. -/
def CallsOneSubOrNone (c : SubIndex → DeviceCall Time) (s t : State Time) : Prop :=
  t.callLog = s.callLog ∨ ∃ j, t.callLog = s.callLog ++ [c j]

/-- From `s` to `t` device `d` was called with the record `c`, and after it no other, save the sub-device, recorded by
`sub`, that the mux passes the access on to. -/
def CallsDeviceOnly (d : DevIndex) (c : DeviceCall Time) (sub : SubIndex → DeviceCall Time) (s t : State Time) : Prop :=
  ∃ calls, t.callLog = s.callLog ++ c :: calls ∧ (calls = [] ∨ d = s.config.muxDev ∧ ∃ j, calls = [sub j])

theorem CalledOnce.callsDeviceOnly {d : DevIndex} {c : DeviceCall Time} {s t : State Time} (call : CalledOnce d c s t)
    (sub : SubIndex → DeviceCall Time) : CallsDeviceOnly d c sub s t :=
  ⟨[], call.callLog, .inl rfl⟩

theorem CallsOneSubOrNone.callsDeviceOnly {d : DevIndex} {c : DeviceCall Time} {sub : SubIndex → DeviceCall Time}
    {s t : State Time} (call : CallsOneSubOrNone sub (s.logCall c) t) (hmux : d = s.config.muxDev) :
    CallsDeviceOnly d c sub s t := by
  obtain hlog | ⟨j, hlog⟩ := call
  · exact ⟨[], hlog, .inl rfl⟩
  · exact ⟨[sub j], by simpa using hlog, .inr ⟨hmux, j, rfl⟩⟩

theorem runUpcalls_callLog {us : List Upcall} {s t : State Time} (h : runUpcalls us s = .next t) :
    t.callLog = s.callLog := by
  obtain ⟨n, -, h'⟩ | ⟨-, u, h', -⟩ := runUpcalls_cases us s
  · rw [h'] at h; cases h; rfl
  · rw [h'] at h; cases h

theorem loggedSubEffect_callLog {j : SubIndex} {e : Effect SubDevice} {c : DeviceCall Time} {r : Returned}
    {s t : State Time}
    (h : andThen (applySubEffect j e (s.logCall c)) (fun u => .next (u.setReturned r)) = .next t) :
    t.callLog = s.callLog ++ [c] := by
  obtain ⟨u, hu, ht⟩ := andThen_eq_next.mp h
  cases ht
  exact runUpcalls_callLog hu

section
variable [LinearOrder Time] {s t : State Time} {port : Port} {v : Byte} {d : DevIndex}

theorem muxReadIO_callsOneSubOrNone (h : muxReadIO port s = .next t) :
    CallsOneSubOrNone (.subReadIO · port s.now) s t := by
  unfold muxReadIO at h
  split at h
  · exact .inr ⟨_, loggedSubEffect_callLog h⟩
  · cases h; exact .inl rfl

theorem muxWriteIO_callsOneSubOrNone (h : muxWriteIO port v s = .next t) :
    CallsOneSubOrNone (.subWriteIO · port v s.now) s t := by
  unfold muxWriteIO at h
  split at h
  · cases h; exact .inl rfl
  · split at h
    · exact .inr ⟨_, loggedSubEffect_callLog h⟩
    · cases h; exact .inl rfl

theorem callReadIO_callsDeviceOnly (h : callReadIO d port s = .next t) :
    CallsDeviceOnly d (.readIO d port s.now) (.subReadIO · port s.now) s t := by
  unfold callReadIO at h
  split at h
  next hmux => exact (muxReadIO_callsOneSubOrNone h).callsDeviceOnly hmux
  next => exact (loggedEffect_calledOnce h).callsDeviceOnly _

theorem callWriteIO_callsDeviceOnly (h : callWriteIO d port v s = .next t) :
    CallsDeviceOnly d (.writeIO d port v s.now) (.subWriteIO · port v s.now) s t := by
  unfold callWriteIO at h
  split at h
  next hmux => exact (muxWriteIO_callsOneSubOrNone h).callsDeviceOnly hmux
  next => exact (loggedEffect_calledOnce h).callsDeviceOnly _

theorem execIord_floatsOrCalls (h : execIord port s = .next t) :
    (s.inAt port = none ∧ t.callLog = s.callLog ∧ t.returned = .byte Config.floatByte) ∨
      ∃ d, s.inAt port = some d ∧ CallsDeviceOnly d (.readIO d port s.now) (.subReadIO · port s.now) s t := by
  cases hd : s.inAt port with
  | none =>
    cases (execIord_float hd).symm.trans h
    exact .inl ⟨rfl, rfl, rfl⟩
  | some d => exact .inr ⟨d, rfl, callReadIO_callsDeviceOnly ((execIord_forward hd).symm.trans h)⟩

theorem execIowr_floatsOrCalls (h : execIowr port v s = .next t) :
    (s.outAt port = none ∧ t.callLog = s.callLog) ∨
      ∃ d, s.outAt port = some d ∧ CallsDeviceOnly d (.writeIO d port v s.now) (.subWriteIO · port v s.now) s t := by
  cases hd : s.outAt port with
  | none =>
    cases (execIowr_float v hd).symm.trans h
    exact .inl ⟨rfl, rfl⟩
  | some d => exact .inr ⟨d, rfl, callWriteIO_callsDeviceOnly ((execIowr_forward v hd).symm.trans h)⟩

end

/-! ## The table of the other direction (44_configuration.md R185 to R188) -/

section
variable {s t : State Time} {port : Port} {d : DevRef}

theorem execRegin_ioOut (h : execRegin port d s = .next t) : t.ioOut = s.ioOut := by
  obtain ⟨i, -, -, h⟩ := withDevice_next h
  cases h
  rw [claimIn_frame]
  rfl

theorem execRegout_ioIn (h : execRegout port d s = .next t) : t.ioIn = s.ioIn := by
  obtain ⟨i, -, -, h⟩ := withDevice_next h
  cases h
  rw [claimOut_frame]
  rfl

theorem execUnregin_ioOut (h : execUnregin port d s = .next t) : t.ioOut = s.ioOut := by
  obtain ⟨i, -, -, h⟩ := withDevice_next h
  obtain ⟨u, hu, ht⟩ := andThen_eq_next.mp h
  cases ht
  obtain ⟨-, rfl⟩ := releaseIn_next hu
  rw [State.strike_eq]
  rfl

theorem execUnregout_ioIn (h : execUnregout port d s = .next t) : t.ioIn = s.ioIn := by
  obtain ⟨i, -, -, h⟩ := withDevice_next h
  obtain ⟨u, hu, ht⟩ := andThen_eq_next.mp h
  cases ht
  obtain ⟨-, rfl⟩ := releaseOut_next hu
  rw [State.strike_eq]
  rfl

end

/-- Settles O30: an access floats or calls the owner of its direction, and each operation on one direction leaves the
table of the other. -/
theorem portDirectionsAreIndependent : Obligations.PortDirectionsAreIndependent := by
  unfold Obligations.PortDirectionsAreIndependent
  refine fun s t port v d => ⟨fun h => ?_, fun h => ?_, ?_, ?_⟩
  · obtain hfloat | ⟨e, he, calls, hcall⟩ := execIord_floatsOrCalls h
    · exact .inl hfloat
    · exact .inr ⟨e, calls, he, hcall⟩
  · obtain hfloat | ⟨e, he, calls, hcall⟩ := execIowr_floatsOrCalls h
    · exact .inl hfloat
    · exact .inr ⟨e, calls, he, hcall⟩
  · rintro (h | h | h)
    · exact execRegin_ioOut h
    · exact execUnregin_ioOut h
    · obtain ⟨-, -, hout, -⟩ := onlyTheBuilderWritesTables (.iord port) s t (by nofun) h
      exact hout
  · rintro (h | h | h)
    · exact execRegout_ioIn h
    · exact execUnregout_ioIn h
    · obtain ⟨-, hin, -⟩ := onlyTheBuilderWritesTables (.iowr port v) s t (by nofun) h
      exact hin

end Sys2Proof.Machine
end

section
/-! SUPPORT. The interrupt aggregator (43_interrupt_aggregator.md): its three operations, and where a series of raises
and lowers leaves the count. -/

namespace Sys2Proof

/-- An operation that every decoder check passes is spelled by its own word alone (30_encoding.md R99). -/
theorem decode_eq_ok_iff_of_wf {w : Word} {i : Instr} (hwf : i.wf = true) : decode w = .ok i ↔ w = encode i := by
  rw [decode_eq_ok_iff, eq_comm (a := w)]
  exact and_iff_left hwf

/-- The operation that does, between two accesses, what the upcall does inside one (20_memory.md R81). -/
def Upcall.op : Upcall → Instr
  | .irqUp => .irqup
  | .irqDn => .irqdn
  | .psw v => .psw v

end Sys2Proof

namespace Sys2Proof.Machine

/-! ## The line (10_state.md R31) -/

theorem State.irq_eq_true_iff {Time : Type} {s : State Time} : s.irq = true ↔ 0 < s.irqCount := decide_eq_true_iff

theorem State.irq_eq_false_iff {Time : Type} {s : State Time} : s.irq = false ↔ s.irqCount = 0 := by
  simp [State.irq]

/-! ## One raise, one lower (R170, R171) -/

theorem raisedCount_of_lt {n m : Nat} (h : n < m) : raisedCount (some m) n = n + 1 := if_pos h

theorem raisedCount_of_le {n m : Nat} (h : m ≤ n) : raisedCount (some m) n = n := if_neg (Nat.not_lt.mpr h)

/-- A raise leaves the count above zero, unless the bound is 0. -/
theorem raisedCount_pos {bound : Option Nat} (h : bound ≠ some 0) (n : Nat) : 0 < raisedCount bound n := by
  cases bound with
  | none => exact n.succ_pos
  | some m =>
    have hm : m ≠ 0 := fun h0 => h (by rw [h0])
    obtain hn | hn := Nat.lt_or_ge n m
    · rw [raisedCount_of_lt hn]; omega
    · rw [raisedCount_of_le hn]; omega

theorem exec_irqst (s : State) : exec .irqst s = .next (s.setReturned (.bool s.irq)) := rfl

theorem exec_irqup (s : State) : exec .irqup s = .next ((raiseIrq s).setReturned .nothing) := rfl

theorem exec_irqdn_of_pos {s : State} (h : s.irqCount ≠ 0) :
    exec .irqdn s = .next ((s.setIrqCount (s.irqCount - 1)).setReturned .nothing) :=
  congrArg (andThen · finish) (lowerIrq_of_pos h)

theorem exec_irqdn_of_zero {s : State} (h : s.irqCount = 0) :
    exec .irqdn s = .fault (.fatal .irqUnderflow (s.setFault (some .irqUnderflow))) :=
  congrArg (andThen · finish) (lowerIrq_of_zero h)

theorem exec_rst_irqCount {s t : State} (h : exec .rst s = .next t) : t.irqCount = 0 := by
  obtain ⟨u, -, ht⟩ := andThen_eq_next.mp h
  cases ht
  rfl

/-! ## A series of raises and lowers -/

/-- Upcalls issued as operations leave the count where they leave it inside an access. -/
theorem execAll_ops_of_count {us : List Upcall} {s : State} {n : Nat}
    (h : countAfter s.config.irqCountMax us s.irqCount = some n) :
    ∃ t, execAll (us.map Upcall.op) s = .next t ∧ t.irqCount = n := by
  induction us generalizing s with
  | nil => exact ⟨s, rfl, Option.some.inj h⟩
  | cons u us ih =>
    cases u with
    | irqUp => exact ih (s := (raiseIrq s).setReturned .nothing) h
    | psw v => exact ih (s := (s.setPsr v).setReturned .nothing) h
    | irqDn =>
      simp only [countAfter] at h
      split at h
      next => cases h
      next hn =>
        rw [List.map_cons, Upcall.op, execAll, exec_irqdn_of_pos hn]
        exact ih (s := (s.setIrqCount (s.irqCount - 1)).setReturned .nothing) h

/-- Upcalls that lower at 0 end in F_IRQ_UNDERFLOW when they are issued as operations, too. -/
theorem execAll_ops_of_underflow {us : List Upcall} {s : State}
    (h : countAfter s.config.irqCountMax us s.irqCount = none) :
    ∃ t, execAll (us.map Upcall.op) s = .fault (.fatal .irqUnderflow t) := by
  induction us generalizing s with
  | nil => cases h
  | cons u us ih =>
    cases u with
    | irqUp => exact ih (s := (raiseIrq s).setReturned .nothing) h
    | psw v => exact ih (s := (s.setPsr v).setReturned .nothing) h
    | irqDn =>
      simp only [countAfter] at h
      rw [List.map_cons, Upcall.op, execAll]
      split at h
      next hn => exact ⟨_, by rw [exec_irqdn_of_zero hn]; rfl⟩
      next hn =>
        rw [exec_irqdn_of_pos hn]
        exact ih (s := (s.setIrqCount (s.irqCount - 1)).setReturned .nothing) h

theorem map_op_raises_lowers (n k : Nat) :
    (List.replicate n Upcall.irqUp ++ List.replicate k Upcall.irqDn).map Upcall.op =
      List.replicate n .irqup ++ List.replicate k .irqdn := by
  simp [Upcall.op]

/-- Raises within the bound are all counted. -/
theorem countAfter_raises {bound : Option Nat} {n k : Nat} (h : ∀ m, bound = some m → k + n ≤ m) :
    countAfter bound (List.replicate n .irqUp) k = some (k + n) := by
  induction n generalizing k with
  | zero => rfl
  | succ n ih =>
    have hraise : raisedCount bound k = k + 1 := by
      cases bound with
      | none => rfl
      | some m => exact raisedCount_of_lt (by have := h m rfl; omega)
    rw [List.replicate_succ, countAfter, hraise, ih fun m hm => by have := h m hm; omega]
    congr 1; omega

/-- Raises at the bound are absorbed (R176, D13). -/
theorem countAfter_raises_at_bound (n m : Nat) :
    countAfter (some m) (List.replicate n .irqUp) m = some m := by
  induction n with
  | zero => rfl
  | succ n ih => rw [List.replicate_succ, countAfter, raisedCount_of_le (Nat.le_refl m), ih]

/-- From 0, as many raises as the bound, or more, reach it and stay there. -/
theorem countAfter_raises_absorbed {n m : Nat} (h : m ≤ n) :
    countAfter (some m) (List.replicate n .irqUp) 0 = some m := by
  have hreach : countAfter (some m) (List.replicate m .irqUp) 0 = some m := by
    simpa using countAfter_raises (bound := some m) (n := m) (k := 0) (by simp)
  obtain ⟨j, rfl⟩ := Nat.exists_eq_add_of_le h
  rw [List.replicate_add, countAfter_append, hreach]
  exact countAfter_raises_at_bound j m

/-- Lowers are taken away one by one, and one too many is fatal. -/
theorem countAfter_lowers (bound : Option Nat) (n k : Nat) :
    countAfter bound (List.replicate n .irqDn) k = if n ≤ k then some (k - n) else none := by
  induction n generalizing k with
  | zero => rfl
  | succ n ih =>
    cases k with
    | zero => rfl
    | succ k =>
      rw [List.replicate_succ, countAfter, if_neg k.succ_ne_zero, ih]
      simp

/-- Within the bound, `n` raises from 0 and `k ≤ n` lowers leave `n - k`. -/
theorem countAfter_raises_lowers {bound : Option Nat} {n k : Nat} (h : ∀ m, bound = some m → n ≤ m)
    (hk : k ≤ n) : countAfter bound (List.replicate n .irqUp ++ List.replicate k .irqDn) 0 = some (n - k) := by
  rw [countAfter_append, countAfter_raises (by simpa using h), Nat.zero_add, Option.bind_some, countAfter_lowers,
    if_pos hk]

/-! ## The OR reading of the line (R173) -/

/-- Setting one bit takes its old value out of the number of bits that are 1 and puts its new value in. -/
theorem count_set_bit (bits : RequestBits) (d : DevIndex) (b : Bool) :
    (bits.set d.val b).toList.count true =
      bits.toList.count true - (if bits[d.val] then 1 else 0) + if b then 1 else 0 := by
  rw [Vector.toList_set, List.count_set (by simp)]
  simp

theorem count_ne_zero_of_bit {bits : RequestBits} {d : DevIndex} (h : bits[d.val] = true) :
    bits.toList.count true ≠ 0 :=
  Nat.ne_of_gt (List.count_pos_iff.mpr (by rw [← h]; simp))

/-- A change of one request bit raises or lowers the count as it changes the number of bits that are 1. -/
theorem requestOps_count (bits : RequestBits) (d : DevIndex) (b : Bool) :
    ∃ us : List Upcall, requestOps bits d b = us.map Upcall.op ∧
      countAfter none us (bits.toList.count true) = some ((bits.set d.val b).toList.count true) := by
  rw [count_set_bit]
  unfold requestOps
  split
  next hd => exact ⟨[.irqUp], rfl, by simp [hd, countAfter, raisedCount]⟩
  next hd => exact ⟨[.irqDn], rfl, by rw [hd, countAfter, if_neg (count_ne_zero_of_bit hd)]; rfl⟩
  next hd => exact ⟨[], rfl, by simp [hd, countAfter]⟩
  next hd =>
    have hpos := Nat.pos_of_ne_zero (count_ne_zero_of_bit hd)
    exact ⟨[], rfl, by simp only [countAfter, hd, if_true, Nat.sub_add_cancel hpos]⟩

/-- Under the discipline of R173 the count follows the number of bits that are 1. -/
theorem disciplinedOps_count (es : List (DevIndex × Bool)) (bits : RequestBits) :
    ∃ us : List Upcall, disciplinedOps es bits = us.map Upcall.op ∧
      countAfter none us (bits.toList.count true) = some ((bitsAfter es bits).toList.count true) := by
  induction es generalizing bits with
  | nil => exact ⟨[], rfl, rfl⟩
  | cons e es ih =>
    obtain ⟨d, b⟩ := e
    obtain ⟨us, hus, hcount⟩ := requestOps_count bits d b
    obtain ⟨vs, hvs, hrest⟩ := ih (bits.set d.val b)
    refine ⟨us ++ vs, by rw [disciplinedOps, hus, hvs, List.map_append], ?_⟩
    rw [countAfter_append, hcount]
    exact hrest

theorem count_pos_iff_exists_bit (bits : RequestBits) :
    0 < bits.toList.count true ↔ ∃ d : DevIndex, bits[d.val] = true := by
  rw [List.count_pos_iff, Vector.mem_toList_iff, Vector.mem_iff_getElem]
  exact ⟨fun ⟨i, hi, h⟩ => ⟨⟨i, hi⟩, h⟩, fun ⟨d, h⟩ => ⟨d.val, d.isLt, h⟩⟩

/-! ## The obligations -/

/-- Settles O33: within the bound N raises are all counted, so N lowers end at 0 and N - 1 lowers at 1. -/
theorem irqstReportsTheLine : Obligations.IrqstReportsTheLine := by
  unfold Obligations.IrqstReportsTheLine
  refine ⟨fun w => decode_eq_ok_iff_of_wf rfl, exec_irqst, fun s n h0 hbound => ?_⟩
  have run {k : Nat} (hk : k ≤ n) : ∃ t, execAll (List.replicate n .irqup ++ List.replicate k .irqdn) s = .next t ∧
      t.irqCount = n - k := by
    rw [← map_op_raises_lowers]
    exact execAll_ops_of_count (h0 ▸ countAfter_raises_lowers hbound hk)
  constructor
  · obtain ⟨t, ht, hcount⟩ := run (Nat.le_refl n)
    have hirq : t.irq = false := State.irq_eq_false_iff.mpr (by omega)
    exact ⟨t, ht, hirq ▸ exec_irqst t⟩
  · intro hn
    obtain ⟨t, ht, hcount⟩ := run (Nat.sub_le n 1)
    have hirq : t.irq = true := State.irq_eq_true_iff.mpr (by omega)
    exact ⟨t, ht, hirq ▸ exec_irqst t⟩

/-- Settles O34: the count stops at the bound `m`, so lower number `m + 1` finds it at 0. -/
theorem boundedCounterAbsorbsRaises : Obligations.BoundedCounterAbsorbsRaises := by
  unfold Obligations.BoundedCounterAbsorbsRaises
  intro s n m h0 hbound hmn
  have hraises := countAfter_raises_absorbed (Nat.le_of_lt hmn)
  constructor
  · have hrun := execAll_ops_of_count (us := List.replicate n .irqUp) (s := s) (by rw [h0, hbound, hraises])
    rwa [List.map_replicate] at hrun
  · rw [← map_op_raises_lowers]
    refine execAll_ops_of_underflow ?_
    rw [h0, hbound, countAfter_append, hraises, Option.bind_some, countAfter_lowers, if_neg (Nat.not_le.mpr hmn)]

/-- Settles O35, by induction on the changes of the request bits. -/
theorem disciplinedLineIsTheOr : Obligations.DisciplinedLineIsTheOr := by
  unfold Obligations.DisciplinedLineIsTheOr
  intro es bits s hbound hs
  obtain ⟨us, hus, hcount⟩ := disciplinedOps_count es bits
  obtain ⟨t, ht, htcount⟩ := execAll_ops_of_count (s := s) (by rw [hbound, hs, hcount])
  refine ⟨t, hus ▸ ht, htcount, ?_⟩
  rw [State.irq_eq_true_iff, htcount]
  exact count_pos_iff_exists_bit _

/-- Settles O31, by the cases of `raisedCount`. -/
theorem irqupRaisesTheCount : Obligations.IrqupRaisesTheCount := by
  unfold Obligations.IrqupRaisesTheCount
  refine ⟨fun w => decode_eq_ok_iff_of_wf rfl, fun s => ⟨_, exec_irqup s, rfl, fun h => ?_, fun m h hm => ?_,
    fun m h hm => ?_, fun h => State.irq_eq_true_iff.mpr (raisedCount_pos h s.irqCount)⟩⟩
  all_goals change raisedCount s.config.irqCountMax s.irqCount = _; rw [h]
  · rfl
  · exact raisedCount_of_lt hm
  · exact raisedCount_of_le hm

/-- Settles O32: a lower is fatal exactly at 0, which is where RST leaves the count. -/
theorem irqdnLowersTheCount : Obligations.IrqdnLowersTheCount := by
  unfold Obligations.IrqdnLowersTheCount
  refine ⟨fun w => decode_eq_ok_iff_of_wf rfl, fun s => ⟨exec_irqdn_of_zero,
    fun hpos => ⟨exec_irqdn_of_pos hpos, ?_⟩, fun t h => ⟨_, exec_irqdn_of_zero (exec_rst_irqCount h)⟩⟩⟩
  rw [State.irq_eq_false_iff]
  change s.irqCount - 1 = 0 ↔ s.irqCount = 1
  omega

end Sys2Proof.Machine
end

section
/-! SUPPORT. Configuration (44_configuration.md): what each registration and unregistration does, that the two of a pair
undo each other, and who can lose a claim. -/

namespace Sys2Proof

/-- The word of an operation with a port and a device operand, and the check of the latter (30_encoding.md R99, R100). -/
theorem decode_eq_ok_iff_of_portAndDevice {kind : BitVec 4} {port : Port} {d : DevRef} {w : Word} {i : Instr}
    (hword : encode i = packWord kind 0 (packByte port) d) (hwf : i.wf = (d != 0xFF#8)) :
    decode w = .ok i ↔ d ≠ 0xFF#8 ∧ w = (kind ++ 0#4 ++ 0#8 : BitVec 16) ++ port ++ d := by
  rw [decode_eq_ok_iff, hword, hwf, packWord_packByte, bne_iff_ne, eq_comm (b := w)]
  exact and_comm

end Sys2Proof

namespace Sys2Proof.Machine

variable {Time : Type}

/-! ## The six operations on a device operand that names a device of the machine -/

section
variable {s : State} {d : DevRef} {i : DevIndex} (hd : deviceIndex d = some i) (hi : i.val < s.config.nDev)
include hd hi

theorem exec_regin (port : Port) : exec (.regin port d) s = .next ((claimIn port i s).setReturned .nothing) :=
  withDevice_of _ hd hi

theorem exec_regout (port : Port) : exec (.regout port d) s = .next ((claimOut port i s).setReturned .nothing) :=
  withDevice_of _ hd hi

theorem exec_regslot (ps ss pg : Quarter) :
    exec (.regslot ps ss pg d) s = .next ((claimSlot ⟨ps, ss, pg⟩ i s).setReturned .nothing) :=
  withDevice_of _ hd hi

theorem exec_unregin (port : Port) : exec (.unregin port d) s = andThen (releaseIn port i s) finish :=
  withDevice_of _ hd hi

theorem exec_unregout (port : Port) : exec (.unregout port d) s = andThen (releaseOut port i s) finish :=
  withDevice_of _ hd hi

theorem exec_unregslot (ps ss pg : Quarter) :
    exec (.unregslot ps ss pg d) s = andThen (releaseSlot ⟨ps, ss, pg⟩ i s) finish :=
  withDevice_of _ hd hi

theorem exec_unregin_other {port : Port} (hother : s.inAt port ≠ some i) :
    exec (.unregin port d) s = .fault (.fatal .unregInNotOwner (s.setFault (some .unregInNotOwner))) := by
  rw [exec_unregin hd hi, releaseIn_other hother]; rfl

theorem exec_unregout_other {port : Port} (hother : s.outAt port ≠ some i) :
    exec (.unregout port d) s = .fault (.fatal .unregOutNotOwner (s.setFault (some .unregOutNotOwner))) := by
  rw [exec_unregout hd hi, releaseOut_other hother]; rfl

theorem exec_unregslot_other {ps ss pg : Quarter} (hother : s.slotAt ⟨ps, ss, pg⟩ ≠ some i) :
    exec (.unregslot ps ss pg d) s = .fault (.fatal .unregSlotNotOwner (s.setFault (some .unregSlotNotOwner))) := by
  rw [exec_unregslot hd hi, releaseSlot_other hother]; rfl

end

/-! ## ResetOrder at a first and at a last claim (R193) -/

theorem State.enroll_of_owner {s : State Time} {d : DevIndex} (h : s.owns d ≠ 0) : s.enroll d = s := if_neg h

@[simp] theorem State.enroll_config (s : State Time) (d : DevIndex) : (s.enroll d).config = s.config := by
  rw [State.enroll_eq]; rfl

@[simp] theorem State.strike_inAt (s : State Time) (d : DevIndex) (p : Port) : (s.strike d).inAt p = s.inAt p := by
  rw [State.strike_eq]; rfl

@[simp] theorem State.strike_outAt (s : State Time) (d : DevIndex) (p : Port) : (s.strike d).outAt p = s.outAt p := by
  rw [State.strike_eq]; rfl

@[simp] theorem State.strike_slotAt (s : State Time) (d : DevIndex) (c : Coord) : (s.strike d).slotAt c = s.slotAt c := by
  rw [State.strike_eq]; rfl

@[simp] theorem State.strike_config (s : State Time) (d : DevIndex) : (s.strike d).config = s.config := by
  rw [State.strike_eq]; rfl

/-- A device that has given back one claim is struck off if that was its only one. -/
theorem State.strike_of_release {s u : State Time} {d : DevIndex} (h : u.owns d + 1 = s.owns d) :
    u.strike d = u.setResetOrder (if s.owns d = 1 then u.resetOrder.filter fun e => e ≠ d else u.resetOrder) := by
  have hlast : u.owns d = 0 ↔ s.owns d = 1 := by omega
  simp only [State.strike_eq, hlast]

theorem State.strike_setIn {s : State Time} {p : Port} {d : DevIndex} (h : s.inAt p = some d) :
    (s.setIn p none).strike d =
      (s.setIn p none).setResetOrder (if s.owns d = 1 then s.resetOrder.filter fun e => e ≠ d else s.resetOrder) :=
  State.strike_of_release (by simpa [h] using s.owns_setIn p none d)

theorem State.strike_setOut {s : State Time} {p : Port} {d : DevIndex} (h : s.outAt p = some d) :
    (s.setOut p none).strike d =
      (s.setOut p none).setResetOrder (if s.owns d = 1 then s.resetOrder.filter fun e => e ≠ d else s.resetOrder) :=
  State.strike_of_release (by simpa [h] using s.owns_setOut p none d)

theorem State.strike_setSlot {s : State Time} {c : Coord} {d : DevIndex} (h : s.slotAt c = some d) :
    (s.setSlot c none).strike d =
      (s.setSlot c none).setResetOrder (if s.owns d = 1 then s.resetOrder.filter fun e => e ≠ d else s.resetOrder) :=
  State.strike_of_release (by simpa [h] using s.owns_setSlot c none d)

/-! ## Claims that stand (R192) -/

@[simp] theorem claimIn_config (p : Port) (d : DevIndex) (s : State Time) : (claimIn p d s).config = s.config := by
  rw [claimIn_frame]

@[simp] theorem claimOut_config (p : Port) (d : DevIndex) (s : State Time) : (claimOut p d s).config = s.config := by
  rw [claimOut_frame]

@[simp] theorem claimSlot_config (c : Coord) (d : DevIndex) (s : State Time) : (claimSlot c d s).config = s.config := by
  rw [claimSlot_frame]

/-- Every claim of `s` stands in `t`, with its owner. -/
structure ClaimsStand (s t : State Time) : Prop where
  inAt : ∀ p d, s.inAt p = some d → t.inAt p = some d
  outAt : ∀ p d, s.outAt p = some d → t.outAt p = some d
  slotAt : ∀ c d, s.slotAt c = some d → t.slotAt c = some d

theorem ClaimsStand.trans {s t u : State Time} (h : ClaimsStand s t) (k : ClaimsStand t u) : ClaimsStand s u where
  inAt p d hp := k.inAt p d (h.inAt p d hp)
  outAt p d hp := k.outAt p d (h.outAt p d hp)
  slotAt c d hc := k.slotAt c d (h.slotAt c d hc)

theorem ClaimsStand.of_tables {s t : State Time} (hslot : t.slotLayout = s.slotLayout) (hin : t.ioIn = s.ioIn)
    (hout : t.ioOut = s.ioOut) : ClaimsStand s t where
  inAt p d hp := by simpa only [State.inAt, hin] using hp
  outAt p d hp := by simpa only [State.outAt, hout] using hp
  slotAt c d hc := by simpa only [State.slotAt, hslot] using hc

/-- The first owner keeps the entry (R185). -/
theorem claimIn_stand (q : Port) (e : DevIndex) (s : State Time) : ClaimsStand s (claimIn q e s) where
  inAt p d hp := by
    cases hq : s.inAt q with
    | some o => rw [claimIn_taken e hq]; exact hp
    | none =>
      have hne : q ≠ p := fun h => by rw [h, hp] at hq; cases hq
      simpa [claimIn_free e hq, hne] using hp
  outAt p d hp := by rw [claimIn_frame]; exact hp
  slotAt c d hc := by rw [claimIn_frame]; exact hc

theorem claimOut_stand (q : Port) (e : DevIndex) (s : State Time) : ClaimsStand s (claimOut q e s) where
  inAt p d hp := by rw [claimOut_frame]; exact hp
  outAt p d hp := by
    cases hq : s.outAt q with
    | some o => rw [claimOut_taken e hq]; exact hp
    | none =>
      have hne : q ≠ p := fun h => by rw [h, hp] at hq; cases hq
      simpa [claimOut_free e hq, hne] using hp
  slotAt c d hc := by rw [claimOut_frame]; exact hc

theorem claimSlot_stand (q : Coord) (e : DevIndex) (s : State Time) : ClaimsStand s (claimSlot q e s) where
  inAt p d hp := by rw [claimSlot_frame]; exact hp
  outAt p d hp := by rw [claimSlot_frame]; exact hp
  slotAt c d hc := by
    cases hq : s.slotAt q with
    | some o => rw [claimSlot_taken e hq]; exact hc
    | none =>
      have hne : q ≠ c := fun h => by rw [h, hc] at hq; cases hq
      simpa [claimSlot_free e hq, hne] using hc

theorem claimWindowPorts_stand (is : List (BitVec 4)) (s : State Time) : ClaimsStand s (is.foldl claimWindowPort s) := by
  induction is generalizing s with
  | nil => exact .of_tables rfl rfl rfl
  | cons i is ih => exact ((claimIn_stand _ _ s).trans (claimOut_stand _ _ _)).trans (ih _)

theorem setSub_stand (id : Byte) (j : Option SubIndex) (s : State Time) : ClaimsStand s (s.setSub id j) :=
  .of_tables rfl rfl rfl

theorem muxRegister_stand (id : Byte) (j : SubIndex) (s : State Time) : ClaimsStand s (muxRegister id j s) := by
  unfold muxRegister
  repeat' split
  · exact .of_tables rfl rfl rfl
  · exact setSub_stand id _ s
  · exact (claimWindowPorts_stand windowOffsets s).trans (setSub_stand id _ _)

/-- Only the three unregistrations on a device and the mux's take a claim away. -/
theorem perform_claimsStand [LinearOrder Time] {i : Instr} {s t : State Time} (hin : ∀ p r, i ≠ .unregin p r)
    (hout : ∀ p r, i ≠ .unregout p r) (hslot : ∀ ps ss pg r, i ≠ .unregslot ps ss pg r) (hmux : ∀ id, i ≠ .muxunreg id)
    (h : perform i s = .next t) : ClaimsStand s t := by
  have finished (u : State Time) : ClaimsStand u (u.setReturned .nothing) := .of_tables rfl rfl rfl
  cases i with
  | regin p r => obtain ⟨i, -, -, h⟩ := withDevice_next h; cases h; exact (claimIn_stand p i s).trans (finished _)
  | regout p r => obtain ⟨i, -, -, h⟩ := withDevice_next h; cases h; exact (claimOut_stand p i s).trans (finished _)
  | regslot ps ss pg r =>
    obtain ⟨i, -, -, h⟩ := withDevice_next h; cases h; exact (claimSlot_stand _ i s).trans (finished _)
  | muxreg id r =>
    simp only [perform, execMuxreg] at h
    obtain ⟨-, h⟩ := withMux_next h
    split at h
    · cases h
    · cases h; exact (muxRegister_stand id _ s).trans (finished _)
  | destroy => rw [perform_destroy_next h]; exact .of_tables rfl rfl rfl
  | muxdestroy =>
    simp only [perform, execMuxdestroy] at h
    obtain ⟨-, h⟩ := withMux_next h
    split at h <;> cases h
    exact .of_tables rfl rfl rfl
  | unregin p r => exact absurd rfl (hin p r)
  | unregout p r => exact absurd rfl (hout p r)
  | unregslot ps ss pg r => exact absurd rfl (hslot ps ss pg r)
  | muxunreg id => exact absurd rfl (hmux id)
  | mrd _ | mwr _ _ | iord _ | iowr _ _ | irqst | irqup | irqdn | psw _ | rst | muxrst =>
    rw [perform_steady (by simp [role]) h]; exact .of_tables rfl rfl rfl

/-! ## The release of the mux's window (45_switched_mux.md R218) -/

/-- An entry is as it was, or `m` owned it and it is empty. -/
def EntryReleased (m : DevIndex) (x y : Option DevIndex) : Prop := y = x ∨ (x = some m ∧ y = none)

theorem EntryReleased.trans {m : DevIndex} {x y z : Option DevIndex} (h : EntryReleased m x y)
    (k : EntryReleased m y z) : EntryReleased m x z := by
  obtain rfl | ⟨hx, rfl⟩ := h
  · exact k
  · obtain rfl | ⟨hm, -⟩ := k
    · exact .inr ⟨hx, rfl⟩
    · cases hm

theorem EntryReleased.owner {m d : DevIndex} {x y : Option DevIndex} (h : EntryReleased m x y) (hx : x = some d) :
    y = some d ∨ (y = none ∧ d = m) := by
  obtain rfl | ⟨hm, hy⟩ := h
  · exact .inl hx
  · exact .inr ⟨hy, Option.some.inj (hx.symm.trans hm)⟩

/-- No entry differs but those of which `m` gave up a port. -/
structure PortsReleased (m : DevIndex) (s t : State Time) : Prop where
  inAt : ∀ p, EntryReleased m (s.inAt p) (t.inAt p)
  outAt : ∀ p, EntryReleased m (s.outAt p) (t.outAt p)
  slotAt : ∀ c, t.slotAt c = s.slotAt c

theorem PortsReleased.trans {m : DevIndex} {s t u : State Time} (h : PortsReleased m s t) (k : PortsReleased m t u) :
    PortsReleased m s u where
  inAt p := (h.inAt p).trans (k.inAt p)
  outAt p := (h.outAt p).trans (k.outAt p)
  slotAt c := (k.slotAt c).trans (h.slotAt c)

theorem PortsReleased.of_tables {m : DevIndex} {s t : State Time} (hslot : t.slotLayout = s.slotLayout)
    (hin : t.ioIn = s.ioIn) (hout : t.ioOut = s.ioOut) : PortsReleased m s t where
  inAt p := .inl (by simp only [State.inAt, hin])
  outAt p := .inl (by simp only [State.outAt, hout])
  slotAt c := by simp only [State.slotAt, hslot]

theorem releaseIn_portsReleased {q : Port} {m : DevIndex} {s t : State Time} (h : releaseIn q m s = .next t) :
    PortsReleased m s t := by
  obtain ⟨howner, rfl⟩ := releaseIn_next h
  refine ⟨fun p => ?_, fun p => .inl (by simp), fun c => by simp⟩
  by_cases hp : q = p
  · exact .inr ⟨hp ▸ howner, by simp [hp]⟩
  · exact .inl (by simp [hp])

theorem releaseOut_portsReleased {q : Port} {m : DevIndex} {s t : State Time} (h : releaseOut q m s = .next t) :
    PortsReleased m s t := by
  obtain ⟨howner, rfl⟩ := releaseOut_next h
  refine ⟨fun p => .inl (by simp), fun p => ?_, fun c => by simp⟩
  by_cases hp : q = p
  · exact .inr ⟨hp ▸ howner, by simp [hp]⟩
  · exact .inl (by simp [hp])

theorem releaseIn_config {q : Port} {d : DevIndex} {s t : State Time} (h : releaseIn q d s = .next t) :
    t.config = s.config := by
  obtain ⟨-, rfl⟩ := releaseIn_next h
  simp

theorem releaseOut_config {q : Port} {d : DevIndex} {s t : State Time} (h : releaseOut q d s = .next t) :
    t.config = s.config := by
  obtain ⟨-, rfl⟩ := releaseOut_next h
  simp

theorem releasePorts_portsReleased {is : List (BitVec 4)} {s t : State Time} (h : releasePorts is s = .next t) :
    PortsReleased s.config.muxDev s t := by
  induction is generalizing s with
  | nil => cases h; exact .of_tables rfl rfl rfl
  | cons i is ih =>
    obtain ⟨u, hu, h⟩ := andThen_eq_next.mp h
    obtain ⟨v, hv, h⟩ := andThen_eq_next.mp h
    have hrest := ih h
    have hout := releaseOut_portsReleased hv
    rw [releaseOut_config hv, releaseIn_config hu] at hrest
    rw [releaseIn_config hu] at hout
    exact ((releaseIn_portsReleased hu).trans hout).trans hrest

theorem execMuxunreg_portsReleased {id : Byte} {s t : State Time} (h : execMuxunreg id s = .next t) :
    PortsReleased s.config.muxDev s t := by
  simp only [execMuxunreg] at h
  obtain ⟨-, h⟩ := withMux_next h
  repeat' split at h
  · cases h
  · cases h; exact .of_tables rfl rfl rfl
  · obtain ⟨u, hu, ht⟩ := andThen_eq_next.mp h
    cases ht
    have hentry : PortsReleased s.config.muxDev s (s.setSub id none) := .of_tables rfl rfl rfl
    exact (hentry.trans (releasePorts_portsReleased hu)).trans (.of_tables rfl rfl rfl)

/-! ## The obligations on one registration or unregistration -/

/-- Settles O37, by the two cases of the claim. -/
theorem reginClaimsAPort : Obligations.ReginClaimsAPort := by
  unfold Obligations.ReginClaimsAPort
  refine ⟨fun w port d => decode_eq_ok_iff_of_portAndDevice (kind := 0xB) rfl rfl,
    fun s port d i hd hi => ⟨fun hfree => ?_, fun owner htaken => ?_⟩⟩
  · rw [exec_regin hd hi, claimIn_free i hfree, State.enroll_eq]; rfl
  · rw [exec_regin hd hi, claimIn_taken i htaken]; rfl

/-- Settles O38, by the two cases of the claim. -/
theorem regoutClaimsAPort : Obligations.RegoutClaimsAPort := by
  unfold Obligations.RegoutClaimsAPort
  refine ⟨fun w port d => decode_eq_ok_iff_of_portAndDevice (kind := 0xC) rfl rfl,
    fun s port d i hd hi => ⟨fun hfree => ?_, fun owner htaken => ?_⟩⟩
  · rw [exec_regout hd hi, claimOut_free i hfree, State.enroll_eq]; rfl
  · rw [exec_regout hd hi, claimOut_taken i htaken]; rfl

/-- Settles O40: the owner's release is its last exactly if it owned one claim. -/
theorem unreginReleasesAPort : Obligations.UnreginReleasesAPort := by
  unfold Obligations.UnreginReleasesAPort
  refine fun s port d i hd hi => ⟨fun howner => ?_, exec_unregin_other hd hi⟩
  rw [exec_unregin hd hi, releaseIn_owner howner, State.strike_setIn howner]; rfl

/-- Settles O41: the owner's release is its last exactly if it owned one claim. -/
theorem unregoutReleasesAPort : Obligations.UnregoutReleasesAPort := by
  unfold Obligations.UnregoutReleasesAPort
  refine ⟨fun w port d => decode_eq_ok_iff_of_portAndDevice (kind := 0xE) rfl rfl,
    fun s port d i hd hi => ⟨fun howner => ?_, exec_unregout_other hd hi⟩⟩
  rw [exec_unregout hd hi, releaseOut_owner howner, State.strike_setOut howner]; rfl

/-- A write of one coordinate and of ResetOrder: the frame, every coordinate, and the page that shows the coordinate. -/
theorem slotWrite_spec {s t : State Time} {ps ss pg : Quarter} {x : Option DevIndex} {order : List DevIndex}
    (ht : t = ((s.setSlot ⟨ps, ss, pg⟩ x).setResetOrder order).setReturned .nothing) :
    t = { s with slotLayout := t.slotLayout, resetOrder := order, returned := .nothing } ∧
    (∀ c, t.slotAt c = if c = ⟨ps, ss, pg⟩ then x else s.slotAt c) ∧
    (s.primary pg = ps → s.secondary pg = ss → t.visible pg = x) := by
  have hslot (c : Coord) : t.slotAt c = if c = ⟨ps, ss, pg⟩ then x else s.slotAt c := by
    simp [ht, eq_comm]
  refine ⟨by rw [ht]; rfl, hslot, fun hps hss => ?_⟩
  have hcoord : t.coordOf pg = ⟨ps, ss, pg⟩ := by rw [ht, ← hps, ← hss]; rfl
  rw [State.visible, hcoord, hslot, if_pos rfl]

/-- Settles O39, by the two cases of the claim. -/
theorem regslotPlacesADevice : Obligations.RegslotPlacesADevice := by
  unfold Obligations.RegslotPlacesADevice
  refine fun s ps ss pg d i hd hi => ⟨fun hfree => ⟨_, exec_regslot hd hi ps ss pg, slotWrite_spec ?_⟩,
    fun owner htaken => ?_⟩
  · rw [claimSlot_free i hfree, State.enroll_eq]; rfl
  · rw [exec_regslot hd hi, claimSlot_taken i htaken]; rfl

/-- Settles O42, by the two cases of the release. -/
theorem unregslotRemovesADevice : Obligations.UnregslotRemovesADevice := by
  unfold Obligations.UnregslotRemovesADevice
  refine fun s ps ss pg d i hd hi => ⟨fun howner => ⟨_, ?_, slotWrite_spec rfl⟩, exec_unregslot_other hd hi⟩
  rw [exec_unregslot hd hi, releaseSlot_owner howner, State.strike_setSlot howner]; rfl

theorem role_of_isRegistration {i : Instr} (h : isRegistration i = true) : role i = .builder := by
  cases i with
  | regslot _ _ _ _ | muxreg _ _ | unregslot _ _ _ _ | muxunreg _ | regin _ _ | regout _ _ | unregin _ _
  | unregout _ _ => rfl
  | mrd _ | mwr _ _ | iord _ | iowr _ _ | irqst | irqup | irqdn | psw _ | rst | muxrst | destroy | muxdestroy => cases h

/-- Settles O36: every registration is an operation of the builder, whose frame holds the registers, the devices and the
calls made. -/
theorem registrationsLeaveRegistersAndDevices : Obligations.RegistrationsLeaveRegistersAndDevices := by
  unfold Obligations.RegistrationsLeaveRegistersAndDevices
  intro i s t hi h
  rw [exec_builder (role_of_isRegistration hi) h]
  exact ⟨rfl, rfl, rfl, rfl, rfl, rfl⟩

/-- Settles O43: the rejected claim leaves the entry to its owner, which is another device. -/
theorem rejectedRegistrationCannotBeReleased : Obligations.RejectedRegistrationCannotBeReleased := by
  unfold Obligations.RejectedRegistrationCannotBeReleased
  intro s d i owner hd hi hne
  have hother : some owner ≠ some i := fun h => hne (Option.some.inj h)
  refine ⟨fun port htaken => ?_, fun port htaken => ?_, fun ps ss pg htaken => ?_⟩
  · have howner := (claimIn_stand port i s).inAt port owner htaken
    exact ⟨_, _, exec_regin hd hi port, exec_unregin_other hd (by simpa using hi) (howner.trans_ne hother)⟩
  · have howner := (claimOut_stand port i s).outAt port owner htaken
    exact ⟨_, _, exec_regout hd hi port, exec_unregout_other hd (by simpa using hi) (howner.trans_ne hother)⟩
  · have howner := (claimSlot_stand ⟨ps, ss, pg⟩ i s).slotAt _ owner htaken
    exact ⟨_, _, exec_regslot hd hi ps ss pg, exec_unregslot_other hd (by simpa using hi) (howner.trans_ne hother)⟩

/-! ## DESTROY (R191) -/

/-- Settles O46: the test of DESTROY is that some table has an entry, and a block that is not alive is blocked. -/
theorem destroyNeedsEmptyTables : Obligations.DestroyNeedsEmptyTables := by
  unfold Obligations.DestroyNeedsEmptyTables
  refine fun s => ⟨fun hclaims => if_pos (s.hasClaims_iff.mpr hclaims),
    fun hslot hin hout => ⟨if_neg fun hclaims => ?_, ?_⟩⟩
  · obtain ⟨c, hc⟩ | ⟨p, hp⟩ | ⟨p, hp⟩ := s.hasClaims_iff.mp hclaims
    · exact hc (hslot c)
    · exact hp (hin p)
    · exact hp (hout p)
  · have hblocked : ({ s with alive := false, returned := .nothing } : State).blocked ≠ none := fun h =>
      Bool.false_ne_true (State.blocked_eq_none.mp h).2
    obtain ⟨r, hr⟩ := Option.ne_none_iff_exists'.mp hblocked
    exact ⟨r, step_of_blocked hr⟩

/-! ## A claim and its release (R193, R199) -/

/-- Whoever was enrolled for a first claim leaves ResetOrder as it was; whoever had a claim before is in it all along. -/
theorem State.Inv.strike_enroll {s : State Time} (h : s.Inv) (d : DevIndex) : (s.enroll d).strike d = s := by
  by_cases hfirst : s.owns d = 0
  · have hnew : ∀ e ∈ s.resetOrder, e ≠ d := fun e he hed => (h.resetOwners d).mp (hed ▸ he) hfirst
    have hfilter : (s.resetOrder ++ [d]).filter (fun e => e ≠ d) = s.resetOrder := by
      simpa [List.filter_append] using hnew
    rw [State.strike_eq, State.enroll_owns, State.enroll_eq]
    simp only [hfirst, if_true, State.setResetOrder_resetOrder, hfilter]
    rfl
  · rw [State.enroll_of_owner hfirst, State.strike_eq, if_neg hfirst]; rfl

theorem State.setIn_setIn_of_free {s : State Time} {p : Port} (h : s.inAt p = none) (x : Option DevIndex) :
    (s.setIn p x).setIn p none = s := by
  simp only [State.inAt] at h
  simp [State.setIn, ← h]

theorem State.setOut_setOut_of_free {s : State Time} {p : Port} (h : s.outAt p = none) (x : Option DevIndex) :
    (s.setOut p x).setOut p none = s := by
  simp only [State.outAt] at h
  simp [State.setOut, ← h]

theorem State.setSlot_setSlot_of_free {s : State Time} {c : Coord} (h : s.slotAt c = none) (x : Option DevIndex) :
    (s.setSlot c x).setSlot c none = s := by
  simp only [State.slotAt] at h
  simp [State.setSlot, ← h]

theorem State.setSub_setSub_of_free {s : State Time} {id : Byte} (h : s.subAt id = none) (x : Option SubIndex) :
    (s.setSub id x).setSub id none = s := by
  simp only [State.subAt] at h
  simp [State.setSub, ← h]

section
variable {s : State Time} (h : s.Inv) (d : DevIndex)
include h

theorem releaseIn_claimIn {p : Port} (hfree : s.inAt p = none) : releaseIn p d (claimIn p d s) = .next s := by
  rw [claimIn_free d hfree, releaseIn_owner (by simp), State.setIn_setIn_of_free (by simpa using hfree), h.strike_enroll]

theorem releaseOut_claimOut {p : Port} (hfree : s.outAt p = none) :
    releaseOut p d (claimOut p d s) = .next s := by
  rw [claimOut_free d hfree, releaseOut_owner (by simp), State.setOut_setOut_of_free (by simpa using hfree),
    h.strike_enroll]

theorem releaseSlot_claimSlot {c : Coord} (hfree : s.slotAt c = none) :
    releaseSlot c d (claimSlot c d s) = .next s := by
  rw [claimSlot_free d hfree, releaseSlot_owner (by simp), State.setSlot_setSlot_of_free (by simpa using hfree),
    h.strike_enroll]

end

/-! A claim does not read the value that the operation before it returned. -/

theorem claimIn_setReturned (p : Port) (d : DevIndex) (s : State Time) (r : Returned) :
    (claimIn p d s).setReturned r = claimIn p d (s.setReturned r) := by
  cases h : s.inAt p with
  | none => rw [claimIn_free d h, claimIn_free (s := s.setReturned r) d h, State.enroll_eq, State.enroll_eq]; rfl
  | some o => rw [claimIn_taken d h, claimIn_taken (s := s.setReturned r) d h]; rfl

theorem claimOut_setReturned (p : Port) (d : DevIndex) (s : State Time) (r : Returned) :
    (claimOut p d s).setReturned r = claimOut p d (s.setReturned r) := by
  cases h : s.outAt p with
  | none => rw [claimOut_free d h, claimOut_free (s := s.setReturned r) d h, State.enroll_eq, State.enroll_eq]; rfl
  | some o => rw [claimOut_taken d h, claimOut_taken (s := s.setReturned r) d h]; rfl

theorem claimSlot_setReturned (c : Coord) (d : DevIndex) (s : State Time) (r : Returned) :
    (claimSlot c d s).setReturned r = claimSlot c d (s.setReturned r) := by
  cases h : s.slotAt c with
  | none => rw [claimSlot_free d h, claimSlot_free (s := s.setReturned r) d h, State.enroll_eq, State.enroll_eq]; rfl
  | some o => rw [claimSlot_taken d h, claimSlot_taken (s := s.setReturned r) d h]; rfl

theorem claimWindowPorts_setReturned (is : List (BitVec 4)) (s : State Time) (r : Returned) :
    (is.foldl claimWindowPort s).setReturned r = is.foldl claimWindowPort (s.setReturned r) := by
  induction is generalizing s with
  | nil => rfl
  | cons i is ih =>
    rw [List.foldl_cons, List.foldl_cons, ih, claimWindowPort, claimOut_setReturned, claimIn_setReturned]; rfl

/-! ## The window: sixteen claims of one device, released in the order in which they were made (45_switched_mux.md R218)

Claims of one device at free entries commute, so the first port claimed may be taken for the last one, and its release
undoes it. -/

/-- Neither direction of the window port at offset `i` has an owner. -/
def State.WindowPortFree (s : State Time) (i : BitVec 4) : Prop :=
  s.inAt (windowPort s.config i) = none ∧ s.outAt (windowPort s.config i) = none

/-- Two claims of one device enroll it once. -/
theorem claimOut_claimIn_free {s : State Time} {p q : Port} (d : DevIndex) (hin : s.inAt p = none)
    (hout : s.outAt q = none) : claimOut q d (claimIn p d s) = ((s.enroll d).setIn p (some d)).setOut q (some d) := by
  have howns : ((s.enroll d).setIn p (some d)).owns d ≠ 0 := State.owns_of_inAt _ (p := p) (by simp)
  rw [claimIn_free d hin, claimOut_free d (by simpa using hout), State.enroll_of_owner howns]

theorem claimIn_claimOut_free {s : State Time} {p q : Port} (d : DevIndex) (hin : s.inAt p = none)
    (hout : s.outAt q = none) : claimIn p d (claimOut q d s) = ((s.enroll d).setOut q (some d)).setIn p (some d) := by
  have howns : ((s.enroll d).setOut q (some d)).owns d ≠ 0 := State.owns_of_outAt _ (p := q) (by simp)
  rw [claimOut_free d hout, claimIn_free d (by simpa using hin), State.enroll_of_owner howns]

@[simp] theorem claimWindowPort_config (s : State Time) (i : BitVec 4) : (claimWindowPort s i).config = s.config := by
  rw [claimWindowPort_frame]

section
variable {s : State Time} {i k : BitVec 4} {is : List (BitVec 4)}

theorem claimWindowPort_free (hi : s.WindowPortFree i) :
    claimWindowPort s i = ((s.enroll s.config.muxDev).setIn (windowPort s.config i) (some s.config.muxDev)).setOut
      (windowPort s.config i) (some s.config.muxDev) :=
  claimOut_claimIn_free _ hi.1 hi.2

theorem State.WindowPortFree.claimWindowPort (hi : s.WindowPortFree i) (hk : s.WindowPortFree k) (hne : i ≠ k) :
    (claimWindowPort s i).WindowPortFree k := by
  have hport : windowPort s.config i ≠ windowPort s.config k := windowPort_inj.not.mpr hne
  unfold State.WindowPortFree at hk ⊢
  rw [claimWindowPort_config, claimWindowPort_free hi]
  simpa [hport] using hk

theorem claimWindowPort_comm (hi : s.WindowPortFree i) (hk : s.WindowPortFree k) (hne : i ≠ k) :
    claimWindowPort (claimWindowPort s i) k = claimWindowPort (claimWindowPort s k) i := by
  have hport : (windowPort s.config i).toNat ≠ (windowPort s.config k).toNat := fun h =>
    hne (windowPort_inj.mp (BitVec.eq_of_toNat_eq h))
  have howns (j : BitVec 4) (hj : s.WindowPortFree j) : (claimWindowPort s j).owns s.config.muxDev ≠ 0 :=
    State.owns_of_outAt _ (p := windowPort s.config j) (by rw [claimWindowPort_free hj]; simp)
  rw [claimWindowPort_free (hi.claimWindowPort hk hne), claimWindowPort_free (hk.claimWindowPort hi hne.symm),
    claimWindowPort_config, claimWindowPort_config, State.enroll_of_owner (howns i hi),
    State.enroll_of_owner (howns k hk), claimWindowPort_free hi, claimWindowPort_free hk]
  simp only [State.setIn, State.setOut, Vector.set_comm _ _ hport]

/-- Claiming other free ports leaves a port free. -/
theorem State.WindowPortFree.claimWindowPorts (hnodup : (i :: is).Nodup) (hfree : ∀ k ∈ i :: is, s.WindowPortFree k) :
    (is.foldl Machine.claimWindowPort s).WindowPortFree i := by
  induction is generalizing s with
  | nil => exact hfree i (by simp)
  | cons k is ih =>
    have hk : s.WindowPortFree k := hfree k (by simp)
    exact ih (hnodup.sublist (by simp)) fun j hj => hk.claimWindowPort (hfree j (by grind)) (by grind)

/-- The first of the ports to be claimed may as well be claimed last. -/
theorem claimWindowPorts_comm (hnodup : (i :: is).Nodup) (hfree : ∀ k ∈ i :: is, s.WindowPortFree k) :
    is.foldl claimWindowPort (claimWindowPort s i) = claimWindowPort (is.foldl claimWindowPort s) i := by
  induction is generalizing s with
  | nil => rfl
  | cons k is ih =>
    have hk : s.WindowPortFree k := hfree k (by simp)
    rw [List.foldl_cons, List.foldl_cons, claimWindowPort_comm (hfree i (by simp)) hk (by grind)]
    exact ih (hnodup.sublist (by simp)) fun j hj => hk.claimWindowPort (hfree j (by grind)) (by grind)

/-- The parameters are admitted, so MUX_DEV is a device of the machine (00_scope.md R5). -/
theorem State.Inv.muxDev_lt (h : s.Inv) : s.config.muxDev.val < s.config.nDev := by
  have hwf := h.config
  simp only [Config.wf, Bool.and_eq_true, decide_eq_true_eq] at hwf
  exact hwf.2

/-- The release of a window port right after its claim. -/
theorem releasePorts_claimWindowPort (h : s.Inv) (hi : s.WindowPortFree i) :
    releasePorts (i :: is) (claimWindowPort s i) = releasePorts is s := by
  obtain ⟨hin, hout⟩ := hi
  have hclaims : claimWindowPort s i =
      claimIn (windowPort s.config i) s.config.muxDev (claimOut (windowPort s.config i) s.config.muxDev s) :=
    (claimOut_claimIn_free _ hin hout).trans (claimIn_claimOut_free _ hin hout).symm
  have hfree : (claimOut (windowPort s.config i) s.config.muxDev s).inAt (windowPort s.config i) = none := by
    rw [claimOut_frame]; exact hin
  rw [releasePorts, claimWindowPort_config, hclaims, releaseIn_claimIn (h.claimOut _ h.muxDev_lt) _ hfree, andThen_next,
    claimOut_config, releaseOut_claimOut h _ hout, andThen_next]

/-- Free ports of the window, claimed and then released in the same order. -/
theorem releasePorts_claimWindowPorts (h : s.Inv) (hnodup : is.Nodup) (hfree : ∀ i ∈ is, s.WindowPortFree i) :
    releasePorts is (is.foldl claimWindowPort s) = .next s := by
  induction is with
  | nil => rfl
  | cons i is ih =>
    have hinv : (is.foldl claimWindowPort s).Inv := (claimWindowPorts_moves is s).inv h
    rw [List.foldl_cons, claimWindowPorts_comm hnodup hfree,
      releasePorts_claimWindowPort hinv (.claimWindowPorts hnodup hfree)]
    exact ih hnodup.of_cons fun k hk => hfree k (List.mem_cons_of_mem i hk)

end

/-! ## The obligations on sequences and on all operations -/

section
variable {s : State} {id : Byte} {j : SubIndex}

theorem exec_muxreg {r : DevRef} (id : Byte) (hmux : s.mux.alive = true) (hr : deviceIndex r = some j) :
    exec (.muxreg id r) s = .next ((muxRegister id j s).setReturned .nothing) := by
  simp only [exec, execMuxreg, withMux_of _ hmux, hr, finish_eq]

theorem muxRegister_other (j : SubIndex) (hfree : s.subAt id = none) (hoccupied : s.muxOccupied = true) :
    muxRegister id j s = s.setSub id (some j) := by
  simp [muxRegister, hfree, hoccupied]

theorem muxRegister_first (j : SubIndex) (hfree : s.subAt id = none) (hempty : s.muxOccupied = false) :
    muxRegister id j s = (claimWindow s).setSub id (some j) := by
  simp [muxRegister, hfree, hempty]

/-- MUXUNREG of an id that was free before its entry `j` goes on from the state without the entry (R212). -/
theorem exec_muxunreg_entry (j : SubIndex) (r : Returned) (hmux : s.mux.alive = true) (hfree : s.subAt id = none) :
    exec (.muxunreg id) ((s.setSub id (some j)).setReturned r) =
      if s.muxOccupied then .next (s.setReturned .nothing) else andThen (releaseWindow (s.setReturned r)) finish := by
  have hremoved : ((s.setSub id (some j)).setReturned r).setSub id none = s.setReturned r :=
    congrArg (·.setReturned r) (State.setSub_setSub_of_free hfree (some j))
  have hmux' : ((s.setSub id (some j)).setReturned r).mux.alive = true := hmux
  simp only [exec, execMuxunreg, withMux_of _ hmux', State.setReturned_subAt, State.subAt_setSub, if_true, hremoved]
  rfl

/-- MUXUNREG right after MUXREG: another entry keeps the window, or the first and last one in claimed it and gives it
back (R217, R218). -/
theorem exec_muxunreg_registered (j : SubIndex) (h : s.Inv) (hmux : s.mux.alive = true) (hfree : s.subAt id = none)
    (hwindow : (∃ k, s.subAt k ≠ none) ∨ ∀ i, s.WindowPortFree i) :
    exec (.muxunreg id) ((muxRegister id j s).setReturned .nothing) = .next (s.setReturned .nothing) := by
  cases hoccupied : s.muxOccupied with
  | true => rw [muxRegister_other j hfree hoccupied, exec_muxunreg_entry j _ hmux hfree, if_pos hoccupied]
  | false =>
    have hports : ∀ i, s.WindowPortFree i := hwindow.resolve_left fun hentry =>
      Bool.false_ne_true (hoccupied.symm.trans (s.muxOccupied_iff.mpr hentry))
    have hclaimed : (claimWindow s).mux = s.mux := by rw [claimWindow_frame]
    have hmux' : (claimWindow s).mux.alive = true := by rw [hclaimed]; exact hmux
    have hfree' : (claimWindow s).subAt id = none := by simp only [State.subAt, hclaimed]; exact hfree
    have hempty : (claimWindow s).muxOccupied = false := by simp only [State.muxOccupied, hclaimed]; exact hoccupied
    have hreleased : releaseWindow ((claimWindow s).setReturned .nothing) = .next (s.setReturned .nothing) := by
      rw [claimWindow, claimWindowPorts_setReturned]
      exact releasePorts_claimWindowPorts (h.of_frame rfl) windowOffsets_nodup fun i _ => hports i
    rw [muxRegister_first j hfree hoccupied, exec_muxunreg_entry j _ hmux' hfree', hempty, hreleased]
    rfl

end

/-- Settles O44: each release undoes its claim, ResetOrder included; so does MUXUNREG with the claims of the window. -/
theorem matchedRegistrationLeavesNoTrace : Obligations.MatchedRegistrationLeavesNoTrace := by
  unfold Obligations.MatchedRegistrationLeavesNoTrace
  have hreturned {s : State} (h : s.Inv) : (s.setReturned .nothing).Inv := h.of_frame rfl
  refine ⟨fun s d i h hd hi => ⟨fun port hfree => ⟨_, exec_regin hd hi port, ?_⟩,
    fun port hfree => ⟨_, exec_regout hd hi port, ?_⟩, fun ps ss pg hfree => ⟨_, exec_regslot hd hi ps ss pg, ?_⟩⟩,
    fun s id r j h hmux hr hfree hwindow => ⟨_, exec_muxreg id hmux hr, ?_⟩⟩
  · rw [exec_unregin hd (by simpa using hi), claimIn_setReturned, releaseIn_claimIn (hreturned h) i hfree]; rfl
  · rw [exec_unregout hd (by simpa using hi), claimOut_setReturned, releaseOut_claimOut (hreturned h) i hfree]; rfl
  · rw [exec_unregslot hd (by simpa using hi), claimSlot_setReturned, releaseSlot_claimSlot (hreturned h) i hfree]; rfl
  · rw [exec_muxunreg_registered j h hmux hfree hwindow]; rfl

/-- Settles O45: the three unregistrations on a device release an entry of that device, MUXUNREG entries of the mux, and
under every other operation all claims stand. -/
theorem ownersAreNeverDisplaced : Obligations.OwnersAreNeverDisplaced := by
  unfold Obligations.OwnersAreNeverDisplaced
  intro i s t h
  cases i with
  | unregin q r =>
    obtain ⟨i, hr, -, h⟩ := withDevice_next h
    obtain ⟨u, hu, ht⟩ := andThen_eq_next.mp h
    obtain ⟨howner, rfl⟩ := releaseIn_next hu
    cases ht
    refine ⟨fun p d hp => ?_, fun p d hp => .inl (by simpa using hp), fun c d hc => .inl (by simpa using hc)⟩
    by_cases hq : q = p
    · subst hq
      exact .inr ⟨by simp, .inl ⟨r, rfl, hr.trans (howner.symm.trans hp)⟩⟩
    · exact .inl (by simpa [hq] using hp)
  | unregout q r =>
    obtain ⟨i, hr, -, h⟩ := withDevice_next h
    obtain ⟨u, hu, ht⟩ := andThen_eq_next.mp h
    obtain ⟨howner, rfl⟩ := releaseOut_next hu
    cases ht
    refine ⟨fun p d hp => .inl (by simpa using hp), fun p d hp => ?_, fun c d hc => .inl (by simpa using hc)⟩
    by_cases hq : q = p
    · subst hq
      exact .inr ⟨by simp, .inl ⟨r, rfl, hr.trans (howner.symm.trans hp)⟩⟩
    · exact .inl (by simpa [hq] using hp)
  | unregslot ps ss pg r =>
    obtain ⟨i, hr, -, h⟩ := withDevice_next h
    obtain ⟨u, hu, ht⟩ := andThen_eq_next.mp h
    obtain ⟨howner, rfl⟩ := releaseSlot_next hu
    cases ht
    refine ⟨fun p d hp => .inl (by simpa using hp), fun p d hp => .inl (by simpa using hp), fun c d hc => ?_⟩
    by_cases hq : (⟨ps, ss, pg⟩ : Coord) = c
    · subst hq
      exact .inr ⟨by simp, r, rfl, hr.trans (howner.symm.trans hc)⟩
    · exact .inl (by simpa [hq] using hc)
  | muxunreg id =>
    have released := execMuxunreg_portsReleased h
    refine ⟨fun p d hp => ?_, fun p d hp => ?_, fun c d hc => .inl ((released.slotAt c).trans hc)⟩
    · exact ((released.inAt p).owner hp).imp_right fun ⟨hempty, hd⟩ => ⟨hempty, .inr ⟨id, rfl, hd⟩⟩
    · exact ((released.outAt p).owner hp).imp_right fun ⟨hempty, hd⟩ => ⟨hempty, .inr ⟨id, rfl, hd⟩⟩
  | mrd _ | mwr _ _ | iord _ | iowr _ _ | irqst | irqup | irqdn | psw _ | rst | muxrst | regslot _ _ _ _ | muxreg _ _
  | regin _ _ | regout _ _ | destroy | muxdestroy =>
    have stand := perform_claimsStand (by nofun) (by nofun) (by nofun) (by nofun) (exec_eq_perform _ s ▸ h)
    exact ⟨fun p d hp => .inl (stand.inAt p d hp), fun p d hp => .inl (stand.outAt p d hp),
      fun c d hc => .inl (stand.slotAt c d hc)⟩

end Sys2Proof.Machine
end

section
/-! SUPPORT. The mux (45_switched_mux.md): its accesses and its reset, what claiming the window writes into the two I/O
tables, ResetOrder and diagLog, and when and how releasing it completes. -/

namespace Sys2Proof.Machine

variable {Time : Type}

/-! ## Accesses that reach the mux (R210, R214, R215) -/

/-- An access that the mux passes on to a sub-device, whose upcalls never lower at 0, completes: the sub-device's state,
the count and PSR after the upcalls, the records of both calls and the value returned (20_memory.md R81, R221). -/
theorem passedOnEffect_of_count {j : SubIndex} {e : Effect SubDevice} {s : State Time} {n : Nat}
    (c sub : DeviceCall Time) (r : Returned) (h : countAfter s.config.irqCountMax e.upcalls s.irqCount = some n) :
    andThen (applySubEffect j e ((s.logCall c).logCall sub)) (fun u => .next (u.setReturned r)) =
      .next { s with subDevices := (s.setSubDevice j e.device).subDevices, irqCount := n,
                     psr := psrAfter e.upcalls s.psr, callLog := s.callLog ++ [c, sub], returned := r } := by
  have hrun := runUpcalls_of_count (s := ((s.logCall c).logCall sub).setSubDevice j e.device) h
  rw [applySubEffect, hrun]
  simp only [andThen_next, State.setReturned, State.setPsr, State.setIrqCount, State.setSubDevice, State.logCall,
    List.append_assoc, List.cons_append, List.nil_append]

section
variable [LinearOrder Time] {s : State Time} {port : Port} {v : Byte} {j : SubIndex}

theorem muxReadIO_selected (h : s.subAt s.mux.selector = some j) : muxReadIO port s = callSubReadIO j port s := by
  simp only [muxReadIO, h]

theorem muxReadIO_float (h : s.subAt s.mux.selector = none) : muxReadIO port s = answer Config.floatByte s := by
  simp only [muxReadIO, h]

theorem muxWriteIO_select (h : windowOffset port = 0) : muxWriteIO port v s = finish (s.setSelector v) := if_pos h

theorem muxWriteIO_selected (hoffset : windowOffset port ≠ 0) (h : s.subAt s.mux.selector = some j) :
    muxWriteIO port v s = callSubWriteIO j port v s := by
  simp only [muxWriteIO, if_neg hoffset, h]

theorem muxWriteIO_ignored (hoffset : windowOffset port ≠ 0) (h : s.subAt s.mux.selector = none) :
    muxWriteIO port v s = finish s := by
  simp only [muxWriteIO, if_neg hoffset, h]

theorem execIord_mux (h : s.inAt port = some s.config.muxDev) :
    execIord port s = muxReadIO port (s.logCall (.readIO s.config.muxDev port s.now)) :=
  (execIord_forward h).trans (if_pos rfl)

theorem execIowr_mux (h : s.outAt port = some s.config.muxDev) :
    execIowr port v s = muxWriteIO port v (s.logCall (.writeIO s.config.muxDev port v s.now)) :=
  (execIowr_forward v h).trans (if_pos rfl)

end

/-- Settles O52, by the three cases of R214. -/
theorem muxWriteSelectsOrForwards : Obligations.MuxWriteSelectsOrForwards := by
  unfold Obligations.MuxWriteSelectsOrForwards
  intro s port v howner
  have hmux : exec (.iowr port v) s = muxWriteIO port v (s.logCall (.writeIO s.config.muxDev port v s.now)) :=
    execIowr_mux howner
  have hforward (j : SubIndex) (hoffset : windowOffset port ≠ 0) (hsub : s.subAt s.mux.selector = some j) :
      exec (.iowr port v) s = callSubWriteIO j port v (s.logCall (.writeIO s.config.muxDev port v s.now)) :=
    hmux.trans (muxWriteIO_selected hoffset hsub)
  exact ⟨fun hoffset => hmux.trans (muxWriteIO_select hoffset),
    fun hoffset hsub => hmux.trans (muxWriteIO_ignored hoffset hsub),
    fun j n hoffset hsub hcount => (hforward j hoffset hsub).trans (passedOnEffect_of_count _ _ _ hcount), hforward⟩

/-- Settles O53, by the two cases of R215. -/
theorem muxReadForwards : Obligations.MuxReadForwards := by
  unfold Obligations.MuxReadForwards
  intro s port howner
  have hmux : exec (.iord port) s = muxReadIO port (s.logCall (.readIO s.config.muxDev port s.now)) :=
    execIord_mux howner
  have hforward (j : SubIndex) (hsub : s.subAt s.mux.selector = some j) :
      exec (.iord port) s = callSubReadIO j port (s.logCall (.readIO s.config.muxDev port s.now)) :=
    hmux.trans (muxReadIO_selected hsub)
  exact ⟨fun hsub => hmux.trans (muxReadIO_float hsub),
    fun j n hsub hcount => (hforward j hsub).trans (passedOnEffect_of_count _ _ _ hcount), hforward⟩

/-- Settles O55: the page shows the mux, and a memory access forwarded to the mux is refused. -/
theorem muxHasNoMemory : Obligations.MuxHasNoMemory := by
  unfold Obligations.MuxHasNoMemory
  exact fun s addr v hi hd =>
    ⟨(execMrd_forward hi hd).trans (if_pos rfl), (execMwr_forward v hi hd).trans (if_pos rfl)⟩

/-! ## The end of the mux (R219) -/

theorem withMux_gone {s : State Time} (k : State Time → Result Time) (h : s.mux.alive = false) :
    withMux s k = .refused .muxDestroyed := by
  simp [withMux, h]

/-- Without the mux every MUX* operation is refused. -/
theorem exec_muxOperation_gone {s : State} (h : s.mux.alive = false) (id : Byte) (r : DevRef) :
    exec (.muxreg id r) s = .refused .muxDestroyed ∧ exec (.muxunreg id) s = .refused .muxDestroyed ∧
      exec .muxrst s = .refused .muxDestroyed ∧ exec .muxdestroy s = .refused .muxDestroyed := by
  simp only [exec, execMuxreg, execMuxunreg, execMuxrst, execMuxdestroy]
  exact ⟨withMux_gone _ h, withMux_gone _ h, withMux_gone _ h, withMux_gone _ h⟩

theorem exec_muxdestroy {s : State} (h : s.mux.alive = true) :
    exec .muxdestroy s =
      if s.muxOccupied then raiseFatal .muxDestroyOutstanding s else finish (s.setMuxAlive false) := by
  simp only [exec, execMuxdestroy, withMux_of _ h]

theorem State.muxOccupied_eq_false_iff {s : State Time} : s.muxOccupied = false ↔ ∀ id, s.subAt id = none := by
  rw [← Bool.not_eq_true, s.muxOccupied_iff]
  push Not
  rfl

/-- Settles O54, by the two cases of the table; the mux gate refuses every MUX* operation afterwards. -/
theorem muxDestroyNeedsAnEmptyTable : Obligations.MuxDestroyNeedsAnEmptyTable := by
  unfold Obligations.MuxDestroyNeedsAnEmptyTable
  intro s hmux
  refine ⟨fun hentry => ?_, fun hempty => ⟨(s.setMuxAlive false).setReturned .nothing, ?_, rfl, fun id r => ?_⟩⟩
  · rw [exec_muxdestroy hmux, if_pos (s.muxOccupied_iff.mpr hentry)]; rfl
  · rw [exec_muxdestroy hmux, State.muxOccupied_eq_false_iff.mpr hempty]; rfl
  · exact exec_muxOperation_gone rfl id r

/-! ## The reset of the mux (R213, 70_reset_and_hazards.md R285) -/

section
variable [LinearOrder Time]

/-- The reset of a device is recorded, and clears the selector if the device is the mux. -/
theorem callReset_callLog_selector {d : DevIndex} {s t : State Time} (h : callReset d s = .next t) :
    t.callLog = s.callLog ++ [.reset d s.now] ∧
      t.mux.selector = if d = s.config.muxDev then 0x00#8 else s.mux.selector := by
  unfold callReset at h
  split at h
  next hd =>
    cases h
    exact ⟨rfl, (if_pos hd).symm⟩
  next hd =>
    have call := loggedEffect_calledOnce (r := .nothing) (andThen_eq_next.mpr ⟨t, h, rfl⟩)
    exact ⟨call.callLog, (congrArg Mux.selector call.mux).trans (if_neg hd).symm⟩

/-- Resetting devices calls each of them, in order, and clears the selector if the mux is among them. -/
theorem resetDevices_callLog_selector {ds : List DevIndex} {s t : State Time} (h : resetDevices ds s = .next t) :
    t.callLog = s.callLog ++ ds.map (.reset · s.now) ∧
      t.mux.selector = if s.config.muxDev ∈ ds then 0x00#8 else s.mux.selector := by
  induction ds generalizing s with
  | nil => cases h; simp
  | cons d ds ih =>
    obtain ⟨u, hu, h⟩ := andThen_eq_next.mp h
    obtain ⟨hlog, hselector⟩ := callReset_callLog_selector hu
    obtain ⟨hlogs, hselectors⟩ := ih h
    have hnow : u.now = s.now := by rw [callReset_steady hu]
    have hconfig : u.config = s.config := by rw [callReset_steady hu]
    rw [hlog, hnow] at hlogs
    rw [hselector, hconfig] at hselectors
    refine ⟨by simpa using hlogs, hselectors.trans ?_⟩
    by_cases hmux : s.config.muxDev ∈ ds
    · simp [hmux]
    · simp [hmux, eq_comm]

end

/-- Settles O51: MUXRST is one word, and RST resets the devices of ResetOrder, each with one call. -/
theorem muxResetClearsTheSelector : Obligations.MuxResetClearsTheSelector := by
  unfold Obligations.MuxResetClearsTheSelector
  refine ⟨fun w => ?_, fun s hmux => ?_, fun s t h => ?_⟩
  · have hword : encode .muxrst = 0x81000000#32 := by decide
    rw [decode_eq_ok_iff, hword, eq_comm]
    exact and_iff_left rfl
  · simp only [exec, execMuxrst, withMux_of _ hmux]; rfl
  · obtain ⟨u, hu, ht⟩ := andThen_eq_next.mp h
    obtain ⟨hlog, hselector⟩ := resetDevices_callLog_selector hu
    cases ht
    refine ⟨?_, s.resetOrder.map (.reset · s.now), hlog, by simp⟩
    have hmux : u.mux = { s.mux with selector := u.mux.selector } := by rw [resetDevices_steady hu]
    exact hmux.trans (by rw [hselector])

/-! ## Claiming the window (R211, R217, D29) -/

theorem claimIn_inAt (p q : Port) (d : DevIndex) (s : State Time) :
    (claimIn p d s).inAt q = if p = q then some ((s.inAt q).getD d) else s.inAt q := by
  obtain rfl | hpq := eq_or_ne p q
  · cases h : s.inAt p with
    | none => simp [claimIn_free d h]
    | some o => simp [claimIn_taken d h, h]
  · cases h : s.inAt p with
    | none => simp [claimIn_free d h, hpq]
    | some o => simp [claimIn_taken d h, hpq]

theorem claimOut_outAt (p q : Port) (d : DevIndex) (s : State Time) :
    (claimOut p d s).outAt q = if p = q then some ((s.outAt q).getD d) else s.outAt q := by
  obtain rfl | hpq := eq_or_ne p q
  · cases h : s.outAt p with
    | none => simp [claimOut_free d h]
    | some o => simp [claimOut_taken d h, h]
  · cases h : s.outAt p with
    | none => simp [claimOut_free d h, hpq]
    | some o => simp [claimOut_taken d h, hpq]

@[simp] theorem claimIn_outAt (p q : Port) (d : DevIndex) (s : State Time) : (claimIn p d s).outAt q = s.outAt q := by
  rw [claimIn_frame]; rfl

@[simp] theorem claimOut_inAt (p q : Port) (d : DevIndex) (s : State Time) : (claimOut p d s).inAt q = s.inAt q := by
  rw [claimOut_frame]; rfl

theorem claimIn_diagLog (p : Port) (d : DevIndex) (s : State Time) :
    (claimIn p d s).diagLog = s.diagLog ++ (s.inAt p).toList.map fun o => .dupIn p o d := by
  cases h : s.inAt p with
  | none => rw [claimIn_free d h, State.enroll_eq]; simp
  | some o => rw [claimIn_taken d h]; rfl

theorem claimOut_diagLog (p : Port) (d : DevIndex) (s : State Time) :
    (claimOut p d s).diagLog = s.diagLog ++ (s.outAt p).toList.map fun o => .dupOut p o d := by
  cases h : s.outAt p with
  | none => rw [claimOut_free d h, State.enroll_eq]; simp
  | some o => rw [claimOut_taken d h]; rfl

/-- From `s` to `t` device `d` may have made claims, and was enrolled if one of them was its first (44_configuration.md
R193). -/
structure Enrolled (d : DevIndex) (s t : State Time) : Prop where
  owns_le : s.owns d ≤ t.owns d
  resetOrder : t.resetOrder = if s.owns d = 0 ∧ t.owns d ≠ 0 then s.resetOrder ++ [d] else s.resetOrder

theorem Enrolled.of_owns_eq {d : DevIndex} {s t : State Time} (howns : t.owns d = s.owns d)
    (horder : t.resetOrder = s.resetOrder) : Enrolled d s t :=
  ⟨howns.ge, horder.trans (if_neg fun ⟨hnone, hsome⟩ => hsome (howns.trans hnone)).symm⟩

theorem Enrolled.trans {d : DevIndex} {s t u : State Time} (h : Enrolled d s t) (k : Enrolled d t u) :
    Enrolled d s u := by
  refine ⟨h.owns_le.trans k.owns_le, ?_⟩
  have hle := h.owns_le
  have kle := k.owns_le
  rw [k.resetOrder, h.resetOrder]
  by_cases ht : t.owns d = 0
  · have hs : s.owns d = 0 := by omega
    simp [hs, ht]
  · have hu : u.owns d ≠ 0 := by omega
    simp [ht, hu]

/-- A claim of a free entry adds one to what `d` owns. -/
theorem Enrolled.of_claim {d : DevIndex} {s t : State Time} (howns : t.owns d = s.owns d + 1)
    (horder : t.resetOrder = (s.enroll d).resetOrder) : Enrolled d s t := by
  refine ⟨by omega, ?_⟩
  rw [horder, State.enroll_eq]
  simp [howns]

theorem claimIn_owns_of_free {p : Port} {s : State Time} (d : DevIndex) (h : s.inAt p = none) :
    (claimIn p d s).owns d = s.owns d + 1 := by
  rw [claimIn_free d h]
  simpa [h] using (s.enroll d).owns_setIn p (some d) d

theorem claimOut_owns_of_free {p : Port} {s : State Time} (d : DevIndex) (h : s.outAt p = none) :
    (claimOut p d s).owns d = s.owns d + 1 := by
  rw [claimOut_free d h]
  simpa [h] using (s.enroll d).owns_setOut p (some d) d

theorem claimIn_enrolled (p : Port) (d : DevIndex) (s : State Time) : Enrolled d s (claimIn p d s) := by
  cases h : s.inAt p with
  | none => exact .of_claim (claimIn_owns_of_free d h) (by rw [claimIn_free d h]; rfl)
  | some o => rw [claimIn_taken d h]; exact .of_owns_eq rfl rfl

theorem claimOut_enrolled (p : Port) (d : DevIndex) (s : State Time) : Enrolled d s (claimOut p d s) := by
  cases h : s.outAt p with
  | none => exact .of_claim (claimOut_owns_of_free d h) (by rw [claimOut_free d h]; rfl)
  | some o => rw [claimOut_taken d h]; exact .of_owns_eq rfl rfl

/-- A device owns nothing after a claim exactly if it owned nothing before and the entry was taken. -/
theorem claimIn_owns_eq_zero {p : Port} {d : DevIndex} {s : State Time} :
    (claimIn p d s).owns d = 0 ↔ s.owns d = 0 ∧ s.inAt p ≠ none := by
  cases h : s.inAt p with
  | none => simp [claimIn_owns_of_free d h]
  | some o => rw [claimIn_taken d h]; simp

theorem claimOut_owns_eq_zero {p : Port} {d : DevIndex} {s : State Time} :
    (claimOut p d s).owns d = 0 ↔ s.owns d = 0 ∧ s.outAt p ≠ none := by
  cases h : s.outAt p with
  | none => simp [claimOut_owns_of_free d h]
  | some o => rw [claimOut_taken d h]; simp

/-! One port of the window, then some of them. -/

theorem claimWindowPort_inAt (s : State Time) (i : BitVec 4) (q : Port) :
    (claimWindowPort s i).inAt q =
      if windowPort s.config i = q then some ((s.inAt q).getD s.config.muxDev) else s.inAt q := by
  rw [claimWindowPort, claimOut_inAt, claimIn_inAt]

theorem claimWindowPort_outAt (s : State Time) (i : BitVec 4) (q : Port) :
    (claimWindowPort s i).outAt q =
      if windowPort s.config i = q then some ((s.outAt q).getD s.config.muxDev) else s.outAt q := by
  rw [claimWindowPort, claimOut_outAt, claimIn_outAt]

/-- The claims of the ports at the offsets `is` fill their free entries and no others. -/
theorem claimWindowPorts_inAt (is : List (BitVec 4)) (s : State Time) (q : Port) :
    (is.foldl claimWindowPort s).inAt q =
      if q ∈ is.map (windowPort s.config) then some ((s.inAt q).getD s.config.muxDev) else s.inAt q := by
  induction is generalizing s with
  | nil => rfl
  | cons i is ih =>
    rw [List.foldl_cons, ih, claimWindowPort_config, claimWindowPort_inAt]
    by_cases hi : windowPort s.config i = q
    · simp [hi]
    · simp [hi, Ne.symm hi]

theorem claimWindowPorts_outAt (is : List (BitVec 4)) (s : State Time) (q : Port) :
    (is.foldl claimWindowPort s).outAt q =
      if q ∈ is.map (windowPort s.config) then some ((s.outAt q).getD s.config.muxDev) else s.outAt q := by
  induction is generalizing s with
  | nil => rfl
  | cons i is ih =>
    rw [List.foldl_cons, ih, claimWindowPort_config, claimWindowPort_outAt]
    by_cases hi : windowPort s.config i = q
    · simp [hi]
    · simp [hi, Ne.symm hi]

theorem claimWindowPorts_enrolled (is : List (BitVec 4)) (s : State Time) :
    Enrolled s.config.muxDev s (is.foldl claimWindowPort s) := by
  induction is generalizing s with
  | nil => exact .of_owns_eq rfl rfl
  | cons i is ih =>
    have hrest := ih (claimWindowPort s i)
    rw [claimWindowPort_config] at hrest
    exact ((claimIn_enrolled _ _ s).trans (claimOut_enrolled _ _ _)).trans hrest

/-- Some entry of the window port at offset `i` is free. -/
def State.WindowPortOpen (s : State Time) (i : BitVec 4) : Prop :=
  s.inAt (windowPort s.config i) = none ∨ s.outAt (windowPort s.config i) = none

theorem claimWindowPort_owns_eq_zero {s : State Time} {i : BitVec 4} :
    (claimWindowPort s i).owns s.config.muxDev = 0 ↔ s.owns s.config.muxDev = 0 ∧ ¬ s.WindowPortOpen i := by
  rw [claimWindowPort, claimOut_owns_eq_zero, claimIn_owns_eq_zero, claimIn_outAt, State.WindowPortOpen, not_or,
    and_assoc]

theorem claimWindowPort_windowPortOpen {s : State Time} {i k : BitVec 4} :
    (claimWindowPort s i).WindowPortOpen k ↔ i ≠ k ∧ s.WindowPortOpen k := by
  simp only [State.WindowPortOpen, claimWindowPort_config, claimWindowPort_inAt, claimWindowPort_outAt, windowPort_inj]
  by_cases hik : i = k <;> simp [hik]

/-- The mux owns nothing after the claims exactly if it owned nothing before and found no entry free. -/
theorem claimWindowPorts_owns_eq_zero {is : List (BitVec 4)} {s : State Time} :
    (is.foldl claimWindowPort s).owns s.config.muxDev = 0 ↔
      s.owns s.config.muxDev = 0 ∧ ∀ i ∈ is, ¬ s.WindowPortOpen i := by
  induction is generalizing s with
  | nil => simp
  | cons i is ih =>
    have hrest := ih (s := claimWindowPort s i)
    rw [claimWindowPort_config, claimWindowPort_owns_eq_zero] at hrest
    rw [List.foldl_cons, hrest, List.forall_mem_cons, and_assoc]
    refine and_congr_right fun _ => and_congr_right fun hi => forall₂_congr fun k _ => ?_
    rw [claimWindowPort_windowPortOpen]
    exact not_congr (and_iff_right_of_imp fun hk e => hi (e ▸ hk))

/-- The records of the two claims of the window port at offset `i`, In before Out (D29). -/
def State.windowReports (s : State Time) (i : BitVec 4) : List DiagRecord :=
  ((s.inAt (windowPort s.config i)).toList.map fun o => .dupIn (windowPort s.config i) o s.config.muxDev) ++
    ((s.outAt (windowPort s.config i)).toList.map fun o => .dupOut (windowPort s.config i) o s.config.muxDev)

theorem claimWindowPort_diagLog (s : State Time) (i : BitVec 4) :
    (claimWindowPort s i).diagLog = s.diagLog ++ s.windowReports i := by
  rw [claimWindowPort, claimOut_diagLog, claimIn_diagLog, claimIn_outAt, List.append_assoc, State.windowReports]

/-- A claim of one window port does not touch the entries of another. -/
theorem claimWindowPort_windowReports {s : State Time} {i k : BitVec 4} (hne : i ≠ k) :
    (claimWindowPort s i).windowReports k = s.windowReports k := by
  have hport : windowPort s.config i ≠ windowPort s.config k := windowPort_inj.not.mpr hne
  simp only [State.windowReports, claimWindowPort_config, claimWindowPort_inAt, claimWindowPort_outAt, if_neg hport]

theorem claimWindowPorts_diagLog {is : List (BitVec 4)} (hnodup : is.Nodup) (s : State Time) :
    (is.foldl claimWindowPort s).diagLog = s.diagLog ++ is.flatMap s.windowReports := by
  induction is generalizing s with
  | nil => simp
  | cons i is ih =>
    have hne : ∀ k ∈ is, i ≠ k := (List.pairwise_cons.mp hnodup).1
    have hrest : is.flatMap (claimWindowPort s i).windowReports = is.flatMap s.windowReports :=
      List.flatMap_congr fun k hk => claimWindowPort_windowReports (hne k hk)
    rw [List.foldl_cons, ih hnodup.of_cons, claimWindowPort_diagLog, hrest, List.flatMap_cons, List.append_assoc]

/-! The whole window. -/

theorem claimWindow_enrolled (s : State Time) : Enrolled s.config.muxDev s (claimWindow s) :=
  claimWindowPorts_enrolled windowOffsets s

/-- Claiming the window is the first claim of the mux if it owned nothing and some entry is free. -/
theorem claimWindow_firstClaim_iff {s : State Time} :
    s.owns s.config.muxDev = 0 ∧ (claimWindow s).owns s.config.muxDev ≠ 0 ↔
      s.owns s.config.muxDev = 0 ∧ ∃ i, s.WindowPortOpen i := by
  simp only [claimWindow, ne_eq, claimWindowPorts_owns_eq_zero, mem_windowOffsets, true_imp_iff, not_and, not_forall,
    not_not]
  exact and_congr_right fun hnone => ⟨fun h => h hnone, fun h _ => h⟩

theorem claimWindow_inAt (s : State Time) (q : Port) :
    (claimWindow s).inAt q =
      if q ∈ windowOffsets.map (windowPort s.config) then some ((s.inAt q).getD s.config.muxDev) else s.inAt q :=
  claimWindowPorts_inAt windowOffsets s q

theorem claimWindow_outAt (s : State Time) (q : Port) :
    (claimWindow s).outAt q =
      if q ∈ windowOffsets.map (windowPort s.config) then some ((s.outAt q).getD s.config.muxDev) else s.outAt q :=
  claimWindowPorts_outAt windowOffsets s q

theorem claimWindow_diagLog (s : State Time) :
    (claimWindow s).diagLog = s.diagLog ++ windowOffsets.flatMap s.windowReports :=
  claimWindowPorts_diagLog windowOffsets_nodup s

theorem windowPort_mem_window (c : Config) (i : BitVec 4) : windowPort c i ∈ windowOffsets.map (windowPort c) :=
  List.mem_map_of_mem (mem_windowOffsets i)

theorem not_mem_window {c : Config} {p : Port} (h : ∀ i, p ≠ windowPort c i) : p ∉ windowOffsets.map (windowPort c) :=
  fun hp => by
    obtain ⟨i, -, hi⟩ := List.mem_map.mp hp
    exact h i hi.symm

theorem muxRegister_taken {id : Byte} {owner : SubIndex} {s : State Time} (j : SubIndex) (h : s.subAt id = some owner) :
    muxRegister id j s = s.logDiag (.dupMuxId id owner j) := by
  simp [muxRegister, h]

/-- Settles O49: a taken id is reported; an entry in the table means that the window is claimed already; else the
window is claimed before the entry is made. -/
theorem muxregClaimsTheWindow : Obligations.MuxregClaimsTheWindow := by
  unfold Obligations.MuxregClaimsTheWindow
  refine fun s id r j hmux hr => ⟨fun owner htaken => ?_, fun hfree hentry => ?_,
    fun hempty => ⟨_, exec_muxreg id hmux hr, ?_⟩⟩
  · rw [exec_muxreg id hmux hr, muxRegister_taken j htaken]; rfl
  · rw [exec_muxreg id hmux hr, muxRegister_other j hfree (s.muxOccupied_iff.mpr hentry)]; rfl
  · have hframe := claimWindow_frame s
    have hin := claimWindow_inAt s
    have hout := claimWindow_outAt s
    have horder := (claimWindow_enrolled s).resetOrder
    have hfirst := claimWindow_firstClaim_iff (s := s)
    have hdiag := claimWindow_diagLog s
    rw [muxRegister_first j (hempty id) (State.muxOccupied_eq_false_iff.mpr hempty)]
    generalize claimWindow s = u at *
    refine ⟨by rw [hframe]; rfl, fun i => ⟨?_, ?_⟩, fun p hp => ⟨?_, ?_⟩, ?_, hdiag⟩
    · exact (hin _).trans (if_pos (windowPort_mem_window s.config i))
    · exact (hout _).trans (if_pos (windowPort_mem_window s.config i))
    · exact (hin p).trans (if_neg (not_mem_window hp))
    · exact (hout p).trans (if_neg (not_mem_window hp))
    · exact horder.trans (if_congr hfirst rfl rfl)

/-! ## Releasing the window (R212, R218) -/

/-- Both entries of the window port at offset `i` are the mux's. -/
def State.WindowPortOwned (s : State Time) (i : BitVec 4) : Prop :=
  s.inAt (windowPort s.config i) = some s.config.muxDev ∧ s.outAt (windowPort s.config i) = some s.config.muxDev

/-- The state after the mux has given up both entries of the window port at offset `i`. -/
def State.giveUpWindowPort (s : State Time) (i : BitVec 4) : State Time :=
  (((s.setIn (windowPort s.config i) none).strike s.config.muxDev).setOut (windowPort s.config i) none).strike
    s.config.muxDev

section
variable {s t : State Time} {i k : BitVec 4} {is : List (BitVec 4)}

@[simp] theorem State.giveUpWindowPort_config : (s.giveUpWindowPort i).config = s.config := by
  simp [State.giveUpWindowPort]

@[simp] theorem State.giveUpWindowPort_mux : (s.giveUpWindowPort i).mux = s.mux := by
  simp [State.giveUpWindowPort, State.strike_eq]

theorem State.giveUpWindowPort_inAt (q : Port) :
    (s.giveUpWindowPort i).inAt q = if windowPort s.config i = q then none else s.inAt q := by
  simp [State.giveUpWindowPort]

theorem State.giveUpWindowPort_outAt (q : Port) :
    (s.giveUpWindowPort i).outAt q = if windowPort s.config i = q then none else s.outAt q := by
  simp [State.giveUpWindowPort]

theorem State.giveUpWindowPort_windowPortOwned :
    (s.giveUpWindowPort i).WindowPortOwned k ↔ i ≠ k ∧ s.WindowPortOwned k := by
  simp only [State.WindowPortOwned, State.giveUpWindowPort_config, State.giveUpWindowPort_inAt,
    State.giveUpWindowPort_outAt, windowPort_inj]
  by_cases hik : i = k <;> simp [hik]

/-- A window port of the mux is released, and the rest follows. -/
theorem releasePorts_cons_owned (h : s.WindowPortOwned i) :
    releasePorts (i :: is) s = releasePorts is (s.giveUpWindowPort i) := by
  obtain ⟨hin, hout⟩ := h
  rw [releasePorts, releaseIn_owner hin, andThen_next, State.strike_config, State.setIn_config,
    releaseOut_owner (by simpa using hout), andThen_next, State.giveUpWindowPort]

/-- A window port with an entry that is not the mux's ends the release with a fatal (R218: no tolerance). -/
theorem releasePorts_cons_other (h : ¬ s.WindowPortOwned i) :
    ∃ c t, releasePorts (i :: is) s = .fault (.fatal c t) ∧ (c = .unregInNotOwner ∨ c = .unregOutNotOwner) ∧
      t.mux = s.mux := by
  by_cases hin : s.inAt (windowPort s.config i) = some s.config.muxDev
  · have hout : s.outAt (windowPort s.config i) ≠ some s.config.muxDev := fun hout => h ⟨hin, hout⟩
    refine ⟨.unregOutNotOwner,
      ((s.setIn (windowPort s.config i) none).strike s.config.muxDev).setFault (some .unregOutNotOwner), ?_, .inr rfl, ?_⟩
    · rw [releasePorts, releaseIn_owner hin, andThen_next, State.strike_config, State.setIn_config,
        releaseOut_other (by simpa using hout), raiseFatal_eq, andThen_fault]
    · simp [State.strike_eq]
  · refine ⟨.unregInNotOwner, s.setFault (some .unregInNotOwner), ?_, .inl rfl, rfl⟩
    rw [releasePorts, releaseIn_other hin, raiseFatal_eq, andThen_fault]

/-- A release that completes began with a window port of the mux. -/
theorem releasePorts_cons_next (h : releasePorts (i :: is) s = .next t) :
    s.WindowPortOwned i ∧ releasePorts is (s.giveUpWindowPort i) = .next t := by
  by_cases hi : s.WindowPortOwned i
  · exact ⟨hi, (releasePorts_cons_owned hi).symm.trans h⟩
  · obtain ⟨c, u, hfault, -⟩ := releasePorts_cons_other (is := is) hi
    rw [hfault] at h; cases h

/-- The release completes if every port is the mux's. -/
theorem releasePorts_of_owned (hnodup : is.Nodup) (h : ∀ i ∈ is, s.WindowPortOwned i) :
    ∃ t, releasePorts is s = .next t := by
  induction is generalizing s with
  | nil => exact ⟨s, rfl⟩
  | cons i is ih =>
    have hne : ∀ k ∈ is, i ≠ k := (List.pairwise_cons.mp hnodup).1
    rw [releasePorts_cons_owned (h i List.mem_cons_self)]
    exact ih hnodup.of_cons fun k hk =>
      State.giveUpWindowPort_windowPortOwned.mpr ⟨hne k hk, h k (List.mem_cons_of_mem i hk)⟩

/-- The release ends with a fatal, the mux as it was, if some port is not the mux's. -/
theorem releasePorts_of_other (h : ∃ i ∈ is, ¬ s.WindowPortOwned i) :
    ∃ c t, releasePorts is s = .fault (.fatal c t) ∧ (c = .unregInNotOwner ∨ c = .unregOutNotOwner) ∧
      t.mux = s.mux := by
  induction is generalizing s with
  | nil => simp at h
  | cons i is ih =>
    by_cases hi : s.WindowPortOwned i
    · have hrest : ∃ k ∈ is, ¬ (s.giveUpWindowPort i).WindowPortOwned k := by
        obtain ⟨k, hk, hother⟩ := h
        have hne : k ≠ i := fun e => hother (e ▸ hi)
        exact ⟨k, List.mem_of_ne_of_mem hne hk, fun howned => hother (State.giveUpWindowPort_windowPortOwned.mp howned).2⟩
      rw [releasePorts_cons_owned hi, ← State.giveUpWindowPort_mux (s := s) (i := i)]
      exact ih hrest
    · exact releasePorts_cons_other hi

/-- The release of the ports at the offsets `is` empties their entries and no others. -/
theorem releasePorts_inAt (q : Port) (h : releasePorts is s = .next t) :
    t.inAt q = if q ∈ is.map (windowPort s.config) then none else s.inAt q := by
  induction is generalizing s with
  | nil => cases h; rfl
  | cons i is ih =>
    obtain ⟨-, hrest⟩ := releasePorts_cons_next h
    rw [ih hrest, State.giveUpWindowPort_config, State.giveUpWindowPort_inAt]
    by_cases hi : windowPort s.config i = q
    · simp [hi]
    · simp [hi, Ne.symm hi]

theorem releasePorts_outAt (q : Port) (h : releasePorts is s = .next t) :
    t.outAt q = if q ∈ is.map (windowPort s.config) then none else s.outAt q := by
  induction is generalizing s with
  | nil => cases h; rfl
  | cons i is ih =>
    obtain ⟨-, hrest⟩ := releasePorts_cons_next h
    rw [ih hrest, State.giveUpWindowPort_config, State.giveUpWindowPort_outAt]
    by_cases hi : windowPort s.config i = q
    · simp [hi]
    · simp [hi, Ne.symm hi]

end

/-- From `s` to `t` device `d` may have given up claims, and was struck off if it owns nothing any more
(44_configuration.md R193). -/
structure Struck (d : DevIndex) (s t : State Time) : Prop where
  owns_le : t.owns d ≤ s.owns d
  resetOrder : t.resetOrder = if t.owns d = 0 then s.resetOrder.filter (fun e => e ≠ d) else s.resetOrder

theorem Struck.of_owner {d : DevIndex} {s : State Time} (h : s.owns d ≠ 0) : Struck d s s := ⟨le_rfl, (if_neg h).symm⟩

theorem Struck.trans {d : DevIndex} {s t u : State Time} (h : Struck d s t) (k : Struck d t u) : Struck d s u := by
  refine ⟨k.owns_le.trans h.owns_le, ?_⟩
  have kle := k.owns_le
  rw [k.resetOrder, h.resetOrder]
  by_cases hu : u.owns d = 0
  · by_cases ht : t.owns d = 0 <;> simp [hu, ht]
  · rw [if_neg hu, if_neg hu, if_neg (by omega)]

theorem Struck.of_strike {s u : State Time} {d : DevIndex} (howns : u.owns d ≤ s.owns d)
    (horder : u.resetOrder = s.resetOrder) : Struck d s (u.strike d) := by
  refine ⟨by simpa using howns, ?_⟩
  rw [State.strike_owns, State.strike_eq, ← horder]; rfl

theorem State.strike_setIn_struck (s : State Time) (p : Port) (d : DevIndex) :
    Struck d s ((s.setIn p none).strike d) := by
  have howns := s.owns_setIn p none d
  rw [if_neg (by nofun : none ≠ some d)] at howns
  exact .of_strike (by omega) rfl

theorem State.strike_setOut_struck (s : State Time) (p : Port) (d : DevIndex) :
    Struck d s ((s.setOut p none).strike d) := by
  have howns := s.owns_setOut p none d
  rw [if_neg (by nofun : none ≠ some d)] at howns
  exact .of_strike (by omega) rfl

theorem State.giveUpWindowPort_struck (s : State Time) (i : BitVec 4) :
    Struck s.config.muxDev s (s.giveUpWindowPort i) :=
  (s.strike_setIn_struck _ _).trans (State.strike_setOut_struck _ _ _)

/-- The release strikes the mux off ResetOrder if it owns nothing any more. -/
theorem Struck.releasePorts {is : List (BitVec 4)} {r s t : State Time} (hs : Struck s.config.muxDev r s)
    (h : releasePorts is s = .next t) : Struck s.config.muxDev r t := by
  induction is generalizing s with
  | nil => cases h; exact hs
  | cons i is ih =>
    obtain ⟨-, hrest⟩ := releasePorts_cons_next h
    have hstep := hs.trans (s.giveUpWindowPort_struck i)
    rw [← State.giveUpWindowPort_config (s := s) (i := i)] at hstep ⊢
    exact ih hstep hrest

/-! MUXUNREG by the entries of the table. -/

theorem exec_muxunreg_unknown {s : State} {id : Byte} (hmux : s.mux.alive = true) (hid : s.subAt id = none) :
    exec (.muxunreg id) s = raiseFatal .muxUnregUnknown s := by
  simp only [exec, execMuxunreg, withMux_of _ hmux, hid]

theorem exec_muxunreg_known {s : State} {id : Byte} (hmux : s.mux.alive = true) (hid : s.subAt id ≠ none) :
    exec (.muxunreg id) s =
      if (s.setSub id none).muxOccupied then finish (s.setSub id none)
      else andThen (releaseWindow (s.setSub id none)) finish := by
  obtain ⟨j, hj⟩ := Option.ne_none_iff_exists'.mp hid
  simp only [exec, execMuxunreg, withMux_of _ hmux, hj]

theorem State.subAt_of_mux_eq {s t : State Time} (h : t.mux = s.mux) (k : Byte) : t.subAt k = s.subAt k := by
  simp only [State.subAt, h]

/-- The table without the entry of `id` is empty if `id` had its only entry. -/
theorem State.setSub_subAt_of_last {s : State Time} {id : Byte} (h : ∀ k, k ≠ id → s.subAt k = none) (k : Byte) :
    (s.setSub id none).subAt k = none := by
  by_cases hk : id = k
  · simp [hk]
  · simp [hk, h k (Ne.symm hk)]

/-- MUXUNREG of the only entry releases the window. -/
theorem exec_muxunreg_last {s : State} {id : Byte} (hmux : s.mux.alive = true) (hid : s.subAt id ≠ none)
    (hlast : ∀ k, k ≠ id → s.subAt k = none) :
    exec (.muxunreg id) s = andThen (releaseWindow (s.setSub id none)) finish := by
  rw [exec_muxunreg_known hmux hid, State.muxOccupied_eq_false_iff.mpr (State.setSub_subAt_of_last hlast)]
  rfl

/-- Settles O50: another entry keeps the window; the release of the window completes if every entry of it is the mux's,
and ends with a fatal if one is not. -/
theorem muxunregReleasesTheWindow : Obligations.MuxunregReleasesTheWindow := by
  unfold Obligations.MuxunregReleasesTheWindow
  refine fun s id hmux => ⟨exec_muxunreg_unknown hmux, fun hid hother => ?_, fun hid hlast howned => ?_,
    fun hid hlast hother => ?_⟩
  · obtain ⟨k, hne, hk⟩ := hother
    have hoccupied : (s.setSub id none).muxOccupied = true :=
      (State.muxOccupied_iff _).mpr ⟨k, by simpa [Ne.symm hne] using hk⟩
    rw [exec_muxunreg_known hmux hid, if_pos hoccupied]; rfl
  · have howns : (s.setSub id none).owns s.config.muxDev ≠ 0 := State.owns_of_inAt _ (howned 0).1
    obtain ⟨t, ht⟩ := releasePorts_of_owned (s := s.setSub id none) windowOffsets_nodup fun i _ => howned i
    have hframe := releasePorts_frame ht
    have hmuxt : t.mux = (s.setSub id none).mux := by rw [hframe]
    refine ⟨t.setReturned .nothing, ?_, ?_, fun k => ?_, fun i => ⟨?_, ?_⟩, fun p hp => ⟨?_, ?_⟩, ?_⟩
    · rw [exec_muxunreg_last hmux hid hlast, releaseWindow, ht]; rfl
    · rw [hframe]; rfl
    · exact (State.subAt_of_mux_eq hmuxt k).trans (State.setSub_subAt_of_last hlast k)
    · exact (releasePorts_inAt _ ht).trans (if_pos (windowPort_mem_window s.config i))
    · exact (releasePorts_outAt _ ht).trans (if_pos (windowPort_mem_window s.config i))
    · exact (releasePorts_inAt p ht).trans (if_neg (not_mem_window hp))
    · exact (releasePorts_outAt p ht).trans (if_neg (not_mem_window hp))
    · exact (Struck.releasePorts (.of_owner howns) ht).resetOrder
  · have hport : ∃ i ∈ windowOffsets, ¬ (s.setSub id none).WindowPortOwned i := by
      obtain ⟨i, hi⟩ := hother
      exact ⟨i, mem_windowOffsets i, fun howned => hi.elim (· howned.1) (· howned.2)⟩
    obtain ⟨c, t, hfault, hcode, hmuxt⟩ := releasePorts_of_other hport
    refine ⟨c, t, ?_, hcode, fun k => ?_⟩
    · rw [exec_muxunreg_last hmux hid hlast, releaseWindow, hfault]; rfl
    · exact (State.subAt_of_mux_eq hmuxt k).trans (State.setSub_subAt_of_last hlast k)

end Sys2Proof.Machine
end

section
/-! SUPPORT. The peek family (46_device_contract.md R238, R252; 45_switched_mux.md R216): its value in each case, and
the byte a completing read returns. -/

namespace Sys2Proof.Machine

variable {Time : Type} [LinearOrder Time] {s t : State Time} {addr : Addr} {port : Port} {d : DevIndex} {n : Time}

/-! ## A peek in each case of the read (R252, R216) -/

theorem State.peekMem_intercept (hi : s.intercept addr = true) :
    s.peekMem addr n = some (s.ssrAt s.primary3 ^^^ 0xFF#8) := if_pos hi

theorem State.peekMem_float (hi : s.intercept addr = false) (hd : s.resolveMem addr = none) :
    s.peekMem addr n = some Config.floatByte := by
  simp [State.peekMem, hi, hd]

theorem State.peekMem_device (hi : s.intercept addr = false) (hd : s.resolveMem addr = some d)
    (hmux : d ≠ s.config.muxDev) : s.peekMem addr n = some ((s.deviceAt d).peekMem d addr n) := by
  simp [State.peekMem, hi, hd, hmux]

theorem State.muxPeekIO_selected {j : SubIndex} (h : s.subAt s.mux.selector = some j) :
    s.muxPeekIO port n = (s.subDeviceAt j).peekIO j port n := by
  simp only [State.muxPeekIO, h]

theorem State.muxPeekIO_float (h : s.subAt s.mux.selector = none) : s.muxPeekIO port n = Config.floatByte := by
  simp only [State.muxPeekIO, h]

/-! ## What a completing read returns -/

omit [LinearOrder Time] in
/-- Whatever the call before it did, an answer is the value the operation returns. -/
theorem returned_of_andThen_answer {r : Result Time} {v : Byte} (h : andThen r (answer v) = .next t) :
    t.returned = .byte v := by
  obtain ⟨u, -, hanswer⟩ := andThen_eq_next.mp h
  cases hanswer
  rfl

/-- A memory read that completes is not the mux's, and returns the byte of the device's peek (R238). -/
theorem callReadMem_returned (h : callReadMem d addr s = .next t) :
    d ≠ s.config.muxDev ∧ t.returned = .byte ((s.deviceAt d).peekMem d addr s.now) := by
  unfold callReadMem at h
  split at h
  · cases h
  · exact ⟨‹_›, returned_of_andThen_answer h⟩

/-- A read through the mux returns the byte of the mux's peek (R216). -/
theorem muxReadIO_returned (h : muxReadIO port s = .next t) : t.returned = .byte (s.muxPeekIO port s.now) := by
  cases hsub : s.subAt s.mux.selector with
  | none =>
    rw [State.muxPeekIO_float hsub]
    cases (muxReadIO_float hsub).symm.trans h
    rfl
  | some j =>
    rw [State.muxPeekIO_selected hsub]
    exact returned_of_andThen_answer ((muxReadIO_selected hsub).symm.trans h)

/-- MRD and PeekMem branch alike, and agree in each of the three cases of R122. -/
theorem execMrd_returns_peekMem (h : execMrd addr s = .next t) :
    ∃ b, s.peekMem addr s.now = some b ∧ t.returned = .byte b := by
  cases hi : s.intercept addr with
  | true =>
    cases (execMrd_intercept hi).symm.trans h
    exact ⟨_, State.peekMem_intercept hi, rfl⟩
  | false =>
    cases hd : s.resolveMem addr with
    | none =>
      cases (execMrd_float hi hd).symm.trans h
      exact ⟨_, State.peekMem_float hi hd, rfl⟩
    | some d =>
      obtain ⟨hmux, hreturned⟩ := callReadMem_returned ((execMrd_forward hi hd).symm.trans h)
      exact ⟨_, State.peekMem_device hi hd hmux, hreturned⟩

/-- The record of the call on the mux changes nothing the mux's peek reads. -/
theorem execIord_mux_returns_muxPeekIO (howner : s.inAt port = some s.config.muxDev)
    (h : execIord port s = .next t) : t.returned = .byte (s.muxPeekIO port s.now) :=
  muxReadIO_returned (s := s.logCall (.readIO s.config.muxDev port s.now)) ((execIord_mux howner).symm.trans h)

/-- Settles O56: MRD against PeekMem, and IORD of a port of the mux against the mux's peekIO. -/
theorem peekAgreesWithRead : Obligations.PeekAgreesWithRead := by
  unfold Obligations.PeekAgreesWithRead
  exact fun s t => ⟨fun addr => execMrd_returns_peekMem, fun port => execIord_mux_returns_muxPeekIO⟩

end Sys2Proof.Machine
end

section
/-! SUPPORT. Reset (70_reset_and_hazards.md): what the construction state reads as, and what resetting a list of devices
does, with the count its upcalls leave. -/

namespace Sys2Proof.Machine

variable {Time : Type}

/-! ## The construction state (R286) -/

section
variable (t : Time)

@[simp] theorem State.slotAt_construction (c : Coord) : (State.construction t).slotAt c = none :=
  Vector.getElem_replicate _

@[simp] theorem State.inAt_construction (p : Port) : (State.construction t).inAt p = none :=
  Vector.getElem_replicate _

@[simp] theorem State.outAt_construction (p : Port) : (State.construction t).outAt p = none :=
  Vector.getElem_replicate _

@[simp] theorem State.ssrAt_construction (ps : Quarter) : (State.construction t).ssrAt ps = 0x00#8 :=
  Vector.getElem_replicate _

@[simp] theorem State.subAt_construction (id : Byte) : (State.construction t).subAt id = none :=
  Vector.getElem_replicate _

@[simp] theorem State.deviceAt_construction (d : DevIndex) : (State.construction t).deviceAt d = .external 0 :=
  Vector.getElem_replicate _

/-- Nothing is claimed, the registers are zero and no device is a RAM. -/
theorem State.inv_construction : (State.construction t).Inv where
  config := (by decide : resetConfig.wf = true)
  irqBound _ hbound := by cases hbound
  plainSsr ps _ := State.ssrAt_construction t ps
  resetNodup := List.nodup_nil
  resetOwners d := by rw [State.owns_construction]; exact ⟨nofun, absurd rfl⟩
  ownersExist d howns := absurd (State.owns_construction t d) howns
  muxGone _ := State.subAt_construction t
  memories d := by rw [State.deviceAt_construction]; rfl

end

/-- While PSR and every SSR are zero each page shows primary slot 0, secondary slot 0 (10_state.md R26). -/
theorem State.mapping_of_zero {s : State Time} (hpsr : s.psr = 0x00#8) (hssr : ∀ ps, s.ssrAt ps = 0x00#8) (pg : Quarter) :
    s.primary pg = 0#2 ∧ s.secondary pg = 0#2 ∧ s.visible pg = s.slotAt ⟨0#2, 0#2, pg⟩ := by
  have hprimary : s.primary pg = 0#2 := by rw [State.primary, hpsr]; exact selectField_zero pg
  have hsecondary : s.secondary pg = 0#2 := State.secondary_of_ssr_zero hssr pg
  exact ⟨hprimary, hsecondary, by rw [State.visible, State.coordOf, hprimary, hsecondary]⟩

/-- Settles O9: every table is empty and every register zero, so each page shows the empty entry of slot 0.0. -/
theorem resetStateIsTheConstructionState : Obligations.ResetStateIsTheConstructionState := by
  unfold Obligations.ResetStateIsTheConstructionState State.reset
  refine ⟨State.slotAt_construction 0, State.inAt_construction 0, State.outAt_construction 0, rfl, rfl, rfl, rfl, rfl,
    State.ssrAt_construction 0, rfl, rfl, rfl, State.subAt_construction 0, fun pg => ?_⟩
  obtain ⟨hprimary, hsecondary, hvisible⟩ := State.mapping_of_zero (s := State.construction (0 : TraceTime)) rfl
    (State.ssrAt_construction 0) pg
  exact ⟨hprimary, hsecondary, hvisible.trans (State.slotAt_construction 0 _)⟩

/-- Settles O10: the invariant holds of the construction state at every TimeStamp. -/
theorem resetStateMeetsTheInvariant : Obligations.ResetStateMeetsTheInvariant := State.inv_construction 0

/-! ## Resetting devices (R285) -/

section
variable [LinearOrder Time] {s t u : State Time} {d : DevIndex} {ds : List DevIndex}

theorem resetUpcalls_cons : resetUpcalls s (d :: ds) = resetUpcalls s [d] ++ resetUpcalls s ds := by
  simp [resetUpcalls]

theorem resetUpcalls_mux (h : d = s.config.muxDev) : resetUpcalls s [d] = [] := by
  simp [resetUpcalls, h]

theorem resetUpcalls_device (h : d ≠ s.config.muxDev) :
    resetUpcalls s [d] = ((s.deviceAt d).reset d s.now).upcalls := by
  simp [resetUpcalls, h]

/-- The upcalls of resets depend only on the parameters, the TimeStamp and the devices that are reset. -/
theorem resetUpcalls_congr (hconfig : u.config = s.config) (hnow : u.now = s.now)
    (hdevices : ∀ e ∈ ds, u.deviceAt e = s.deviceAt e) : resetUpcalls u ds = resetUpcalls s ds :=
  List.flatMap_congr fun e he => by rw [hconfig, hnow, hdevices e he]

/-- `t` is `s` after the devices of a list, the mux apart, were reset in the states that `s` holds for them. -/
structure DevicesReset (ds : List DevIndex) (s t : State Time) : Prop where
  frame : t = { s with devices := t.devices, irqCount := t.irqCount, psr := t.psr, callLog := t.callLog,
                       mux := { s.mux with selector := t.mux.selector } }
  deviceAt : ∀ e, t.deviceAt e =
    if e ∈ ds ∧ e ≠ s.config.muxDev then ((s.deviceAt e).reset e s.now).device else s.deviceAt e

theorem DevicesReset.config_eq (h : DevicesReset ds s t) : t.config = s.config := by rw [h.frame]

theorem DevicesReset.now_eq (h : DevicesReset ds s t) : t.now = s.now := by rw [h.frame]

theorem DevicesReset.deviceAt_other (h : DevicesReset ds s t) {e : DevIndex} (he : e ∉ ds) :
    t.deviceAt e = s.deviceAt e :=
  (h.deviceAt e).trans (if_neg fun hin => he hin.1)

theorem DevicesReset.cons (h : DevicesReset [d] s u) (k : DevicesReset ds u t) (hd : d ∉ ds) :
    DevicesReset (d :: ds) s t := by
  refine ⟨by rw [k.frame, h.frame], fun e => ?_⟩
  by_cases he : e = d
  · subst he
    rw [k.deviceAt_other hd, h.deviceAt]
    simp
  · rw [k.deviceAt, h.deviceAt_other (by simpa using he), h.config_eq, h.now_eq]
    simp [he]

/-- Everything the reset of one device can do: complete with the count its upcalls leave, or end in F_IRQ_UNDERFLOW as one
of them lowers at 0. -/
theorem callReset_outcome (d : DevIndex) (s : State Time) :
    (∃ t, callReset d s = .next t ∧ DevicesReset [d] s t ∧
      countAfter s.config.irqCountMax (resetUpcalls s [d]) s.irqCount = some t.irqCount) ∨
    (∃ t, callReset d s = .fault (.fatal .irqUnderflow t)) ∧
      countAfter s.config.irqCountMax (resetUpcalls s [d]) s.irqCount = none := by
  by_cases hd : d = s.config.muxDev
  · refine .inl ⟨muxReset (s.logCall (.reset d s.now)), if_pos hd, ⟨rfl, fun e => (if_neg ?_).symm⟩, ?_⟩
    · rintro ⟨he, hne⟩
      exact hne ((List.mem_singleton.mp he).trans hd)
    · rw [resetUpcalls_mux hd]; rfl
  · have hcall : callReset d s = applyEffect d ((s.deviceAt d).reset d s.now) (s.logCall (.reset d s.now)) := if_neg hd
    rw [hcall, resetUpcalls_device hd]
    obtain ⟨n, hcount, hrun⟩ | ⟨hcount, t, hrun, -⟩ := runUpcalls_cases ((s.deviceAt d).reset d s.now).upcalls
      ((s.logCall (.reset d s.now)).setDevice d ((s.deviceAt d).reset d s.now).device)
    · refine .inl ⟨_, hrun, ⟨rfl, fun e => ?_⟩, hcount⟩
      rw [State.setPsr_deviceAt, State.setIrqCount_deviceAt, State.deviceAt_setDevice, State.logCall_deviceAt]
      by_cases he : d = e
      · subst he; simp [hd]
      · simp [he, Ne.symm he]
    · exact .inr ⟨⟨t, hrun⟩, hcount⟩

/-- Everything the resets of different devices can do: complete with the count that all their upcalls leave, or end in
F_IRQ_UNDERFLOW as one of these lowers at 0. -/
theorem resetDevices_outcome (hnodup : ds.Nodup) (s : State Time) :
    (∃ t, resetDevices ds s = .next t ∧ DevicesReset ds s t ∧
      countAfter s.config.irqCountMax (resetUpcalls s ds) s.irqCount = some t.irqCount) ∨
    (∃ t, resetDevices ds s = .fault (.fatal .irqUnderflow t)) ∧
      countAfter s.config.irqCountMax (resetUpcalls s ds) s.irqCount = none := by
  induction ds generalizing s with
  | nil => exact .inl ⟨s, rfl, ⟨rfl, fun e => by simp⟩, rfl⟩
  | cons d ds ih =>
    obtain ⟨hd, hrest⟩ := List.nodup_cons.mp hnodup
    rw [resetDevices, resetUpcalls_cons, countAfter_append]
    obtain ⟨u, hu, hfirst, hcount⟩ | ⟨⟨u, hu⟩, hcount⟩ := callReset_outcome d s
    · have hupcalls : resetUpcalls u ds = resetUpcalls s ds :=
        resetUpcalls_congr hfirst.config_eq hfirst.now_eq fun e he =>
          hfirst.deviceAt_other fun hed => hd (List.mem_singleton.mp hed ▸ he)
      rw [hu, hcount, andThen_next, Option.bind_some, ← hupcalls, ← hfirst.config_eq]
      exact (ih hrest u).imp_left fun ⟨t, ht, hothers, hcounts⟩ => ⟨t, ht, hfirst.cons hothers hd, hcounts⟩
    · rw [hu, hcount]
      exact .inr ⟨⟨u, rfl⟩, rfl⟩

end

/-- Settles O13: the resets of different devices leave each other's devices alone, and then the registers are cleared. -/
theorem rstResetsDevicesThenRegisters : Obligations.RstResetsDevicesThenRegisters := by
  unfold Obligations.RstResetsDevicesThenRegisters
  intro s hnodup
  have hrst : exec .rst s = andThen (resetDevices s.resetOrder s) fun u => finish (clearRegisters u) := rfl
  obtain ⟨u, hu, hreset, hcount⟩ | ⟨⟨u, hu⟩, hcount⟩ := resetDevices_outcome hnodup s
  · refine ⟨fun _ _ => ?_, fun hnone => by rw [hcount] at hnone; cases hnone⟩
    obtain ⟨hlog, hselector⟩ := resetDevices_callLog_selector hu
    have hslot (c : Coord) : u.slotAt c = s.slotAt c := by rw [hreset.frame]; rfl
    have hssr := u.ssrAt_clearSsr
    refine ⟨(clearRegisters u).setReturned .nothing, by rw [hrst, hu]; rfl, ?_, hssr, rfl, fun pg => ?_,
      hreset.deviceAt, hselector⟩
    · rw [← hlog, hreset.frame]; rfl
    · obtain ⟨hprimary, hsecondary, hvisible⟩ :=
        State.mapping_of_zero (s := (clearRegisters u).setReturned .nothing) rfl hssr pg
      exact ⟨hprimary, hsecondary, hvisible.trans (hslot _)⟩
  · refine ⟨fun n hn => (by rw [hcount] at hn; cases hn), fun _ => ⟨u, by rw [hrst, hu]; rfl⟩⟩

end Sys2Proof.Machine
end

section
/-! SUPPORT. Exceptions (60_exceptions.md): when an operation is fatal and with which code, and when the upcalls of an
operation underflow the count. -/

namespace Sys2Proof.Machine

variable {Time : Type}

/-! ## The fault of each operation of R261 -/

section
variable {s t : State Time} {c : FatalCode} {f : Fault Time} {p : Prop} [Decidable p]

theorem raiseIf_eq_fault : (if p then raiseFatal c s else .next t) = .fault f ↔ p ∧ f = .fatal c (s.setFault (some c)) := by
  split <;> simp [*, eq_comm]

theorem raiseUnless_eq_fault :
    (if p then .next t else raiseFatal c s) = .fault f ↔ ¬ p ∧ f = .fatal c (s.setFault (some c)) := by
  split <;> simp [*, eq_comm]

theorem andThen_finish_eq_fault {r : Result Time} : andThen r finish = .fault f ↔ r = .fault f := by
  simp [andThen_eq_fault]

theorem withDevice_eq_fault {d : DevRef} {k : DevIndex → Result Time} :
    withDevice d s k = .fault f ↔ ∃ i, deviceIndex d = some i ∧ i.val < s.config.nDev ∧ k i = .fault f :=
  ⟨withDevice_fault, fun ⟨_, hd, hi, hk⟩ => (withDevice_of k hd hi).trans hk⟩

theorem withMux_eq_fault {k : State Time → Result Time} :
    withMux s k = .fault f ↔ s.mux.alive = true ∧ k s = .fault f :=
  ⟨withMux_fault, fun ⟨hmux, hk⟩ => (withMux_of k hmux).trans hk⟩

end

section
variable {s : State} {f : Fault} {port : Port} {d : DevRef}

theorem exec_irqdn_eq_fault :
    exec .irqdn s = .fault f ↔ s.irqCount = 0 ∧ f = .fatal .irqUnderflow { s with fault := some .irqUnderflow } := by
  simp only [exec, execIrqdn, andThen_finish_eq_fault, lowerIrq, raiseIf_eq_fault, State.setFault]

theorem exec_unregin_eq_fault :
    exec (.unregin port d) s = .fault f ↔
      (∃ i, deviceIndex d = some i ∧ i.val < s.config.nDev ∧ s.inAt port ≠ some i) ∧
      f = .fatal .unregInNotOwner { s with fault := some .unregInNotOwner } := by
  simp only [exec, execUnregin, withDevice_eq_fault, andThen_finish_eq_fault, releaseIn, raiseUnless_eq_fault,
    ← and_assoc, exists_and_right, ne_eq, State.setFault]

theorem exec_unregout_eq_fault :
    exec (.unregout port d) s = .fault f ↔
      (∃ i, deviceIndex d = some i ∧ i.val < s.config.nDev ∧ s.outAt port ≠ some i) ∧
      f = .fatal .unregOutNotOwner { s with fault := some .unregOutNotOwner } := by
  simp only [exec, execUnregout, withDevice_eq_fault, andThen_finish_eq_fault, releaseOut, raiseUnless_eq_fault,
    ← and_assoc, exists_and_right, ne_eq, State.setFault]

theorem exec_unregslot_eq_fault {ps ss pg : Quarter} :
    exec (.unregslot ps ss pg d) s = .fault f ↔
      (∃ i, deviceIndex d = some i ∧ i.val < s.config.nDev ∧ s.slotAt ⟨ps, ss, pg⟩ ≠ some i) ∧
      f = .fatal .unregSlotNotOwner { s with fault := some .unregSlotNotOwner } := by
  simp only [exec, execUnregslot, withDevice_eq_fault, andThen_finish_eq_fault, releaseSlot, raiseUnless_eq_fault,
    ← and_assoc, exists_and_right, ne_eq, State.setFault]

theorem exec_destroy_eq_fault :
    exec .destroy s = .fault f ↔
      ((∃ c, s.slotAt c ≠ none) ∨ (∃ p, s.inAt p ≠ none) ∨ ∃ p, s.outAt p ≠ none) ∧
      f = .fatal .destroyOutstanding { s with fault := some .destroyOutstanding } := by
  rw [← s.hasClaims_iff]
  exact raiseIf_eq_fault

theorem exec_muxdestroy_eq_fault :
    exec .muxdestroy s = .fault f ↔
      s.mux.alive = true ∧ (∃ id, s.subAt id ≠ none) ∧
      f = .fatal .muxDestroyOutstanding { s with fault := some .muxDestroyOutstanding } := by
  rw [← s.muxOccupied_iff]
  simp only [exec, execMuxdestroy, withMux_eq_fault, finish_eq, raiseIf_eq_fault, State.setFault]

/-- MUXUNREG is fatal for an id without a sub-device, and where the release of the window is (R212, R218). -/
theorem exec_muxunreg_eq_fault {id : Byte} :
    exec (.muxunreg id) s = .fault f ↔
      s.mux.alive = true ∧
      ((s.subAt id = none ∧ f = .fatal .muxUnregUnknown { s with fault := some .muxUnregUnknown }) ∨
        (s.subAt id ≠ none ∧ (∀ k, k ≠ id → s.subAt k = none) ∧ releaseWindow (s.setSub id none) = .fault f)) := by
  cases hmux : s.mux.alive with
  | false =>
    obtain ⟨-, hgone, -⟩ := exec_muxOperation_gone hmux id 0
    simp [hgone]
  | true =>
    by_cases hid : s.subAt id = none
    · rw [exec_muxunreg_unknown hmux hid]
      simp [hid, State.setFault, eq_comm]
    · by_cases hlast : ∀ k, k ≠ id → s.subAt k = none
      · rw [exec_muxunreg_last hmux hid hlast, andThen_finish_eq_fault]
        refine ⟨fun h => ⟨rfl, .inr ⟨hid, hlast, h⟩⟩, ?_⟩
        rintro ⟨-, ⟨hunknown, -⟩ | ⟨-, -, h⟩⟩
        · exact absurd hunknown hid
        · exact h
      · obtain ⟨k, hne, hk⟩ : ∃ k, k ≠ id ∧ s.subAt k ≠ none := by simpa using hlast
        have hoccupied : (s.setSub id none).muxOccupied = true :=
          (State.muxOccupied_iff _).mpr ⟨k, by simpa [Ne.symm hne] using hk⟩
        rw [exec_muxunreg_known hmux hid, if_pos hoccupied]
        simp [hid, hlast]

end

/-! ## The first window port that is not the mux's (45_switched_mux.md R218) -/

/-- The code of a release of the window port at offset `i`, In before Out, or none if both entries are the mux's. -/
def State.windowPortFault (s : State Time) (i : BitVec 4) : Option FatalCode :=
  if s.inAt (windowPort s.config i) ≠ some s.config.muxDev then some .unregInNotOwner
  else if s.outAt (windowPort s.config i) ≠ some s.config.muxDev then some .unregOutNotOwner
  else none

section
variable {s t : State Time} {i k : BitVec 4} {is : List (BitVec 4)} {c : FatalCode}

theorem State.windowPortFault_eq_none : s.windowPortFault i = none ↔ s.WindowPortOwned i := by
  simp only [State.windowPortFault, State.WindowPortOwned, ite_eq_iff', reduceCtorEq, imp_false, not_not]
  tauto

theorem State.windowPortFault_eq_in :
    s.windowPortFault i = some .unregInNotOwner ↔ s.inAt (windowPort s.config i) ≠ some s.config.muxDev := by
  simp [State.windowPortFault, ite_eq_iff]

theorem State.windowPortFault_eq_out :
    s.windowPortFault i = some .unregOutNotOwner ↔
      s.inAt (windowPort s.config i) = some s.config.muxDev ∧ s.outAt (windowPort s.config i) ≠ some s.config.muxDev := by
  simp [State.windowPortFault, ite_eq_iff]

theorem State.windowPortFault_code (h : s.windowPortFault i = some c) : c = .unregInNotOwner ∨ c = .unregOutNotOwner := by
  unfold State.windowPortFault at h
  split at h
  · exact .inl (Option.some.inj h).symm
  · split at h
    · exact .inr (Option.some.inj h).symm
    · cases h

/-- Giving up one window port leaves the entries of every other. -/
theorem State.giveUpWindowPort_windowPortFault (hne : i ≠ k) :
    (s.giveUpWindowPort i).windowPortFault k = s.windowPortFault k := by
  simp only [State.windowPortFault, State.giveUpWindowPort_config, State.giveUpWindowPort_inAt,
    State.giveUpWindowPort_outAt, windowPort_inj, if_neg hne]

@[simp] theorem endsIn_next : ¬ EndsIn (.next s) c := by rintro ⟨t, h⟩; cases h

@[simp] theorem endsIn_refused {q : Refusal} : ¬ EndsIn (.refused q : Result Time) c := by rintro ⟨t, h⟩; cases h

@[simp] theorem endsIn_fault {e : FatalCode} : EndsIn (.fault (.fatal e t)) c ↔ c = e := by simp [EndsIn, eq_comm]

/-- A release that begins with a port that is not the mux's ends in the code of that port. -/
theorem releasePorts_cons_endsIn {e : FatalCode} (h : s.windowPortFault i = some e) :
    EndsIn (releasePorts (i :: is) s) c ↔ e = c := by
  obtain rfl | rfl := State.windowPortFault_code h
  · rw [releasePorts, releaseIn_other (State.windowPortFault_eq_in.mp h)]
    simp [eq_comm]
  · obtain ⟨hin, hout⟩ := State.windowPortFault_eq_out.mp h
    rw [releasePorts, releaseIn_owner hin, andThen_next, State.strike_config, State.setIn_config,
      releaseOut_other (by simpa using hout)]
    simp [eq_comm]

/-- Releasing ports in ascending order ends in the code of the first that is not the mux's. -/
theorem releasePorts_endsIn (hsorted : is.Pairwise (· < ·)) :
    EndsIn (releasePorts is s) c ↔
      ∃ k ∈ is, s.windowPortFault k = some c ∧ ∀ l ∈ is, l < k → s.windowPortFault l = none := by
  induction is generalizing s with
  | nil => simp [releasePorts]
  | cons i is ih =>
    obtain ⟨hlt, hrest⟩ := List.pairwise_cons.mp hsorted
    simp only [List.exists_mem_cons_iff, List.forall_mem_cons]
    cases hi : s.windowPortFault i with
    | none =>
      have hlater : ∀ k ∈ is, (s.giveUpWindowPort i).windowPortFault k = s.windowPortFault k := fun k hk =>
        State.giveUpWindowPort_windowPortFault (BitVec.ne_of_lt (hlt k hk))
      rw [releasePorts_cons_owned (State.windowPortFault_eq_none.mp hi), ih hrest]
      simp only [reduceCtorEq, false_and, false_or, implies_true, true_and]
      exact exists_congr fun k => and_congr_right fun hk =>
        and_congr (by rw [hlater k hk]) (forall₂_congr fun l hl => by rw [hlater l hl])
    | some e =>
      have hlater : ¬ ∃ k ∈ is, s.windowPortFault k = some c ∧ (i < k → some e = none) ∧
          ∀ l ∈ is, l < k → s.windowPortFault l = none :=
        fun ⟨k, hk, _, hbelow, _⟩ => Option.some_ne_none e (hbelow (hlt k hk))
      have hbelow : (i < i → some e = none) ∧ ∀ l ∈ is, l < i → s.windowPortFault l = none :=
        ⟨fun h => absurd h (BitVec.lt_irrefl i), fun l hl h => absurd h (BitVec.lt_asymm (hlt l hl))⟩
      rw [releasePorts_cons_endsIn hi, or_iff_left hlater, and_iff_left hbelow, Option.some.injEq]

theorem releaseWindow_endsIn :
    EndsIn (releaseWindow s) c ↔ ∃ i, s.windowPortFault i = some c ∧ s.ownsWindowBelow i := by
  have hsorted : windowOffsets.Pairwise (· < ·) := by decide
  simp only [releaseWindow, releasePorts_endsIn hsorted, mem_windowOffsets, true_and, true_implies,
    State.windowPortFault_eq_none]
  rfl

end

/-- MUXUNREG ends in the code of a release exactly when it releases the window and that release does (R218). -/
theorem exec_muxunreg_endsIn {s : State} {id : Byte} {c : FatalCode} (hc : c ≠ .muxUnregUnknown) :
    EndsIn (exec (.muxunreg id) s) c ↔
      s.mux.alive = true ∧ s.subAt id ≠ none ∧ (∀ k, k ≠ id → s.subAt k = none) ∧
      ∃ i, s.windowPortFault i = some c ∧ s.ownsWindowBelow i := by
  have hwindow : (∃ t, releaseWindow (s.setSub id none) = .fault (.fatal c t)) ↔
      ∃ i, s.windowPortFault i = some c ∧ s.ownsWindowBelow i := releaseWindow_endsIn
  simp only [EndsIn, exec_muxunreg_eq_fault, Fault.fatal.injEq, hc, false_and, and_false, false_or, exists_and_left, hwindow]

/-! ## Every operation ends in its own codes -/

section
variable [LinearOrder Time]

theorem execMrd_underflowOnly (a : Addr) (s : State Time) : UnderflowOnly (execMrd a s) := by
  unfold execMrd
  repeat' split
  · exact .next _
  · exact .next _
  · exact callReadMem_underflowOnly _ a s

theorem execMwr_underflowOnly (a : Addr) (v : Byte) (s : State Time) : UnderflowOnly (execMwr a v s) := by
  unfold execMwr
  repeat' split
  · exact .next _
  · exact .next _
  · exact callWriteMem_underflowOnly _ a v s

theorem execIord_underflowOnly (p : Port) (s : State Time) : UnderflowOnly (execIord p s) := by
  unfold execIord
  split
  · exact .next _
  · exact callReadIO_underflowOnly _ p s

theorem execIowr_underflowOnly (p : Port) (v : Byte) (s : State Time) : UnderflowOnly (execIowr p v s) := by
  unfold execIowr
  split
  · exact .next _
  · exact callWriteIO_underflowOnly _ p v s

theorem execRst_underflowOnly (s : State Time) : UnderflowOnly (execRst s) :=
  (resetDevices_underflowOnly s.resetOrder s).andThen fun _ => .next _

end

/-- An operation is fatal only with a code of R261's table for it. -/
theorem exec_endsIn_fatalCodes {i : Instr} {s : State} {c : FatalCode} (h : EndsIn (exec i s) c) : c ∈ fatalCodes i := by
  obtain ⟨t, h⟩ := h
  have hunderflow (hcall : UnderflowOnly (exec i s)) : c = .irqUnderflow := by
    obtain ⟨u, hu, -⟩ := hcall _ h
    cases hu; rfl
  cases i with
  | mrd a => exact List.mem_singleton.mpr (hunderflow (execMrd_underflowOnly a s))
  | mwr a v => exact List.mem_singleton.mpr (hunderflow (execMwr_underflowOnly a v s))
  | iord p => exact List.mem_singleton.mpr (hunderflow (execIord_underflowOnly p s))
  | iowr p v => exact List.mem_singleton.mpr (hunderflow (execIowr_underflowOnly p v s))
  | rst => exact List.mem_singleton.mpr (hunderflow (execRst_underflowOnly s))
  | irqst | irqup | psw _ => cases h
  | irqdn => obtain ⟨-, ⟨⟩⟩ := exec_irqdn_eq_fault.mp h; exact List.mem_cons_self
  | muxrst => simp only [exec, execMuxrst, withMux_eq_fault, finish_eq, reduceCtorEq, and_false] at h
  | regslot _ _ _ _ | regin _ _ | regout _ _ => obtain ⟨i, -, -, ⟨⟩⟩ := withDevice_fault h
  | unregslot _ _ _ _ => obtain ⟨-, ⟨⟩⟩ := exec_unregslot_eq_fault.mp h; exact List.mem_cons_self
  | unregin _ _ => obtain ⟨-, ⟨⟩⟩ := exec_unregin_eq_fault.mp h; exact List.mem_cons_self
  | unregout _ _ => obtain ⟨-, ⟨⟩⟩ := exec_unregout_eq_fault.mp h; exact List.mem_cons_self
  | muxreg id j =>
    simp only [exec, execMuxreg, withMux_eq_fault] at h
    obtain ⟨-, h⟩ := h
    split at h <;> cases h
  | muxunreg id =>
    obtain ⟨-, ⟨-, ⟨⟩⟩ | ⟨-, -, hwindow⟩⟩ := exec_muxunreg_eq_fault.mp h
    · exact List.mem_cons_self
    · obtain ⟨i, hi, -⟩ := releaseWindow_endsIn.mp ⟨t, hwindow⟩
      obtain rfl | rfl := State.windowPortFault_code hi <;> simp [fatalCodes]
  | destroy => obtain ⟨-, ⟨⟩⟩ := exec_destroy_eq_fault.mp h; exact List.mem_cons_self
  | muxdestroy => obtain ⟨-, -, ⟨⟩⟩ := exec_muxdestroy_eq_fault.mp h; exact List.mem_cons_self

/-- MUXUNREG ends in F_MUX_UNREG_UNKNOWN for an unknown id alone: the release of the window has other codes. -/
theorem exec_muxunreg_eq_unknown {s t : State} {id : Byte} :
    exec (.muxunreg id) s = .fault (.fatal .muxUnregUnknown t) ↔
      s.mux.alive = true ∧ s.subAt id = none ∧ t = { s with fault := some .muxUnregUnknown } := by
  have hwindow : releaseWindow (s.setSub id none) ≠ .fault (.fatal .muxUnregUnknown t) := fun h => by
    obtain ⟨i, hi, -⟩ := releaseWindow_endsIn.mp ⟨t, h⟩
    exact (State.windowPortFault_code hi).elim nofun nofun
  simp only [exec_muxunreg_eq_fault, Fault.fatal.injEq, true_and, hwindow, and_false, or_false]

/-- Settles O8: the fault of each operation, and for the window the first port that is not the mux's. -/
theorem fatalCodesHaveTheirCauses : Obligations.FatalCodesHaveTheirCauses := by
  unfold Obligations.FatalCodesHaveTheirCauses
  refine ⟨fun i s f h => ?_, fun s t => ?_, fun s t port d => ?_, fun s t port d => ?_, fun s t ps ss pg d => ?_,
    fun s t => ?_, fun s t id => exec_muxunreg_eq_unknown, fun s t => ?_, fun s id => ⟨?_, ?_⟩⟩
  · obtain ⟨c, t⟩ := f
    rw [exec_eq_perform] at h
    exact ⟨c, t, rfl, exec_endsIn_fatalCodes ⟨t, exec_eq_perform i s ▸ h⟩, perform_faultHoldsCode i s c t h⟩
  · simp only [exec_irqdn_eq_fault, Fault.fatal.injEq, true_and]
  · simp only [exec_unregin_eq_fault, Fault.fatal.injEq, true_and]
  · simp only [exec_unregout_eq_fault, Fault.fatal.injEq, true_and]
  · simp only [exec_unregslot_eq_fault, Fault.fatal.injEq, true_and]
  · simp only [exec_destroy_eq_fault, Fault.fatal.injEq, true_and]
  · simp only [exec_muxdestroy_eq_fault, Fault.fatal.injEq, true_and]
  · simp only [exec_muxunreg_endsIn (c := .unregInNotOwner) nofun, State.windowPortFault_eq_in]
  · simp only [exec_muxunreg_endsIn (c := .unregOutNotOwner) nofun, State.windowPortFault_eq_out, and_assoc]

/-! ## The underflow of the upcalls of an operation (20_memory.md R81) -/

/-- The outcome `r` is F_IRQ_UNDERFLOW exactly if one of the upcalls `us`, made in `s`, lowers at 0. -/
def UnderflowsBy (us : List Upcall) (s : State Time) (r : Result Time) : Prop :=
  EndsIn r .irqUnderflow ↔ countAfter s.config.irqCountMax us s.irqCount = none

section
variable {us : List Upcall} {s t : State Time}

theorem UnderflowsBy.next : UnderflowsBy [] s (.next t) := iff_of_false endsIn_next nofun

theorem UnderflowsBy.refused {q : Refusal} : UnderflowsBy [] s (.refused q) := iff_of_false endsIn_refused nofun

theorem UnderflowsBy.runUpcalls : UnderflowsBy us s (runUpcalls us s) := by
  obtain ⟨n, hcount, hrun⟩ | ⟨hcount, t, hrun, -⟩ := runUpcalls_cases us s
  · rw [hrun]; exact iff_of_false endsIn_next (by rw [hcount]; nofun)
  · rw [hrun]; exact iff_of_true ⟨t, rfl⟩ hcount

/-- What completes an operation changes no code. -/
theorem UnderflowsBy.andThen_next {r : Result Time} {k : State Time → State Time} (h : UnderflowsBy us s r) :
    UnderflowsBy us s (andThen r fun u => .next (k u)) := by
  cases r with
  | next u => exact (iff_of_false endsIn_next endsIn_next).trans h
  | fault f => exact h
  | refused q => exact h

theorem UnderflowsBy.loggedEffect {d : DevIndex} {e : Effect Device} {c : DeviceCall Time} {r : Returned} :
    UnderflowsBy e.upcalls s (andThen (applyEffect d e (s.logCall c)) fun u => .next (u.setReturned r)) :=
  .andThen_next (UnderflowsBy.runUpcalls (s := (s.logCall c).setDevice d e.device))

theorem UnderflowsBy.loggedSubEffect {j : SubIndex} {e : Effect SubDevice} {c : DeviceCall Time} {r : Returned} :
    UnderflowsBy e.upcalls s (andThen (applySubEffect j e (s.logCall c)) fun u => .next (u.setReturned r)) :=
  .andThen_next (UnderflowsBy.runUpcalls (s := (s.logCall c).setSubDevice j e.device))

theorem execIrqdn_underflowsBy : UnderflowsBy [.irqDn] s (execIrqdn s) := by
  refine .andThen_next ?_
  by_cases h : s.irqCount = 0
  · rw [lowerIrq_of_zero h]; exact iff_of_true ⟨_, rfl⟩ (if_pos h)
  · rw [lowerIrq_of_pos h]; exact iff_of_false endsIn_next (by rw [countAfter, if_neg h]; nofun)

end

section
variable [LinearOrder Time] {s : State Time}

theorem execMrd_underflowsBy (addr : Addr) : UnderflowsBy (upcallsOf (.mrd addr) s) s (execMrd addr s) := by
  cases hi : s.intercept addr with
  | true => rw [execMrd_intercept hi, upcallsOf, hi]; exact .next
  | false =>
    cases hd : s.visible (page addr) with
    | none => rw [execMrd_float hi hd, upcallsOf, hi, hd]; exact .next
    | some d =>
      rw [execMrd_forward hi hd, upcallsOf, hi, hd, callReadMem]
      by_cases hmux : d = s.config.muxDev
      · simp only [if_pos hmux]; exact .refused
      · simp only [if_neg hmux]; exact .loggedEffect

theorem execMwr_underflowsBy (addr : Addr) (v : Byte) :
    UnderflowsBy (upcallsOf (.mwr addr v) s) s (execMwr addr v s) := by
  cases hi : s.intercept addr with
  | true => rw [execMwr_intercept v hi, upcallsOf, hi]; exact .next
  | false =>
    cases hd : s.visible (page addr) with
    | none => rw [execMwr_float v hi hd, upcallsOf, hi, hd]; exact .next
    | some d =>
      rw [execMwr_forward v hi hd, upcallsOf, hi, hd, callWriteMem]
      by_cases hmux : d = s.config.muxDev
      · simp only [if_pos hmux]; exact .refused
      · simp only [if_neg hmux]; exact .loggedEffect

theorem execIord_underflowsBy (port : Port) : UnderflowsBy (upcallsOf (.iord port) s) s (execIord port s) := by
  cases hd : s.inAt port with
  | none => rw [execIord_float hd, upcallsOf, hd]; exact .next
  | some d =>
    by_cases hmux : d = s.config.muxDev
    · subst hmux
      cases hsub : s.subAt s.mux.selector with
      | none =>
        rw [(execIord_mux hd).trans (muxReadIO_float hsub), upcallsOf, hd, hsub]
        simp only [↓reduceIte]
        exact .next
      | some j =>
        rw [(execIord_mux hd).trans (muxReadIO_selected hsub), upcallsOf, hd, hsub]
        simp only [↓reduceIte]
        exact UnderflowsBy.loggedSubEffect (s := s.logCall _)
    · rw [execIord_forward hd, upcallsOf, hd, callReadIO]
      simp only [if_neg hmux]
      exact .loggedEffect

theorem execIowr_underflowsBy (port : Port) (v : Byte) :
    UnderflowsBy (upcallsOf (.iowr port v) s) s (execIowr port v s) := by
  cases hd : s.outAt port with
  | none => rw [execIowr_float v hd, upcallsOf, hd]; exact .next
  | some d =>
    by_cases hmux : d = s.config.muxDev
    · subst hmux
      by_cases hoffset : port.extractLsb' 0 4 = 0#4
      · rw [(execIowr_mux hd).trans (muxWriteIO_select hoffset), upcallsOf, hd]
        simp only [↓reduceIte, if_pos hoffset]
        exact .next
      · cases hsub : s.subAt s.mux.selector with
        | none =>
          rw [(execIowr_mux hd).trans (muxWriteIO_ignored hoffset hsub), upcallsOf, hd, hsub]
          simp only [↓reduceIte, if_neg hoffset]
          exact .next
        | some j =>
          rw [(execIowr_mux hd).trans (muxWriteIO_selected hoffset hsub), upcallsOf, hd, hsub]
          simp only [↓reduceIte, if_neg hoffset]
          exact UnderflowsBy.loggedSubEffect (s := s.logCall _)
    · rw [execIowr_forward v hd, upcallsOf, hd, callWriteIO]
      simp only [if_neg hmux]
      exact .loggedEffect

theorem execRst_underflowsBy (hnodup : s.resetOrder.Nodup) :
    UnderflowsBy (resetUpcalls s s.resetOrder) s (execRst s) := by
  refine .andThen_next ?_
  obtain ⟨t, ht, -, hcount⟩ | ⟨⟨t, ht⟩, hcount⟩ := resetDevices_outcome hnodup s
  · rw [ht]; exact iff_of_false endsIn_next (by rw [hcount]; nofun)
  · rw [ht]; exact iff_of_true ⟨t, rfl⟩ hcount

/-- An operation without F_IRQ_UNDERFLOW among its codes makes no lower. -/
theorem countAfter_upcallsOf_ne_none {i : Instr} (hi : .irqUnderflow ∉ fatalCodes i) (bound : Option Nat) (n : Nat) :
    countAfter bound (upcallsOf i s) n ≠ none := by
  cases i with
  | mrd _ | mwr _ _ | iord _ | iowr _ _ | irqdn | rst => exact absurd List.mem_cons_self hi
  | irqst | irqup | psw _ | muxrst | regslot _ _ _ _ | muxreg _ _ | unregslot _ _ _ _ | muxunreg _ | regin _ _
  | regout _ _ | unregin _ _ | unregout _ _ | destroy | muxdestroy => nofun

end

/-- Settles O57: a device call ends as its upcalls count, and an operation that makes no lower has no such code. -/
theorem underflowExactlyWhenALowerFindsZero : Obligations.UnderflowExactlyWhenALowerFindsZero := by
  unfold Obligations.UnderflowExactlyWhenALowerFindsZero
  intro i s hnodup
  by_cases hi : .irqUnderflow ∈ fatalCodes i
  · cases i with
    | mrd addr => exact execMrd_underflowsBy addr
    | mwr addr v => exact execMwr_underflowsBy addr v
    | iord port => exact execIord_underflowsBy port
    | iowr port v => exact execIowr_underflowsBy port v
    | irqdn => exact execIrqdn_underflowsBy
    | rst => exact execRst_underflowsBy (hnodup rfl)
    | irqst | irqup | psw _ | muxrst | regslot _ _ _ _ | muxreg _ _ | unregslot _ _ _ _ | muxunreg _ | regin _ _
    | regout _ _ | unregin _ _ | unregout _ _ | destroy | muxdestroy => simp [fatalCodes] at hi
  · exact iff_of_false (fun h => hi (exec_endsIn_fatalCodes h)) (countAfter_upcallsOf_ne_none hi _ _)

end Sys2Proof.Machine
end
